-- ==== Sys2Proof/Word.lean ====
section
/-! DEFINITION. The number types of the block: bytes, 32-bit words, the extended rationals of R6,
the fixed-point formats of R90 to R92. Nothing here computes; the arithmetic stands in
Machine/Operands.lean. -/

namespace Sys2Proof

/-- A byte is 8 bits (R5); a list of them is a byte sequence, index 0 first on the wire. -/
abbrev Byte := BitVec 8

/-- The numeric word W of a FixedPointWord, and a binary32 pattern: 32 bits (R90, R94). -/
abbrev Word := BitVec 32

/-- The command word of the command port: 72 bits (R103). -/
abbrev CommandWord := BitVec 72

/-- `ExtRat` of R6: the rationals with three extra elements. -/
inductive ExtRat where
  | fin (q : ℚ)
  | posInf
  | negInf
  | nan
  deriving DecidableEq, Repr, Inhabited

/-- A fixed-point (m.n) format: m integer bits, the sign bit among them, and n fraction bits (R90). -/
structure FixFormat where
  m : Nat
  n : Nat
  deriving DecidableEq, Repr

/-- Format 9.23 (R91, `FMT_9_23` of R4). -/
def fmt923 : FixFormat := ⟨9, 23⟩

/-- Format 5.27 (R92, `FMT_5_27` of R4). -/
def fmt527 : FixFormat := ⟨5, 27⟩

/-- The two kinds of filter section (R168: `kind` has exactly two values). -/
inductive FilterKind where
  | lowpass
  | highpass
  deriving DecidableEq, Repr

/-- The five values the designer's floating-point evaluation hands to the codec, for
(b0/a0, b1/a0, b2/a0, -a1/a0, -a2/a0) in this order (R164, R165). -/
structure DesignValues where
  u0 : ExtRat
  u1 : ExtRat
  u2 : ExtRat
  u3 : ExtRat
  u4 : ExtRat
  deriving DecidableEq, Repr, Inhabited

end Sys2Proof
end

