-- ==== Sys2Proof/Syntax.lean ====
section
/-! DEFINITION. The operations of the block (the analogue of instructions), one constructor per row
of spec/opcode_table.json (R105), and the descriptor that APPLY and the lookup table carry (R96). -/

namespace Sys2Proof

/-- The RegisterWriteDescriptor of R96: {book, page, offset, byte length, payload bytes}. The length
field and the payload are kept apart, as in the spec, so that a length that does not match is a value
one can write down (and R194 refuses). -/
structure Descriptor where
  book    : Byte
  page    : Byte
  offset  : Byte
  len     : Byte
  payload : List Byte
  deriving DecidableEq, Repr

/-- The 17 operations of R105, with the operands of their formats (R104). Every operand is the bit
pattern of its field: a value outside its legal range is a legal encoding (R107), refused by the
operation itself. The two-valued selectors `format` and `kind` are part of the opcode (R104). -/
inductive Instr where
  /-- `ENCODE.9_23 value`, opcode 0x01, format V (R135). -/
  | encode923 (value : Word)
  /-- `ENCODE.5_27 value`, opcode 0x02, format V (R136). -/
  | encode527 (value : Word)
  /-- `DECODE.9_23 word`, opcode 0x03, format W (R137). -/
  | decode923 (word : Word)
  /-- `DECODE.5_27 word`, opcode 0x04, format W (R138). -/
  | decode527 (word : Word)
  /-- `DESIGN.LP sample_rate, cutoff_freq`, opcode 0x08, format D (R162). -/
  | designLp (sampleRate cutoffFreq : Word)
  /-- `DESIGN.HP sample_rate, cutoff_freq`, opcode 0x09, format D (R163). -/
  | designHp (sampleRate cutoffFreq : Word)
  /-- `LOOKUP band, gain_db`, opcode 0x10, format L (R182). -/
  | lookup (band gainDb : Byte)
  /-- `SET_BOOK_AND_PAGE book, page`, opcode 0x18, format P (R190). -/
  | setBookAndPage (book page : Byte)
  /-- `APPLY count`, opcode 0x19, format A; the descriptors are in `DBUF` (R191). -/
  | apply (count : Byte)
  /-- `TRIGGER`, opcode 0x20, format Z (R210). -/
  | trigger
  /-- `TICK`, opcode 0x21, format Z (R211). -/
  | tick
  /-- `SET_GAIN band, gain_db`, opcode 0x22, format L (R219). -/
  | setGain (band gainDb : Byte)
  /-- `SET_MIXER_MODE mode`, opcode 0x23, format M (R220). -/
  | setMixerMode (mode : Byte)
  /-- `POLL`, opcode 0x28, format Z (R240). -/
  | poll
  /-- `READ_FAULTS`, opcode 0x29, format Z (R246). -/
  | readFaults
  /-- `CLEAR_FAULTS`, opcode 0x2A, format Z (R247). -/
  | clearFaults
  /-- `SETUP`, opcode 0x30, format Z (R260). -/
  | setup
  deriving DecidableEq, Repr

end Sys2Proof
end

