-- ==== Sys2Proof/Config.lean ====
section
/-! DEFINITION. What one device instance fixes (the parameters of R4), as one record, and the free
values of the model: opaque constants without a body, of which nothing can be evaluated or proved. -/

namespace Sys2Proof

/-- Four values of one type, one per mixer cell, in the order of R221: k = 0 left input to left
output, k = 1 right to right, k = 2 left to right, k = 3 right to left. -/
structure MixerQuad (α : Type) where
  ll : α
  rr : α
  lr : α
  rl : α
  deriving DecidableEq, Repr

/-- The operands at which a device instance's designer numerics are known (R166). -/
structure DesignPoint where
  kind : FilterKind
  fs   : ℚ
  fc   : ℚ
  deriving DecidableEq, Repr

/-- The parameters of R4 that are not one fixed number: a constant record of one device instance.
The fixed ones stand below (`zeroPage`, and in Word.lean the two formats). -/
structure Config where
  /-- `NAN_WORD`: the word produced for a NaN input (R133). -/
  nanWord : Word
  /-- `DESIGN_EPS`: the error bound of the designer's numerics (R166). -/
  designEps : ℚ
  /-- The part of `DESIGN_NUMERICS` that is known of this instance, as finitely many points. Elsewhere
  the numerics are the free value `Config.freeDesign` (R166: OPEN). -/
  designKnown : List (DesignPoint × DesignValues)
  /-- `BAND_COUNT` (B). -/
  bandCount : Nat
  /-- `EQ_MAX_GAIN_DB` (G). -/
  eqMaxGainDb : Nat
  /-- `GAIN_RESET[i]`, 8 bits two's complement each (R21). -/
  gainReset : List Byte
  /-- `BAND_BLOCK_BYTES`. -/
  bandBlockBytes : Nat
  /-- `LUT[band][row]`: a descriptor set per cell (R180). -/
  lut : List (List (List Descriptor))
  /-- `PAGE_LAST_OFFSET`. -/
  pageLastOffset : Byte
  /-- `REG_PAGE_SELECT`. -/
  regPageSelect : Byte
  /-- `REG_BOOK_SELECT`. -/
  regBookSelect : Byte
  /-- `CTRL_BOOK`. -/
  ctrlBook : Byte
  /-- `SETTLE_THRESHOLD` (N). -/
  settleThreshold : Nat
  /-- `MIXER_MODE_COUNT`. -/
  mixerModeCount : Nat
  /-- `MIXER_MODE_RESET`. -/
  mixerModeReset : Byte
  /-- `MIXER_CELL[mode][k]`, binary32 patterns. -/
  mixerCell : List (MixerQuad Word)
  /-- `MIXER_BOOK`. -/
  mixerBook : Byte
  /-- `MIXER_PAGE`. -/
  mixerPage : Byte
  /-- `MIXER_OFFSET[k]`. -/
  mixerOffset : MixerQuad Byte
  /-- `REG_FAULT_BASE`. -/
  regFaultBase : Byte
  /-- `CLOCK_FAULT_MASK`. -/
  clockFaultMask : Byte
  /-- `EXCLUDE_CLOCK_FAULT`. -/
  excludeClockFault : Bool
  /-- `REG_FAULT_CLEAR`. -/
  regFaultClear : Byte
  /-- `FAULT_CLEAR_VALUE`. -/
  faultClearValue : Byte
  /-- `INIT_SEQ`: the power-up register load, a list of (offset, bytes) writes (R260). -/
  initSeq : List (Byte × List Byte)
  deriving DecidableEq, Repr

/-- `ZERO_PAGE` of R4: the known zero page, value 0. -/
def zeroPage : Byte := 0

/-- A numeric bus error code: a natural number in [1, 255] (R62), held as its distance from 1, so that
0 cannot be written. -/
abbrev BusCode := Fin 255

/-- The 8-bit code of the response and of the records (R62, R108). -/
def BusCode.toByte (c : BusCode) : Byte := BitVec.ofNat 8 (c.val + 1)

/-- What the environment answers to one transport call (R61). -/
inductive Answer where
  /-- The call succeeds. For a read, `bytes` are the bytes drawn; for a write they say nothing. -/
  | ok (bytes : List Byte)
  /-- The call fails with `code`; of a failing write the first `landed` bytes reached the reference
  device (R63: unchanged, or any prefix of the byte writes done). -/
  | err (code : BusCode) (landed : Nat)
  deriving DecidableEq, Repr, Inhabited

/-- FREE VALUE. The environment's answer to transport call number k where the state's script of draws
holds none (R61: each is a draw, under no law). Log entry 4. -/
opaque Config.freeAnswer : Nat → Answer

/-- FREE VALUE. Byte j of the read that is transport call number k, where the draw names fewer bytes
than the read asks for (R61: any bytes). Log entry 4. -/
opaque Config.freeByte : Nat → Nat → Byte

/-- FREE VALUE. `DESIGN_NUMERICS` where the instance's record does not name it (R166, D8: OPEN).
Log entry 9. -/
opaque Config.freeDesign : FilterKind → ℚ → ℚ → DesignValues

end Sys2Proof
end

