-- ==== Sys2Proof/Machine/Operands.lean ====
section
/-! DEFINITION. Every operand form of the block and the arithmetic on operands: binary32 patterns
(R94), the codec's core (R130 to R134), wire forms (R93), descriptors and their serial form (R96),
gains and rows (R99, R181), the designer's precondition and numerics (R160, R166), the context switch
(R98) and the mixer's descriptors (R221). Pure functions of the operands and of the configuration. -/

namespace Sys2Proof.Machine

/-! ## Floating-point operands -/

/-- `f32_value` of R94: the element of `ExtRat` a binary32 pattern stands for. The table is the spec's
from general knowledge (G1), normative through D1. -/
def f32Value (F : Word) : ExtRat :=
  let e := (F.extractLsb' 23 8).toNat
  let f := (F.extractLsb' 0 23).toNat
  let signed (q : ℚ) : ExtRat := .fin (if F.getLsbD 31 then -q else q)
  if e = 255 then
    if f ≠ 0 then .nan else if F.getLsbD 31 then .negInf else .posInf
  else if e = 0 then signed ((f : ℚ) / ((2 ^ 149 : ℕ) : ℚ))
  else if 150 ≤ e then signed (((2 ^ 23 + f) * 2 ^ (e - 150) : ℕ) : ℚ)
  else signed (((2 ^ 23 + f : ℕ) : ℚ) / ((2 ^ (150 - e) : ℕ) : ℚ))

/-! ## The codec's core -/

/-- `fmt_min` of R131. -/
def fmtMin (f : FixFormat) : ℚ := -((2 ^ (f.m - 1) : ℕ) : ℚ)

/-- `fmt_max` of R131. -/
def fmtMax (f : FixFormat) : ℚ := ((2 ^ (f.m - 1) : ℕ) : ℚ) - 1 / ((2 ^ f.n : ℕ) : ℚ)

/-- `rha` of R6 and R132: to the nearest integer, ties away from zero. -/
def rha (s : ℚ) : ℤ := if 0 ≤ s then ⌊s + 1 / 2⌋ else -⌊-s + 1 / 2⌋

/-- Step 1 of R130, with the infinities of R133; `none` for a NaN. -/
def clampToFormat (f : FixFormat) : ExtRat → Option ℚ
  | .fin x => some (min (max x (fmtMin f)) (fmtMax f))
  | .posInf => some (fmtMax f)
  | .negInf => some (fmtMin f)
  | .nan => none

/-- Steps 2a to 2c of R130: scale by 2^n, round, saturate to 32 bits. -/
def scaleToWord (f : FixFormat) (c : ℚ) : Word :=
  BitVec.ofInt 32 (min (max (rha (c * ((2 ^ f.n : ℕ) : ℚ))) (-2 ^ 31)) (2 ^ 31 - 1))

/-- `enc_core` of R130; `nanWord` is the parameter `NAN_WORD`. -/
def encCore (nanWord : Word) (f : FixFormat) (x : ExtRat) : Word :=
  match clampToFormat f x with
  | some c => scaleToWord f c
  | none => nanWord

/-- `dec_core` of R137 and R138, and `value(W)` of R90: the exact rational a word stands for. -/
def decCore (n : Nat) (w : Word) : ℚ := (w.toInt : ℚ) / ((2 ^ n : ℕ) : ℚ)

/-! ## Wire forms -/

/-- `wire` of R93: four bytes, most significant first. -/
def wire (w : Word) : List Byte :=
  [w.extractLsb' 24 8, w.extractLsb' 16 8, w.extractLsb' 8 8, w.extractLsb' 0 8]

/-- `unwire` of R93, on the four bytes of a wire form. -/
def unwire (y0 y1 y2 y3 : Byte) : Word := y0 ++ y1 ++ y2 ++ y3

/-- `swapped` of R93: the integer a little-endian host holds after the byte swap. -/
def swapped (w : Word) : Word :=
  w.extractLsb' 0 8 ++ w.extractLsb' 8 8 ++ w.extractLsb' 16 8 ++ w.extractLsb' 24 8

/-! ## Descriptors -/

/-- The address of the last byte a descriptor writes, on unbounded integers (R96, R147 f). -/
def Descriptor.last (d : Descriptor) : Nat := d.offset.toNat + d.len.toNat - 1

/-- Well-formedness of a descriptor (R96, R194): at least one byte, the length is the payload's, the
write stays inside the page, and no byte of it falls on a select register. -/
def Descriptor.wellFormed (c : Config) (d : Descriptor) : Bool :=
  decide (1 ≤ d.len.toNat) &&
  decide (d.payload.length = d.len.toNat) &&
  decide (Descriptor.last d ≤ c.pageLastOffset.toNat) &&
  (List.range d.len.toNat).all fun j =>
    decide (d.offset.toNat + j ≠ c.regPageSelect.toNat) &&
    decide (d.offset.toNat + j ≠ c.regBookSelect.toNat)

/-- The serial form of a descriptor (R96): `[book, page, offset, len] ++ payload`. -/
def Descriptor.serial (d : Descriptor) : List Byte :=
  [d.book, d.page, d.offset, d.len] ++ d.payload

/-- The serial form of a list of descriptors (R96): the members' forms in order. -/
def serialise (ds : List Descriptor) : List Byte := ds.flatMap Descriptor.serial

/-- Reading a serial form, with fuel. Where the bytes end inside a payload the last descriptor's
length does not match its payload, and where they end inside the four header bytes the rest is kept
as the payload of a descriptor of length 0: both are ill-formed, so APPLY refuses them (R194).
Log entry 8. -/
def parseWithFuel : Nat → List Byte → List Descriptor
  | 0, _ => []
  | _ + 1, [] => []
  | n + 1, book :: page :: offset :: len :: rest =>
      ⟨book, page, offset, len, rest.take len.toNat⟩ :: parseWithFuel n (rest.drop len.toNat)
  | _ + 1, rest => [⟨0, 0, 0, 0, rest⟩]

/-- The descriptor list that a `DBUF` in serial form holds (R96); every step reads at least one byte,
so the length is fuel enough. -/
def parseDescriptors (bytes : List Byte) : List Descriptor := parseWithFuel bytes.length bytes

/-! ## Gains, rows and table cells -/

/-- The decibel value of a GainDb byte: 8 bits, two's complement (R99). -/
def gainOf (g : Byte) : ℤ := g.toInt

/-- The legal range of a band gain, -G to G (R21, R182). -/
def gainInRange (c : Config) (g : Byte) : Bool :=
  decide (-(c.eqMaxGainDb : ℤ) ≤ gainOf g) && decide (gainOf g ≤ (c.eqMaxGainDb : ℤ))

/-- The operand check of LOOKUP and SET_GAIN: the band exists and the gain is in range (R182, R219). -/
def bandGainValid (c : Config) (band gainDb : Byte) : Bool :=
  decide (band.toNat < c.bandCount) && gainInRange c gainDb

/-- `row = gain_db + G` (R99, R181). -/
def rowOf (c : Config) (g : Byte) : Nat := (gainOf g + (c.eqMaxGainDb : ℤ)).toNat

/-- `LUT[band][row]` (R180). Outside the table, where no validated access falls, the set is empty
(log entry 15). -/
def lutCell (c : Config) (band row : Nat) : List Descriptor :=
  ((c.lut[band]?.getD [])[row]?).getD []

/-! ## The designer -/

/-- The precondition of R160 on the two values: both finite and `0 < fc < fs/2`; then the two
rationals. -/
def designInputs (sampleRate cutoffFreq : Word) : Option (ℚ × ℚ) :=
  match f32Value sampleRate, f32Value cutoffFreq with
  | .fin fs, .fin fc => if 0 < fc ∧ fc < fs / 2 then some (fs, fc) else none
  | _, _ => none

/-- The instance's known numerics at a point, if its record names it. -/
def knownDesign (p : DesignPoint) : List (DesignPoint × DesignValues) → Option DesignValues
  | [] => none
  | (q, v) :: rest => if q = p then some v else knownDesign p rest

/-- `DESIGN_NUMERICS` of R166: a total function of its three operands alone, a field of the
configuration where known and a free value elsewhere. -/
def designNumerics (c : Config) (kind : FilterKind) (fs fc : ℚ) : DesignValues :=
  (knownDesign ⟨kind, fs, fc⟩ c.designKnown).getD (Config.freeDesign kind fs fc)

/-- The five words of R165, in the order b0, b1, b2, a1, a2. -/
def designWords (c : Config) (v : DesignValues) : List Word :=
  [v.u0, v.u1, v.u2, v.u3, v.u4].map (encCore c.nanWord fmt527)

/-- The 20 bytes of BiquadCoefficients (R95). -/
def coefficientBytes (ws : List Word) : List Byte := ws.flatMap wire

/-- The 160-bit datum of DESIGN: the 20 bytes of R95 with byte 0 most significant (R108). -/
def packCoefficients (bytes : List Byte) : BitVec 160 :=
  bytes.foldl (fun acc y => (acc <<< 8) ||| y.zeroExtend 160) 0

/-! ## The context switch and the mixer -/

/-- The fixed three-step preamble as three single-byte writes (R98); the third is never skipped. -/
def preambleWrites (c : Config) (book page : Byte) : List (Byte × List Byte) :=
  [(c.regPageSelect, [zeroPage]), (c.regBookSelect, [book]), (c.regPageSelect, [page])]

/-- One mixer cell's descriptor (R221): four bytes, the 9.23 word of its binary32 value. -/
def mixerDescriptor (c : Config) (offset : Byte) (cell : Word) : Descriptor :=
  ⟨c.mixerBook, c.mixerPage, offset, 4, wire (encCore c.nanWord fmt923 (f32Value cell))⟩

/-- `mixer_descriptors(mode)` of R221, cells in the order L to L, R to R, L to R, R to L. Outside the
modes of the configuration, where no validated mode falls, the list is empty (log entry 15). -/
def mixerDescriptors (c : Config) (mode : Nat) : List Descriptor :=
  match c.mixerCell[mode]? with
  | none => []
  | some q =>
    [mixerDescriptor c c.mixerOffset.ll q.ll, mixerDescriptor c c.mixerOffset.rr q.rr,
     mixerDescriptor c c.mixerOffset.lr q.lr, mixerDescriptor c c.mixerOffset.rl q.rl]

end Sys2Proof.Machine
end

