-- ==== Sys2Proof/WellFormed.lean ====
section
/-! DEFINITION. What must hold of the data the model is given: of a cell of the lookup table (R183)
and of a whole configuration (R302). A descriptor's own check is `Machine.Descriptor.wellFormed`
(R96), which APPLY runs itself. An operation carries no check of its own: the widths of its operands
are in their types, and a legal field with an illegal value is a legal encoding (R107). -/

namespace Sys2Proof

open Machine

/-- The pages of a cell's descriptors never fall, and each step is at most one (R183). -/
def pagesStep : List Nat → Bool
  | p :: q :: rest => (decide (q = p) || decide (q = p + 1)) && pagesStep (q :: rest)
  | _ => true

/-- A well-formed cell of the lookup table (R183, R97): a non-empty list of well-formed descriptors of
one book whose lengths add up to the block size and whose pages never fall, step by at most one and
take at most two values. -/
def cellWellFormed (c : Config) (ds : List Descriptor) : Bool :=
  !ds.isEmpty &&
  ds.all (Descriptor.wellFormed c) &&
  decide ((ds.map fun d => d.len.toNat).sum = c.bandBlockBytes) &&
  (ds.all fun d => ds.all fun d' => decide (d.book = d'.book)) &&
  pagesStep (ds.map fun d => d.page.toNat) &&
  (ds.all fun d => ds.all fun d' => decide (d.page.toNat ≤ d'.page.toNat + 1))

/-- Exactly one bit of a byte is set (R4, `CLOCK_FAULT_MASK`). -/
def oneBitSet (m : Byte) : Bool :=
  ((List.range 8).filter fun k => m.getLsbD k).length == 1

/-- The lookup table's shape (R180): B columns of 2G + 1 well-formed cells. -/
def lutWellFormed (c : Config) : Bool :=
  decide (c.lut.length = c.bandCount) &&
  c.lut.all fun column =>
    decide (column.length = 2 * c.eqMaxGainDb + 1) && column.all (cellWellFormed c)

/-- The mixer's part of the configuration (R4, R221): every mode's four descriptors are well-formed. -/
def mixerWellFormed (c : Config) : Bool :=
  decide (1 ≤ c.mixerModeCount) && decide (c.mixerModeCount ≤ 256) &&
  decide (c.mixerCell.length = c.mixerModeCount) &&
  decide (c.mixerModeReset.toNat < c.mixerModeCount) &&
  (List.range c.mixerModeCount).all fun mode =>
    (mixerDescriptors c mode).all (Descriptor.wellFormed c)

/-- The bounds of R4 on the band count, the gain range and the gains' reset values. -/
def gainsWellFormed (c : Config) : Bool :=
  decide (c.bandCount ≤ 255) && decide (c.eqMaxGainDb ≤ 127) &&
  decide (c.gainReset.length = c.bandCount) && c.gainReset.all (gainInRange c)

/-- A complete and well-formed configuration record (R302, with the constraints of R4). That every
write of `INIT_SEQ` carries at least one byte is read from R61 (log entry 17).
DESIGN CHOICE: an `INIT_SEQ` that changes the book or the page and does not end in the context
(`CTRL_BOOK`, `ZERO_PAGE`), against R260, is accepted: R302 does not list it among what is refused
(log entry 23).
DESIGN CHOICE: so is an `INIT_SEQ` write that runs past `PAGE_LAST_OFFSET`, and a register of the
configuration beyond it: R67 gives its check and its refusal for descriptors only (log entry 24). -/
def Config.wf (c : Config) : Bool :=
  gainsWellFormed c &&
  decide (1 ≤ c.bandBlockBytes) &&
  lutWellFormed c &&
  mixerWellFormed c &&
  decide (1 ≤ c.settleThreshold) &&
  oneBitSet c.clockFaultMask &&
  decide (c.regPageSelect ≠ c.regBookSelect) &&
  decide (0 ≤ c.designEps) &&
  c.initSeq.all fun w => !w.2.isEmpty

end Sys2Proof
end

