-- ==== Sys2Proof/Machine/State.lean ====
section
/-! DEFINITION. The state of one device instance as plain data: the tuple of R20 (the band gains, the
mixer mode, the refresh phase, the fault snapshot, the changed flags, the failed latch, the event
history), the operand buffer `DBUF` (R60), the response register (R108), and what the environment
contributes (the command port, the draws of the transport, the reference device of R63). -/

namespace Sys2Proof.Machine

/-! ## Results (R8, R108, R270) -/

/-- The status codes of R270. -/
inductive Status where
  | ok
  | validationError
  | transportError
  | designPrecondition
  | deviceFailed
  | illegalCommand
  deriving DecidableEq, Repr

/-- The `data` of a response (R108), by operation. -/
inductive RespData where
  /-- No data. -/
  | none
  /-- ENCODE and DECODE: the 32-bit word. -/
  | word (w : Word)
  /-- DESIGN: 160 bits. -/
  | coefficients (c : BitVec 160)
  /-- LOOKUP: a descriptor set in serial form. -/
  | descriptors (bytes : List Byte)
  /-- POLL and READ_FAULTS: the packed 40-bit snapshot. -/
  | faults (p : BitVec 40)
  deriving DecidableEq, Repr

/-- The result `{status, code, data}` every operation returns (R8). -/
structure Result where
  status : Status
  code   : Byte
  data   : RespData
  deriving DecidableEq, Repr

/-! ## The event history (R33, R77) -/

/-- The result of a transport write: `ok` or `err(code)` (R61). -/
inductive WriteResult where
  | ok
  | err (code : Byte)
  deriving DecidableEq, Repr

/-- The result of a transport read: `ok(bytes)` or `err(code)` (R61). -/
inductive ReadResult where
  | ok (bytes : List Byte)
  | err (code : Byte)
  deriving DecidableEq, Repr

/-- The operation kind of a `TransportError` record (R284). -/
inductive Access where
  | read
  | write
  deriving DecidableEq, Repr

/-- The target of a failed settings write (R284). -/
inductive Target where
  | mixer
  | band (i : Nat)
  deriving DecidableEq, Repr

/-- The warning records of R284. -/
inductive Warning where
  | transportError (kind : Access) (offset code : Byte)
  | refreshWriteFailed (target : Target) (result : Result)
  | immediateWriteFailed (target : Target) (result : Result)
  deriving DecidableEq, Repr

/-- One entry of the history (R33). -/
inductive Entry where
  | w (offset : Byte) (bytes : List Byte) (result : WriteResult)
  | r (offset : Byte) (count : Nat) (result : ReadResult)
  | warn (record : Warning)
  deriving DecidableEq, Repr

/-! ## The environment -/

/-- The bytes of the reference device's register space (R60, R63): (address, byte) pairs, addresses
strictly rising. An address that is not listed holds the byte `Memory.unwritten` (log entry 6). -/
abbrev Memory := List Host.Cell

/-- The reference device of R63: the active context and the register bytes. It is an environment a
claim may assume; no operation of the block reads it. -/
structure Device where
  book : Byte
  page : Byte
  mem  : Memory
  deriving DecidableEq, Repr

/-- What becomes of one transport call: it returns with an answer, or it never returns (R321). -/
inductive Draw where
  | returns (a : Answer)
  | hangs
  deriving DecidableEq, Repr

/-- The transport as the block sees it: the history of the calls made and the warnings logged, the
reference device behind it, the script of draws the environment has in store (oldest first), the
number of calls made since power-up, and whether a call never returned. -/
structure Bus where
  hist   : List Entry
  dev    : Device
  draws  : List Draw
  drawNo : Nat
  stuck  : Bool
  deriving DecidableEq, Repr

/-- What the environment must not do (R307, R74, R300, R322): it has no move in the model. -/
inductive Intrusion where
  /-- A second command of this instance while one is running. -/
  | overlappingCommand
  /-- Another bus master writes the chip during a transaction. -/
  | foreignBusMaster
  /-- Reset is raised in the middle of an operation. -/
  | resetMidOperation
  deriving DecidableEq, Repr

/-- One event the environment puts on the command port (R276, R300, R321). -/
inductive PortEvent where
  /-- A command word, with the `DBUF` operand in serial form (R96, R103). -/
  | command (cmd : CommandWord) (dbuf : List Byte)
  /-- The reset event (R300). -/
  | reset
  /-- An event the spec excludes (R322). -/
  | intrusion (kind : Intrusion)
  deriving DecidableEq, Repr

/-! ## The block's own registers -/

/-- `phase` of R23, the refresh phase. -/
inductive Phase where
  | idle
  | triggered
  | settling (c : Nat)
  | mixerPending
  | bandPending (i : Nat)
  | complete
  deriving DecidableEq, Repr

/-- `snap` of R26: the last fault poll. -/
structure Snapshot where
  ch    : Byte
  glob  : Byte
  clock : Bool
  otf   : Byte
  otw   : Byte
  deriving DecidableEq, Repr

/-- `chg` of R27: one changed flag per group. -/
structure ChangedFlags where
  ch    : Bool
  glob  : Bool
  clock : Bool
  otf   : Bool
  otw   : Bool
  deriving DecidableEq, Repr

/-- The state of one device instance and its environment. -/
structure State where
  /-- The parameters of R4, constant while the block runs. -/
  cfg       : Config
  /-- `gain[0..B-1]`, 8 bits two's complement each (R21). -/
  gain      : List Byte
  /-- `mixer_mode` (R22). -/
  mixerMode : Byte
  /-- `phase` (R23). -/
  phase     : Phase
  /-- `snap` (R26). -/
  snap      : Snapshot
  /-- `chg` (R27). -/
  chg       : ChangedFlags
  /-- `failed` (R29). -/
  failed    : Bool
  /-- `hist` (R33) and the environment behind the transport. -/
  bus       : Bus
  /-- `DBUF`, the descriptor list handed to APPLY (R60). -/
  dbuf      : List Descriptor
  /-- The response of the last command (R108); none before the first one. -/
  resp      : Option Result
  /-- The events on the command port, oldest first (R103, R321). -/
  port      : List PortEvent
  deriving DecidableEq, Repr

/-- `hist` of R33. -/
def State.hist (s : State) : List Entry := s.bus.hist

/-- How the machine stops. -/
inductive Fault where
  /-- Raised by every operation that calls the transport, and by a step from a state in which a call
  never returned: the block is stuck inside that operation, no later command is accepted (R321).
  Safe: the machine stops where the hardware goes on waiting. -/
  | transportNeverReturned
  deriving DecidableEq, Repr

/-- Why the model gives no meaning. -/
inductive Refusal where
  /-- Raised only by an arm of exec whose instruction has no meaning yet; no arm is left so. Safe. -/
  | notModelled (mnemonic : String)
  /-- Raised by `State.boot` for a configuration that is not well-formed: it is refused as a whole
  (R302, R183, R221). Safe. -/
  | illFormedConfiguration
  /-- Raised by `step` for an event the spec excludes: the model gives such an interleaving no meaning
  and must refuse it (R74, R307, R300). Safe. -/
  | excludedInterleaving (kind : Intrusion)
  deriving DecidableEq, Repr

/-! ## Reset -/

/-- The reset values of R26 and R34: all zero. -/
def Snapshot.reset : Snapshot := ⟨0, 0, false, 0, 0⟩

/-- The reset values of R27 and R34: all flags 0. -/
def ChangedFlags.reset : ChangedFlags := ⟨false, false, false, false, false⟩

/-- DESIGN CHOICE: the reference device before the first write. R34 leaves its context and its registers
after reset unspecified; the context is the one R303 gives a chip fresh from its own power-up, and every
register holds `Memory.unwritten` (log entry 6). -/
def Device.fresh (c : Config) : Device := ⟨c.ctrlBook, zeroPage, []⟩

/-- The machine right after the reset that follows power-up, for a device instance with configuration
`c`: the values of R34, no draw in store, nothing on the port, no response yet. -/
def State.resetWith (c : Config) : State where
  cfg := c
  gain := c.gainReset
  mixerMode := c.mixerModeReset
  phase := .idle
  snap := .reset
  chg := .reset
  failed := false
  bus := ⟨[], Device.fresh c, [], 0, false⟩
  dbuf := []
  resp := none
  port := []

/-- Releasing reset on a configuration record (R302): an ill-formed one is refused as a whole. -/
def State.boot (c : Config) : Host.Outcome State Fault Refusal :=
  if c.wf then .next (.resetWith c) else .refused .illFormedConfiguration

/-! ## The reference instance -/

/-- The synthetic payload P(b, r) of the spec's test configuration T (95_test_vectors.md section 0). -/
def referencePayload (band row : Nat) : List Byte :=
  [BitVec.ofNat 8 (0xB0 + band), BitVec.ofNat 8 row] ++
    (List.range 18).map fun j => BitVec.ofNat 8 (j + 2)

/-- The cells of T's synthetic table: bands 0 and 2 on one page each, band 1 across two. -/
def referenceCell (band row : Nat) : List Descriptor :=
  if band = 0 then [⟨0xAA, 0x24, 0x18, 20, referencePayload band row⟩]
  else if band = 1 then
    [⟨0xAA, 0x24, 0x70, 12, (referencePayload band row).take 12⟩,
     ⟨0xAA, 0x25, 0x08, 8, (referencePayload band row).drop 12⟩]
  else [⟨0xAA, 0x25, 0x1C, 20, referencePayload band row⟩]

/-- The device instance of `State.reset`: the spec's test configuration T with N = 20 and B = 3, the
reference configuration of vector F6. R4 leaves these parameters open; T is an example, not the
hardware (log entry 3). -/
def Config.reference : Config where
  nanWord := 0
  designEps := 0
  designKnown := []
  bandCount := 3
  eqMaxGainDb := 24
  gainReset := [0, 0, 0]
  bandBlockBytes := 20
  lut := (List.range 3).map fun band => (List.range 49).map fun row => referenceCell band row
  pageLastOffset := 0x7F
  regPageSelect := 0x00
  regBookSelect := 0x7F
  ctrlBook := 0x00
  settleThreshold := 20
  mixerModeCount := 5
  mixerModeReset := 0
  mixerCell :=
    [⟨0x3F800000, 0x3F800000, 0, 0⟩, ⟨0x3F800000, 0x3F800000, 0, 0⟩,
     ⟨0x3F000000, 0x3F000000, 0x3F000000, 0x3F000000⟩, ⟨0x3F800000, 0, 0x3F800000, 0⟩,
     ⟨0, 0x3F800000, 0, 0x3F800000⟩]
  mixerBook := 0x8C
  mixerPage := 0x29
  mixerOffset := ⟨0x18, 0x24, 0x20, 0x1C⟩
  regFaultBase := 0x70
  clockFaultMask := 0x04
  excludeClockFault := false
  regFaultClear := 0x78
  faultClearValue := 0x80
  initSeq := [(0x03, [0x02]), (0x03, [0x03])]

/-- The machine right after reset (R34), on the reference instance. -/
def State.reset : State := .resetWith Config.reference

end Sys2Proof.Machine
end

