-- ==== Sys2Proof/Machine/Flags.lean ====
section
/-! DEFINITION. Every flag and status computation of the block: the fault fields and their changes
(R241 to R243), the derived outputs (R25, R28, R244, R245), the packed snapshot (R101), the flat form
of the phase (R100), the codes of the response (R108, R270). -/

namespace Sys2Proof.Machine

/-! ## The fault tracker's flags -/

/-- Field extraction from the four bytes of the fault read (R102, R241). -/
def snapshotOf (clockMask y0 y1 y2 y3 : Byte) : Snapshot where
  ch := y0
  glob := y1 &&& ~~~clockMask
  clock := decide (y1 &&& clockMask ≠ 0)
  otf := y2
  otw := y3

/-- The diff of R242: the changed-mask of one group. -/
def diff (old new : Byte) : Byte := old ^^^ new

/-- The changed flags of a successful poll (R243). -/
def changedFlags (old new : Snapshot) : ChangedFlags where
  ch := decide (diff old.ch new.ch ≠ 0)
  glob := decide (diff old.glob new.glob ≠ 0)
  clock := old.clock ^^ new.clock
  otf := decide (diff old.otf new.otf ≠ 0)
  otw := decide (diff old.otw new.otw ≠ 0)

/-- No group changed: the flags of a failed poll (R249). -/
def noChange : ChangedFlags := ⟨false, false, false, false, false⟩

/-- `any_fault` of R244; `exclude` is `EXCLUDE_CLOCK_FAULT`. -/
def anyFault (exclude : Bool) (snap : Snapshot) : Bool :=
  decide (snap.ch ≠ 0) || decide (snap.glob ≠ 0) || decide (snap.otf ≠ 0) ||
    decide (snap.otw ≠ 0) || (snap.clock && !exclude)

/-- `publish` of R245. -/
def publish (exclude : Bool) (snap : Snapshot) (chg : ChangedFlags) : Bool :=
  chg.ch || chg.glob || chg.clock || chg.otf || chg.otw || anyFault exclude snap

/-- The packed FaultSnapshot of R101, bit 39 first. -/
def packFaults (exclude : Bool) (snap : Snapshot) (chg : ChangedFlags) : BitVec 40 :=
  BitVec.ofBool (publish exclude snap chg) ++ BitVec.ofBool (anyFault exclude snap) ++
  BitVec.ofBool chg.otw ++ BitVec.ofBool chg.otf ++ BitVec.ofBool chg.clock ++
  BitVec.ofBool chg.glob ++ BitVec.ofBool chg.ch ++ BitVec.ofBool snap.clock ++
  snap.otw ++ snap.otf ++ snap.glob ++ snap.ch

/-- The packed snapshot of a state, the `data` of POLL and READ_FAULTS. -/
def State.packedFaults (s : State) : BitVec 40 :=
  packFaults s.cfg.excludeClockFault s.snap s.chg

/-! ## The refresh machine's status -/

/-- `ticks_needed` of R25. -/
def ticksNeeded : Phase → Bool
  | .idle => false
  | .triggered => true
  | .settling _ => true
  | .mixerPending => true
  | .bandPending _ => true
  | .complete => false

/-- The order of the phases of R24 as a rank: Idle < Triggered < Settling(1) < ... < Settling(N-1) <
MixerPending < BandPending(0) < ... < BandPending(B-1) < Complete. -/
def phaseRank (c : Config) : Phase → Nat
  | .idle => 0
  | .triggered => 1
  | .settling k => 1 + k
  | .mixerPending => 1 + c.settleThreshold
  | .bandPending i => 2 + c.settleThreshold + i
  | .complete => 2 + c.settleThreshold + c.bandCount

/-- The ranges of R23: `Settling(c)` with 1 <= c <= N - 1, `BandPending(i)` with i <= B - 1. -/
def phaseInRange (c : Config) : Phase → Bool
  | .settling k => decide (1 ≤ k) && decide (k + 1 ≤ c.settleThreshold)
  | .bandPending i => decide (i + 1 ≤ c.bandCount)
  | .idle => true
  | .triggered => true
  | .mixerPending => true
  | .complete => true

/-- The flat encoding of R100: `tag[2:0] ‖ arg[7:0]`. -/
def phaseFlat : Phase → BitVec 11
  | .idle => 0#3 ++ 0#8
  | .triggered => 1#3 ++ 0#8
  | .settling c => 2#3 ++ BitVec.ofNat 8 c
  | .mixerPending => 3#3 ++ 0#8
  | .bandPending i => 4#3 ++ BitVec.ofNat 8 i
  | .complete => 5#3 ++ 0#8

/-- Reading a flat phase (R100): tags 6 and 7 never occur, and a constructor without an argument has
argument 0. -/
def phaseOfFlat (v : BitVec 11) : Option Phase :=
  let arg := (v.extractLsb' 0 8).toNat
  match (v.extractLsb' 8 3).toNat with
  | 0 => if arg = 0 then some .idle else none
  | 1 => if arg = 0 then some .triggered else none
  | 2 => some (.settling arg)
  | 3 => if arg = 0 then some .mixerPending else none
  | 4 => some (.bandPending arg)
  | 5 => if arg = 0 then some .complete else none
  | _ => none

/-! ## The response -/

/-- The 4-bit status codes of R270. -/
def statusCode : Status → BitVec 4
  | .ok => 0
  | .validationError => 1
  | .transportError => 2
  | .designPrecondition => 3
  | .deviceFailed => 4
  | .illegalCommand => 5

/-- `code` is 0 unless the status is `TransportError` (R108). -/
def Result.codeLegal (r : Result) : Bool :=
  if r.status = .transportError then decide (r.code ≠ 0) else decide (r.code = 0)

end Sys2Proof.Machine
end

