-- ==== Sys2Proof/Machine/Ops.lean ====
section
/-! DEFINITION. The shared operations: the reference device's registers (R63), the transport calls
(R61), warnings (R284), runs of writes, the sequencer's preamble and transaction (R190 to R194), and
the delivery of a result to the caller (R278), which is this block's counterpart of taking an
exception: an error is the result value of the operation that found it; nothing is saved, no mode
changes, there is no vector, no handler and no return from one. -/

namespace Sys2Proof.Machine

/-! ## Results -/

/-- `{OK, 0, none}`. -/
def Result.ok : Result := ⟨.ok, 0, .none⟩

/-- `{OK, 0, data}`. -/
def Result.okWith (d : RespData) : Result := ⟨.ok, 0, d⟩

/-- `{ValidationError, 0, none}` (R271). -/
def Result.validationError : Result := ⟨.validationError, 0, .none⟩

/-- `{TransportError, code, none}` (R272). -/
def Result.transportError (code : Byte) : Result := ⟨.transportError, code, .none⟩

/-- `{DesignPrecondition, 0, none}` (R273). -/
def Result.designPrecondition : Result := ⟨.designPrecondition, 0, .none⟩

/-- `{DeviceFailed, 0, none}` (R274). -/
def Result.deviceFailed : Result := ⟨.deviceFailed, 0, .none⟩

/-- `{IllegalCommand, 0, none}` (R275). -/
def Result.illegalCommand : Result := ⟨.illegalCommand, 0, .none⟩

/-! ## The reference device (R63) -/

/-- DESIGN CHOICE: what a register reads as before anything is written to it. R63 gives every register
a byte and R34 leaves it unspecified after reset (log entry 6). -/
def Memory.unwritten : Byte := 0

/-- The canonical form of the register bytes: addresses strictly rising, and no entry equal to what an
unlisted address reads as. -/
def Memory.wf : Memory → Bool
  | [] => true
  | [a] => decide (a.2 ≠ Memory.unwritten)
  | a :: b :: rest =>
    decide (a.2 ≠ Memory.unwritten) && decide (a.1 < b.1) && Memory.wf (b :: rest)

/-- The byte at an address, a total map (R63). -/
def Memory.read : Memory → Nat → Byte
  | [], _ => Memory.unwritten
  | (b, v) :: rest, a => if b = a then v else Memory.read rest a

/-- An entry before all others, left out where the address then reads as the byte all the same. -/
def Memory.push (a : Nat) (v : Byte) (m : Memory) : Memory :=
  if v = Memory.unwritten then m else (a, v) :: m

/-- Writing one byte, keeping the canonical form. -/
def Memory.write : Memory → Nat → Byte → Memory
  | [], a, v => Memory.push a v []
  | (b, w) :: rest, a, v =>
    if a < b then Memory.push a v ((b, w) :: rest)
    else if a = b then Memory.push a v rest
    else (b, w) :: Memory.write rest a v

/-- The address of a register in space DEV: the triple (book, page, offset), 8 bits each (R60). -/
def devAddr (book page offset : Byte) : Nat :=
  book.toNat * 65536 + page.toNat * 256 + offset.toNat

/-- The register an offset names in the device's active context (R64). -/
def Device.peek (d : Device) (book page offset : Byte) : Byte :=
  Memory.read d.mem (devAddr book page offset)

/-- One byte write of R63 at offset `o`: the page-index register, the book-index register while the
page is zero, or the register itself. Beyond offset 255 the space DEV has no address and the byte is
lost (log entry 12). -/
def Device.writeByte (c : Config) (d : Device) (o : Nat) (y : Byte) : Device :=
  if o = c.regPageSelect.toNat then { d with page := y }
  else if o = c.regBookSelect.toNat ∧ d.page = zeroPage then { d with book := y }
  else if o < 256 then
    { d with mem := Memory.write d.mem (devAddr d.book d.page (BitVec.ofNat 8 o)) y }
  else d

/-- The byte writes of one transport write, in order, at rising offsets (R63, R66). -/
def Device.writeBytes (c : Config) : Device → Nat → List Byte → Device
  | d, _, [] => d
  | d, o, y :: ys => Device.writeBytes c (Device.writeByte c d o y) (o + 1) ys

/-! ## Transport calls (R61) -/

/-- The environment's next draw: the oldest in store, or the free value of this call's number. -/
def Bus.nextDraw (b : Bus) : Draw :=
  match b.draws with
  | [] => .returns (Config.freeAnswer b.drawNo)
  | d :: _ => d

/-- One call has been made: its draw is used up. -/
def Bus.advance (b : Bus) : Bus := { b with draws := b.draws.tail, drawNo := b.drawNo + 1 }

/-- Appending one entry to `hist` (R33). -/
def Bus.log (b : Bus) (e : Entry) : Bus := { b with hist := b.hist ++ [e] }

/-- `Warn(record)` (R284). -/
def Bus.warn (b : Bus) (w : Warning) : Bus := b.log (.warn w)

/-- Every draw in store returns, and no call is hanging: the transport's duty of R322. -/
def Bus.returns (b : Bus) : Bool :=
  !b.stuck && b.draws.all fun d => decide (d ≠ .hangs)

/-- `TWrite(offset, bytes)` (R61). A successful write reaches the reference device whole, a failing one
up to the drawn prefix (R63). A call that never returns leaves the bus stuck; the result value then is
never seen, since `conclude` discards the state (R321, log entry 5). -/
def tWrite (c : Config) (offset : Byte) (bytes : List Byte) (b : Bus) : WriteResult × Bus :=
  if b.stuck then (.err 0, b)
  else
    match b.nextDraw with
    | .hangs => (.err 0, { b with stuck := true })
    | .returns (.ok _) =>
      (.ok, { b.advance.log (.w offset bytes .ok) with
        dev := Device.writeBytes c b.dev offset.toNat bytes })
    | .returns (.err code landed) =>
      (.err code.toByte, { b.advance.log (.w offset bytes (.err code.toByte)) with
        dev := Device.writeBytes c b.dev offset.toNat (bytes.take landed) })

/-- The bytes of a successful read: exactly `count` of them, the drawn ones first and then free ones
(R61, R322). -/
def readBytes (call count : Nat) (drawn : List Byte) : List Byte :=
  (List.range count).map fun j => drawn[j]?.getD (Config.freeByte call j)

/-- `TRead(offset, count)` (R61). It never changes the reference device (R63). -/
def tRead (offset : Byte) (count : Nat) (b : Bus) : ReadResult × Bus :=
  if b.stuck then (.err 0, b)
  else
    match b.nextDraw with
    | .hangs => (.err 0, { b with stuck := true })
    | .returns (.ok drawn) =>
      let bytes := readBytes b.drawNo count drawn
      (.ok bytes, b.advance.log (.r offset count (.ok bytes)))
    | .returns (.err code _) =>
      (.err code.toByte, b.advance.log (.r offset count (.err code.toByte)))

/-! ## The sequencer -/

/-- Going on only after success: the abort policy of every run of writes (R192, R260). -/
def andThen (p : Result × Bus) (k : Bus → Result × Bus) : Result × Bus :=
  if p.1.status = .ok then k p.2 else p

/-- One transport write; a failure is logged with the failing register and returned (R272). -/
def writeOrWarn (c : Config) (offset : Byte) (bytes : List Byte) (b : Bus) : Result × Bus :=
  match tWrite c offset bytes b with
  | (.ok, b') => (.ok, b')
  | (.err code, b') => (.transportError code, b'.warn (.transportError .write offset code))

/-- Writes in order, stopping at the first failure. -/
def writeAll (c : Config) : List (Byte × List Byte) → Bus → Result × Bus
  | [], b => (.ok, b)
  | (offset, bytes) :: rest, b => andThen (writeOrWarn c offset bytes b) (writeAll c rest)

/-- The preamble of R190: three writes, the ones after a failing one not issued. -/
def selectContext (c : Config) (book page : Byte) (b : Bus) : Result × Bus :=
  writeAll c (preambleWrites c book page) b

/-- The loop of APPLY (R191): a preamble where the descriptor's (book, page) differs from the context
the transaction last set, then one write of the payload; the first failure ends it (R192). -/
def applyLoop (c : Config) : Option (Byte × Byte) → List Descriptor → Bus → Result × Bus
  | _, [], b => (.ok, b)
  | ctx, d :: rest, b =>
    andThen
      (andThen (if ctx = some (d.book, d.page) then (.ok, b) else selectContext c d.book d.page b)
        (writeOrWarn c d.offset d.payload))
      (applyLoop c (some (d.book, d.page)) rest)

/-- The restore of R193, attempted whatever became of the writes; the first failure is the one
returned. -/
def restoreContext (c : Config) (p : Result × Bus) : Result × Bus :=
  let q := selectContext c c.ctrlBook zeroPage p.2
  (if p.1.status = .ok then q.1 else p.1, q.2)

/-- `APPLY(ds)` of R191: validation before any I/O (R194), nothing for an empty list, otherwise one
transaction and its restore. -/
def transaction (c : Config) (ds : List Descriptor) (b : Bus) : Result × Bus :=
  if ds.all (Descriptor.wellFormed c) then
    if ds.isEmpty then (.ok, b) else restoreContext c (applyLoop c none ds b)
  else (.validationError, b)

/-- One transaction for a setting; when it fails, the caller's warning record follows the sequencer's
(R218, R219, R284). -/
def settingWrite (c : Config) (record : Result → Warning) (ds : List Descriptor) (b : Bus) :
    Result × Bus :=
  let p := transaction c ds b
  (p.1, if p.1.status = .ok then p.2 else p.2.warn (record p.1))

/-! ## Delivery -/

/-- Delivering a result to the caller (R278): the response register takes it, nothing else changes. -/
def State.deliver (s : State) (r : Result) : State := { s with resp := some r }

/-- The end of an operation that makes no transport call. -/
def answer (s : State) (r : Result) : Host.Outcome State Fault Refusal := .next (s.deliver r)

/-- The end of an operation that calls the transport, from `before` to `after`: the next state, unless
a call never returned, which leaves no next step (R321). The first test is redundant with the second
(Laws/Transport.lean, `conclude_eq`); it lets an outcome be read off without evaluating free values. -/
def conclude (before after : State) : Host.Outcome State Fault Refusal :=
  if before.bus.returns then .next after
  else if after.bus.stuck then .fault .transportNeverReturned
  else .next after

/-- The gate of the failed latch (R261): a gated operation of a failed device returns `DeviceFailed`
and does nothing else. -/
def gated (s : State) (run : Host.Outcome State Fault Refusal) :
    Host.Outcome State Fault Refusal :=
  if s.failed then answer s .deviceFailed else run

/-- The reset event (R300): every element of the tuple of R20 takes its reset value. The configuration,
the chip and the rest of the environment stay as they are; no command has returned since, so there is
no response (log entries 7 and 14). -/
def State.resetEvent (s : State) : State :=
  { s with
    gain := s.cfg.gainReset
    mixerMode := s.cfg.mixerModeReset
    phase := .idle
    snap := .reset
    chg := .reset
    failed := false
    bus := { s.bus with hist := [] }
    resp := none }

end Sys2Proof.Machine
end

