-- ==== Sys2Proof/Machine/Biquad.lean ====
section
/-! DEFINITION. The Biquad Designer: DESIGN.LP and DESIGN.HP (41_biquad.md). Stateless, not gated by
`failed` (R31, R261). -/

namespace Sys2Proof.Machine

/-- The result of a design (R162, R163, R165, R169). -/
def designResult (c : Config) (kind : FilterKind) (sampleRate cutoffFreq : Word) : Result :=
  match designInputs sampleRate cutoffFreq with
  | none => .designPrecondition
  | some (fs, fc) =>
    .okWith (.coefficients
      (packCoefficients (coefficientBytes (designWords c (designNumerics c kind fs fc)))))

/-- `DESIGN.LP sample_rate, cutoff_freq` (R162). -/
def execDesignLp (sampleRate cutoffFreq : Word) (s : State) : Host.Outcome State Fault Refusal :=
  answer s (designResult s.cfg .lowpass sampleRate cutoffFreq)

/-- `DESIGN.HP sample_rate, cutoff_freq` (R163). -/
def execDesignHp (sampleRate cutoffFreq : Word) (s : State) : Host.Outcome State Fault Refusal :=
  answer s (designResult s.cfg .highpass sampleRate cutoffFreq)

end Sys2Proof.Machine
end

