-- ==== Sys2Proof/Machine/Codec.lean ====
section
/-! DEFINITION. The Fixed-point Codec: ENCODE and DECODE (40_codec.md). They always return `OK`, read
and write no element of the state, and are not gated by `failed` (R139, R261). -/

namespace Sys2Proof.Machine

/-- `ENCODE.9_23 value` (R135). -/
def execEncode923 (value : Word) (s : State) : Host.Outcome State Fault Refusal :=
  answer s (.okWith (.word (encCore s.cfg.nanWord fmt923 (f32Value value))))

/-- `ENCODE.5_27 value` (R136). -/
def execEncode527 (value : Word) (s : State) : Host.Outcome State Fault Refusal :=
  answer s (.okWith (.word (encCore s.cfg.nanWord fmt527 (f32Value value))))

/-- `DECODE.9_23 word` (R137): the data is the word itself; its value is `decCore 23 word`. -/
def execDecode923 (word : Word) (s : State) : Host.Outcome State Fault Refusal :=
  answer s (.okWith (.word word))

/-- `DECODE.5_27 word` (R138): the data is the word itself; its value is `decCore 27 word`. -/
def execDecode527 (word : Word) (s : State) : Host.Outcome State Fault Refusal :=
  answer s (.okWith (.word word))

end Sys2Proof.Machine
end

