-- ==== Sys2Proof/Machine/Faults.lean ====
section
/-! DEFINITION. The Fault Tracker: POLL, READ_FAULTS and CLEAR_FAULTS (45_faults.md). -/

namespace Sys2Proof.Machine

/-- The state after the fault read of POLL has returned (R240): the new snapshot and flags after a
success (R241 to R243), a warning, the kept snapshot and no changed flag after a failure (R249). -/
def pollReturn (s : State) : ReadResult × Bus → State
  | (.err code, b) =>
    { s with
      chg := noChange
      bus := b.warn (.transportError .read s.cfg.regFaultBase code) }.deliver (.transportError code)
  | (.ok bytes, b) =>
    let new := snapshotOf s.cfg.clockFaultMask
      (bytes.getD 0 0) (bytes.getD 1 0) (bytes.getD 2 0) (bytes.getD 3 0)
    let t : State := { s with snap := new, chg := changedFlags s.snap new, bus := b }
    t.deliver (.okWith (.faults t.packedFaults))

/-- `POLL` (R240): one read of the four fault registers, in the standing context, no preamble. -/
def execPoll (s : State) : Host.Outcome State Fault Refusal :=
  gated s (conclude s (pollReturn s (tRead s.cfg.regFaultBase 4 s.bus)))

/-- `READ_FAULTS` (R246): the stored snapshot and flags, nothing else. -/
def execReadFaults (s : State) : Host.Outcome State Fault Refusal :=
  gated s (answer s (.okWith (.faults s.packedFaults)))

/-- `CLEAR_FAULTS` (R247): one write, in the standing context, no preamble; the snapshot stays. -/
def execClearFaults (s : State) : Host.Outcome State Fault Refusal :=
  gated s
    (let p := writeOrWarn s.cfg s.cfg.regFaultClear [s.cfg.faultClearValue] s.bus
     conclude s ({ s with bus := p.2 }.deliver p.1))

end Sys2Proof.Machine
end

