-- ==== Sys2Proof/Machine/Lookup.lean ====
section
/-! DEFINITION. The Gain/Register Lookup Table: LOOKUP (42_lookup.md). Stateless, not gated by
`failed` (R182). -/

namespace Sys2Proof.Machine

/-- `LOOKUP band, gain_db` (R182): the cell in serial form (R108), or `ValidationError`. -/
def execLookup (band gainDb : Byte) (s : State) : Host.Outcome State Fault Refusal :=
  answer s
    (if bandGainValid s.cfg band gainDb then
      .okWith (.descriptors (serialise (lutCell s.cfg band.toNat (rowOf s.cfg gainDb))))
    else .validationError)

end Sys2Proof.Machine
end

