-- ==== Sys2Proof/Machine/Refresh.lean ====
section
/-! DEFINITION. The Settings Refresh State Machine: TRIGGER, TICK, SET_GAIN and SET_MIXER_MODE
(44_refresh.md). -/

namespace Sys2Proof.Machine

/-- `TRIGGER` (R210): from `Idle` and `Complete` to `Triggered`, otherwise no change. -/
def triggerPhase : Phase → Phase
  | .idle => .triggered
  | .triggered => .triggered
  | .settling c => .settling c
  | .mixerPending => .mixerPending
  | .bandPending i => .bandPending i
  | .complete => .triggered

/-- `TRIGGER` (R210). -/
def execTrigger (s : State) : Host.Outcome State Fault Refusal :=
  gated s (answer { s with phase := triggerPhase s.phase } .ok)

/-- The phase after a TICK, whatever its transaction did (the table of 44_refresh.md section 1, R212 to
R217; R218). -/
def tickPhase (c : Config) : Phase → Phase
  | .idle => .idle
  | .triggered => if 1 ≥ c.settleThreshold then .mixerPending else .settling 1
  | .settling k => if k + 1 ≥ c.settleThreshold then .mixerPending else .settling (k + 1)
  | .mixerPending => if c.bandCount = 0 then .complete else .bandPending 0
  | .bandPending i => if i + 1 = c.bandCount then .complete else .bandPending (i + 1)
  | .complete => .complete

/-- The gain the register file holds for a band (R21). Outside the file, where no phase in range falls,
it is 0 (log entry 15). -/
def State.gainAt (s : State) (i : Nat) : Byte := s.gain[i]?.getD 0

/-- The transaction a TICK performs, if any: the mixer in `MixerPending` (R215), one band in
`BandPending(i)` with the gain the file holds at this tick (R216). -/
def tickTransaction (s : State) : Option (Target × List Descriptor) :=
  match s.phase with
  | .idle => none
  | .triggered => none
  | .settling _ => none
  | .mixerPending => some (.mixer, mixerDescriptors s.cfg s.mixerMode.toNat)
  | .bandPending i => some (.band i, lutCell s.cfg i (rowOf s.cfg (s.gainAt i)))
  | .complete => none

/-- `TICK` (R211): one row of the phase table. A failed transaction is logged and absorbed; the phase
advances and the result is `OK` all the same (R218). -/
def execTick (s : State) : Host.Outcome State Fault Refusal :=
  gated s
    (match tickTransaction s with
     | none => answer { s with phase := tickPhase s.cfg s.phase } .ok
     | some (target, ds) =>
       let p := settingWrite s.cfg (.refreshWriteFailed target) ds s.bus
       conclude s ({ s with bus := p.2, phase := tickPhase s.cfg s.phase }.deliver .ok))

/-- The end of a setter that has stored its value (R219, R220): in `Complete` one transaction at once,
whose result is returned; in every other phase nothing more. `before` is the state the operation
started from. -/
def settleNow (before s : State) (target : Target) (ds : List Descriptor) :
    Host.Outcome State Fault Refusal :=
  if s.phase = .complete then
    let p := settingWrite s.cfg (.immediateWriteFailed target) ds s.bus
    conclude before ({ s with bus := p.2 }.deliver p.1)
  else answer s .ok

/-- `SET_GAIN band, gain_db` (R219). -/
def execSetGain (band gainDb : Byte) (s : State) : Host.Outcome State Fault Refusal :=
  gated s
    (if bandGainValid s.cfg band gainDb then
      settleNow s { s with gain := s.gain.set band.toNat gainDb } (.band band.toNat)
        (lutCell s.cfg band.toNat (rowOf s.cfg gainDb))
    else answer s .validationError)

/-- `SET_MIXER_MODE mode` (R220). -/
def execSetMixerMode (mode : Byte) (s : State) : Host.Outcome State Fault Refusal :=
  gated s
    (if mode.toNat < s.cfg.mixerModeCount then
      settleNow s { s with mixerMode := mode } .mixer (mixerDescriptors s.cfg mode.toNat)
    else answer s .validationError)

end Sys2Proof.Machine
end

