-- ==== Sys2Proof/Machine/Sequencer.lean ====
section
/-! DEFINITION. The Register Sequencer: SET_BOOK_AND_PAGE and APPLY (43_sequencer.md). -/

namespace Sys2Proof.Machine

/-- `SET_BOOK_AND_PAGE book, page` (R190). -/
def execSetBookAndPage (book page : Byte) (s : State) : Host.Outcome State Fault Refusal :=
  gated s
    (let p := selectContext s.cfg book page s.bus
     conclude s ({ s with bus := p.2 }.deliver p.1))

/-- `APPLY count` on the descriptor list in `DBUF` (R191): the count must be the list's length and every
descriptor well-formed, before any I/O (R194). -/
def execApply (count : Byte) (s : State) : Host.Outcome State Fault Refusal :=
  gated s
    (if s.dbuf.length = count.toNat then
      let p := transaction s.cfg s.dbuf s.bus
      conclude s ({ s with bus := p.2 }.deliver p.1)
    else answer s .validationError)

end Sys2Proof.Machine
end

