-- ==== Sys2Proof/Machine/System.lean ====
section
/-! DEFINITION. SETUP, the power-up register load (46_system.md). -/

namespace Sys2Proof.Machine

/-- `SETUP` (R260): the writes of `INIT_SEQ` in order, up to the first failure, which is fatal: it sets
`failed`. The list runs as written, wherever it leaves the chip's context (log entry 23) and wherever its
writes end in a page (log entry 24). -/
def execSetup (s : State) : Host.Outcome State Fault Refusal :=
  gated s
    (let p := writeAll s.cfg s.cfg.initSeq s.bus
     conclude s ({ s with bus := p.2, failed := decide (p.1.status ≠ Status.ok) }.deliver p.1))

end Sys2Proof.Machine
end

