-- ==== Sys2Proof/Machine/Dispatch.lean ====
section
/-! DEFINITION. One arm per operation: its meaning (R262 step 5; the steps before it stand in the
decoder and in the meanings themselves). -/

namespace Sys2Proof.Machine

def exec (i : Instr) (s : State) : Host.Outcome State Fault Refusal :=
  match i with
  | .encode923 value => Sys2Proof.Machine.execEncode923 value s
  | .encode527 value => Sys2Proof.Machine.execEncode527 value s
  | .decode923 word => Sys2Proof.Machine.execDecode923 word s
  | .decode527 word => Sys2Proof.Machine.execDecode527 word s
  | .designLp sampleRate cutoffFreq => Sys2Proof.Machine.execDesignLp sampleRate cutoffFreq s
  | .designHp sampleRate cutoffFreq => Sys2Proof.Machine.execDesignHp sampleRate cutoffFreq s
  | .lookup band gainDb => Sys2Proof.Machine.execLookup band gainDb s
  | .setBookAndPage book page => Sys2Proof.Machine.execSetBookAndPage book page s
  | .apply count => Sys2Proof.Machine.execApply count s
  | .trigger => Sys2Proof.Machine.execTrigger s
  | .tick => Sys2Proof.Machine.execTick s
  | .setGain band gainDb => Sys2Proof.Machine.execSetGain band gainDb s
  | .setMixerMode mode => Sys2Proof.Machine.execSetMixerMode mode s
  | .poll => Sys2Proof.Machine.execPoll s
  | .readFaults => Sys2Proof.Machine.execReadFaults s
  | .clearFaults => Sys2Proof.Machine.execClearFaults s
  | .setup => Sys2Proof.Machine.execSetup s

end Sys2Proof.Machine
end

