-- ==== Sys2Proof/Decode.lean ====
section
/-! DEFINITION. The decoder and the encoder of the command word: opcode in bits 71 to 64, operand
field in bits 63 to 0 (R103), laid out by the operation's format (R104). The decoder is total on the
2^72 words and rejects by name. -/

namespace Sys2Proof

/-- Why a command word is no operation; both are `IllegalCommand` (R275). -/
inductive DecodeError where
  /-- The opcode is not in the opcode map (R106). -/
  | reservedOpcode (opcode : Byte)
  /-- A bit of the operand field outside the format's fields is not zero (R107). -/
  | reservedBits (opcode : Byte)
  deriving DecidableEq, Repr

/-- The eight operand formats of R104. -/
inductive OperandFormat where
  | Z | V | W | D | L | P | A | M
  deriving DecidableEq, Repr

/-- The opcode field, `cmd[71:64]` (R103). -/
def opcodeOf (cmd : CommandWord) : Byte := cmd.extractLsb' 64 8

/-- The operand field, `cmd[63:0]` (R103). -/
def operandOf (cmd : CommandWord) : BitVec 64 := cmd.extractLsb' 0 64

/-- How many low bits of the operand field a format uses (R104); the rest must be zero. -/
def OperandFormat.usedBits : OperandFormat → Nat
  | .Z => 0
  | .V => 32
  | .W => 32
  | .D => 64
  | .L => 16
  | .P => 16
  | .A => 8
  | .M => 8

/-- The operand field has no bit set outside the format's fields (R107). -/
def OperandFormat.accepts (f : OperandFormat) (operand : BitVec 64) : Bool :=
  operand >>> f.usedBits == 0

/-- The low 8 bits of the operand field: `gain_db`, `page`, `count` or `mode` (R104). -/
def lowByte (operand : BitVec 64) : Byte := operand.extractLsb' 0 8

/-- Bits 15 to 8 of the operand field: `band` or `book` (R104). -/
def highByte (operand : BitVec 64) : Byte := operand.extractLsb' 8 8

/-- Bits 31 to 0 of the operand field: `value`, `word` or `cutoff_freq` (R104). -/
def lowWord (operand : BitVec 64) : Word := operand.extractLsb' 0 32

/-- Bits 63 to 32 of the operand field: `sample_rate` (R104). -/
def highWord (operand : BitVec 64) : Word := operand.extractLsb' 32 32

/-- An operation's format and how its operands are read from the operand field, by opcode: the opcode
map of R105. `none` is a reserved opcode (R106). -/
def opcodeMap (opcode : Byte) : Option (OperandFormat × (BitVec 64 → Instr)) :=
  match opcode.toNat with
  | 0x01 => some (.V, fun o => .encode923 (lowWord o))
  | 0x02 => some (.V, fun o => .encode527 (lowWord o))
  | 0x03 => some (.W, fun o => .decode923 (lowWord o))
  | 0x04 => some (.W, fun o => .decode527 (lowWord o))
  | 0x08 => some (.D, fun o => .designLp (highWord o) (lowWord o))
  | 0x09 => some (.D, fun o => .designHp (highWord o) (lowWord o))
  | 0x10 => some (.L, fun o => .lookup (highByte o) (lowByte o))
  | 0x18 => some (.P, fun o => .setBookAndPage (highByte o) (lowByte o))
  | 0x19 => some (.A, fun o => .apply (lowByte o))
  | 0x20 => some (.Z, fun _ => .trigger)
  | 0x21 => some (.Z, fun _ => .tick)
  | 0x22 => some (.L, fun o => .setGain (highByte o) (lowByte o))
  | 0x23 => some (.M, fun o => .setMixerMode (lowByte o))
  | 0x28 => some (.Z, fun _ => .poll)
  | 0x29 => some (.Z, fun _ => .readFaults)
  | 0x2A => some (.Z, fun _ => .clearFaults)
  | 0x30 => some (.Z, fun _ => .setup)
  | _ => none

/-- The decoder: first the opcode, then the reserved operand bits (R262 steps 1 and 2). -/
def decode (cmd : CommandWord) : Except DecodeError Instr :=
  match opcodeMap (opcodeOf cmd) with
  | none => .error (.reservedOpcode (opcodeOf cmd))
  | some (format, build) =>
    if format.accepts (operandOf cmd) then .ok (build (operandOf cmd))
    else .error (.reservedBits (opcodeOf cmd))

/-- An operation's opcode (R105). -/
def opcode : Instr → Byte
  | .encode923 _ => 0x01
  | .encode527 _ => 0x02
  | .decode923 _ => 0x03
  | .decode527 _ => 0x04
  | .designLp _ _ => 0x08
  | .designHp _ _ => 0x09
  | .lookup _ _ => 0x10
  | .setBookAndPage _ _ => 0x18
  | .apply _ => 0x19
  | .trigger => 0x20
  | .tick => 0x21
  | .setGain _ _ => 0x22
  | .setMixerMode _ => 0x23
  | .poll => 0x28
  | .readFaults => 0x29
  | .clearFaults => 0x2A
  | .setup => 0x30

/-- An operation's operand field, the unused bits zero (R104). -/
def operands : Instr → BitVec 64
  | .encode923 value => 0#32 ++ value
  | .encode527 value => 0#32 ++ value
  | .decode923 word => 0#32 ++ word
  | .decode527 word => 0#32 ++ word
  | .designLp fs fc => fs ++ fc
  | .designHp fs fc => fs ++ fc
  | .lookup band gain => 0#48 ++ band ++ gain
  | .setBookAndPage book page => 0#48 ++ book ++ page
  | .apply count => 0#56 ++ count
  | .trigger => 0
  | .tick => 0
  | .setGain band gain => 0#48 ++ band ++ gain
  | .setMixerMode mode => 0#56 ++ mode
  | .poll => 0
  | .readFaults => 0
  | .clearFaults => 0
  | .setup => 0

/-- The encoder: the command word of an operation (R103). -/
def encode (i : Instr) : CommandWord := opcode i ++ operands i

/-- The operation the decoder reads from a row of the opcode table whose bits are `w`. A command is one
72-bit word, so its bits are numbered as the table numbers them; bits at and above `nbits` are zero. -/
def decodeTableWord (nbits w : Nat) : Option Instr :=
  if 72 < nbits then none
  else
    match decode (BitVec.ofNat 72 (w % 2 ^ nbits)) with
    | .ok i => some i
    | .error _ => none

end Sys2Proof
end

