-- ==== Sys2Proof/Machine/Port.lean ====
section
/-! DEFINITION. What a step does around an operation: taking a command from the port with its `DBUF`
operand (R96, R103) and returning `IllegalCommand` (R106, R107). -/

namespace Sys2Proof.Machine

/-- A command is taken from the port: the rest of the port stays, and `DBUF` holds the list its serial
form stands for. -/
def State.takeCommand (s : State) (dbuf : List Byte) (rest : List PortEvent) : State :=
  { s with port := rest, dbuf := parseDescriptors dbuf }

/-- An illegal command: nothing is recorded, nothing changes, no transport call (R275). -/
def rejectCommand (s : State) : Host.Outcome State Fault Refusal := answer s .illegalCommand

/-- The command word of an opcode-table row whose bits are `w`, with the state's own `DBUF`. -/
def tableCommand (s : State) (nbits w : Nat) : PortEvent :=
  .command (BitVec.ofNat 72 (w % 2 ^ nbits)) (serialise s.dbuf)

end Sys2Proof.Machine
end

