-- ==== Sys2Proof/Machine/Step.lean ====
section
/-! DEFINITION. One step of the machine: the oldest event of the command port, handled to completion
(R72, R276, R300, R321). -/

namespace Sys2Proof.Machine

/-- One step. With nothing on the port the block waits (R301; log entry 1). A command is decoded (R262
steps 1 and 2) and executed. The reset event comes between two operations (R300). An excluded
interleaving is refused (R307). A block stuck in a transport call accepts nothing more (R321). -/
def step (s : State) : Host.Outcome State Fault Refusal :=
  if s.bus.stuck then .fault .transportNeverReturned
  else
    match s.port with
    | [] => .next s
    | .command cmd dbuf :: rest =>
      match decode cmd with
      | .ok i => exec i (s.takeCommand dbuf rest)
      | .error _ => rejectCommand (s.takeCommand dbuf rest)
    | .reset :: rest => .next ({ s with port := rest } : State).resetEvent
    | .intrusion kind :: _ => .refused (.excludedInterleaving kind)

/-- The state whose very next step runs the instruction of a row of the opcode table: its command word
stands first on the port (log entry 2). -/
def State.withFetchWord (s : State) (nbits w : Nat) : State :=
  { s with port := tableCommand s nbits w :: s.port }

end Sys2Proof.Machine
end

