-- ==== Sys2Proof/Machine/Ideal.lean ====
section
/-! DEFINITION. The ideal design of R161 and R164 over the reals, and the one property assumed of the
designer's numerics, `design_close` of R166. No operation evaluates anything of this file; it is what
claims about DESIGN are stated over (log entry 21). -/

namespace Sys2Proof.Machine

/-- `w0 = 2*pi*fc/fs` (R161). -/
noncomputable def idealW0 (fs fc : ℚ) : ℝ := 2 * Real.pi * (fc : ℝ) / (fs : ℝ)

/-- `alpha = sin(w0)/(2*Q)` with `Q = 1/sqrt(2)` (R161). -/
noncomputable def idealAlpha (fs fc : ℚ) : ℝ :=
  Real.sin (idealW0 fs fc) / (2 * (1 / Real.sqrt 2))

/-- `a0 = 1 + alpha` (R161). -/
noncomputable def idealA0 (fs fc : ℚ) : ℝ := 1 + idealAlpha fs fc

/-- `a1 = -2*cosw0` (R161). -/
noncomputable def idealA1 (fs fc : ℚ) : ℝ := -2 * Real.cos (idealW0 fs fc)

/-- `a2 = 1 - alpha` (R161). -/
noncomputable def idealA2 (fs fc : ℚ) : ℝ := 1 - idealAlpha fs fc

/-- `b0 = b2` of R162 (low-pass) and R163 (high-pass). -/
noncomputable def idealB0 (kind : FilterKind) (fs fc : ℚ) : ℝ :=
  match kind with
  | .lowpass => (1 - Real.cos (idealW0 fs fc)) / 2
  | .highpass => (1 + Real.cos (idealW0 fs fc)) / 2

/-- `b1` of R162 (low-pass) and R163 (high-pass). -/
noncomputable def idealB1 (kind : FilterKind) (fs fc : ℚ) : ℝ :=
  match kind with
  | .lowpass => 1 - Real.cos (idealW0 fs fc)
  | .highpass => -(1 + Real.cos (idealW0 fs fc))

/-- The five ideal values handed to the codec (R164): normalised by a0, with a1 and a2 negated. -/
noncomputable def idealValue (kind : FilterKind) (fs fc : ℚ) (k : Fin 5) : ℝ :=
  match k with
  | 0 => idealB0 kind fs fc / idealA0 fs fc
  | 1 => idealB1 kind fs fc / idealA0 fs fc
  | 2 => idealB0 kind fs fc / idealA0 fs fc
  | 3 => -(idealA1 fs fc / idealA0 fs fc)
  | 4 => -(idealA2 fs fc / idealA0 fs fc)

/-- The k-th of the five computed values. -/
def DesignValues.at (v : DesignValues) (k : Fin 5) : ExtRat :=
  match k with
  | 0 => v.u0
  | 1 => v.u1
  | 2 => v.u2
  | 3 => v.u3
  | 4 => v.u4

/-- `design_close` of R166 at one point: the k-th computed value is finite and within `DESIGN_EPS` of the
ideal one. -/
def DesignCloseAt (c : Config) (kind : FilterKind) (fs fc : ℚ) (k : Fin 5) : Prop :=
  ∃ u : ℚ, DesignValues.at (designNumerics c kind fs fc) k = .fin u ∧
    |(u : ℝ) - idealValue kind fs fc k| ≤ (c.designEps : ℝ)

/-- `design_close` of R166: it holds at every point that meets the precondition. -/
def DesignClose (c : Config) : Prop :=
  ∀ (kind : FilterKind) (fs fc : ℚ), 0 < fc → fc < fs / 2 → ∀ k : Fin 5,
    DesignCloseAt c kind fs fc k

end Sys2Proof.Machine
end

