-- ==== Sys2Proof/Machine/Text.lean ====
section
/-! DEFINITION. The textual form of the operations (R110), the pseudo-operations and aliases (R111),
and the rounding of decimal literals to binary32 (R94, R313). A text is a list of lines, a line a list
of characters. None of this is run by a step: it says which command words a text stands for. -/

namespace Sys2Proof.Machine

/-! ## Decimal literals (R94: rounded to the nearest binary32, ties to even) -/

/-- To the nearest integer, ties to even, for a value that is not negative. -/
def roundHalfEven (s : ℚ) : Nat :=
  let f := ⌊s⌋.toNat
  let r := s - (f : ℚ)
  if r < 1 / 2 then f else if 1 / 2 < r then f + 1 else if f % 2 = 0 then f else f + 1

/-- `2^k` for an integer k. -/
def pow2 (k : ℤ) : ℚ :=
  if 0 ≤ k then ((2 ^ k.toNat : ℕ) : ℚ) else 1 / ((2 ^ (-k).toNat : ℕ) : ℚ)

/-- The largest k with `2^k <= q`, for positive q. -/
def floorLog2 (q : ℚ) : ℤ :=
  let guess := (Nat.log2 q.num.toNat : ℤ) - (Nat.log2 q.den : ℤ)
  if pow2 guess ≤ q then guess else guess - 1

/-- The binary32 pattern nearest to the magnitude `q`, ties to even, with the given sign; at and beyond
the midpoint above the largest finite value it is the infinity (log entry 19). -/
def nearestF32 (negative : Bool) (q : ℚ) : Word :=
  let magnitude : Nat :=
    if q ≤ 0 then 0
    else
      let u := max (floorLog2 q - 23) (-149)
      min ((u + 149).toNat * 2 ^ 23 + roundHalfEven (q / pow2 u)) (255 * 2 ^ 23)
  BitVec.ofNat 32 (magnitude + if negative then 2 ^ 31 else 0)

/-! ## Numbers -/

/-- The value of a decimal digit. -/
def digitOf (c : Char) : Option Nat :=
  if 48 ≤ c.toNat ∧ c.toNat ≤ 57 then some (c.toNat - 48) else none

/-- The value of a hexadecimal digit, either case. -/
def hexDigitOf (c : Char) : Option Nat :=
  if 97 ≤ c.toNat ∧ c.toNat ≤ 102 then some (c.toNat - 87)
  else if 65 ≤ c.toNat ∧ c.toNat ≤ 70 then some (c.toNat - 55)
  else digitOf c

/-- A run of digits in a base, most significant first; `none` for no digits or a stray character. -/
def natOfDigits (base : Nat) (digit : Char → Option Nat) (cs : List Char) : Option Nat :=
  if cs.isEmpty then none
  else cs.foldl (fun acc c => acc.bind fun n => (digit c).map fun d => n * base + d) (some 0)

/-- An unsigned integer: decimal, or `0x` and hexadecimal digits as in the spec's own examples. -/
def natOfText : List Char → Option Nat
  | '0' :: 'x' :: cs => natOfDigits 16 hexDigitOf cs
  | cs => natOfDigits 10 digitOf cs

/-- An optional sign, taken off: whether it is a minus, and the rest. -/
def takeSign : List Char → Bool × List Char
  | '-' :: cs => (true, cs)
  | '+' :: cs => (false, cs)
  | cs => (false, cs)

/-- An integer, optionally signed (R110). -/
def intOfText (cs : List Char) : Option ℤ :=
  let (negative, rest) := takeSign cs
  (natOfText rest).map fun n => if negative then -(n : ℤ) else (n : ℤ)

/-- An unsigned 8-bit operand. -/
def byteOfText (cs : List Char) : Option Byte :=
  (intOfText cs).bind fun z => if 0 ≤ z ∧ z ≤ 255 then some (BitVec.ofInt 8 z) else none

/-- A gain: an 8-bit two's-complement operand (R99). -/
def gainOfText (cs : List Char) : Option Byte :=
  (intOfText cs).bind fun z => if -128 ≤ z ∧ z ≤ 127 then some (BitVec.ofInt 8 z) else none

/-- A word: `0x` followed by 8 hex digits (R110). -/
def wordOfText : List Char → Option Word
  | '0' :: 'x' :: cs =>
    if cs.length = 8 then (natOfDigits 16 hexDigitOf cs).map (BitVec.ofNat 32) else none
  | _ => none

/-- The power of ten a decimal exponent stands for. -/
def pow10 (k : ℤ) : ℚ :=
  if 0 ≤ k then ((10 ^ k.toNat : ℕ) : ℚ) else 1 / ((10 ^ (-k).toNat : ℕ) : ℚ)

/-- An unsigned decimal literal: digits, optionally a point and digits, optionally `e` and a signed
exponent (log entry 18). -/
def decimalOfText (cs : List Char) : Option ℚ :=
  let mantissa := cs.takeWhile fun c => c != 'e' && c != 'E'
  let tail := cs.dropWhile fun c => c != 'e' && c != 'E'
  let whole := mantissa.takeWhile fun c => c != '.'
  let fraction := (mantissa.dropWhile fun c => c != '.').drop 1
  let exponent : Option ℤ := if tail.isEmpty then some 0 else intOfText (tail.drop 1)
  (natOfDigits 10 digitOf (whole ++ fraction)).bind fun n =>
    exponent.map fun k => (n : ℚ) * pow10 (k - (fraction.length : ℤ))

/-- A float operand: a decimal literal, rounded to binary32, or `f32:0x........` (R110). -/
def floatOfText : List Char → Option Word
  | 'f' :: '3' :: '2' :: ':' :: cs => wordOfText cs
  | cs =>
    let (negative, rest) := takeSign cs
    (decimalOfText rest).map (nearestF32 negative)

/-! ## Pseudo-operations and aliases (R111) -/

/-- The source's `format` selector, `9.23` or `5.27` (R104, R111). -/
inductive FormatName where
  | f923
  | f527
  deriving DecidableEq, Repr

/-- The pseudo-operations and aliases of R111. -/
inductive Pseudo where
  | encode (value : Word) (format : FormatName)
  | encodeBiquad (sampleRate cutoff : Word) (kind : FilterKind)
  | triggerRefresh
  | setEqBandGain (band gain : Byte)
  | pollFaults
  | readFaultSnapshot
  | tickTimes (k : Nat)
  deriving DecidableEq, Repr

/-- The expansion of a pseudo-operation (R111, R168). -/
def Pseudo.expand : Pseudo → List Instr
  | .encode value .f923 => [.encode923 value]
  | .encode value .f527 => [.encode527 value]
  | .encodeBiquad fs fc .lowpass => [.designLp fs fc]
  | .encodeBiquad fs fc .highpass => [.designHp fs fc]
  | .triggerRefresh => [.trigger]
  | .setEqBandGain band gain => [.setGain band gain]
  | .pollFaults => [.poll]
  | .readFaultSnapshot => [.readFaults]
  | .tickTimes k => List.replicate k .tick

/-! ## Lines -/

/-- Splitting at every occurrence of a character. -/
def splitAt (sep : Char) : List Char → List (List Char)
  | [] => [[]]
  | c :: cs =>
    match splitAt sep cs with
    | [] => [[]]
    | piece :: rest => if c = sep then [] :: piece :: rest else (c :: piece) :: rest

/-- Taking the blanks off both ends. -/
def trim (cs : List Char) : List Char :=
  ((cs.dropWhile fun c => c == ' ').reverse.dropWhile fun c => c == ' ').reverse

/-- The non-empty pieces between blanks. -/
def wordsOf (cs : List Char) : List (List Char) := (splitAt ' ' cs).filter fun w => !w.isEmpty

/-- A line without its comment: `;` starts one (R110). -/
def withoutComment (cs : List Char) : List Char := trim (cs.takeWhile fun c => c != ';')

/-- The operands of a line: the text after the mnemonic, split at commas. -/
def operandsOf (cs : List Char) : List (List Char) :=
  let rest := trim (cs.dropWhile fun c => c != ' ')
  if rest.isEmpty then [] else (splitAt ',' rest).map trim

/-- What one line stands for. -/
inductive Line where
  /-- Operations, in order (more than one only for `TICK k`). -/
  | ops (is : List Instr)
  /-- A `.desc` line: one descriptor for the next APPLY (R110). -/
  | desc (d : Descriptor)
  /-- `RESET`: the reset event, not a command (R111, R300). -/
  | reset
  /-- Nothing but a comment. -/
  | blank
  deriving DecidableEq, Repr

/-- An operation of two operands, when both can be read. -/
def read2 {α β γ : Type} (f : α → β → γ) (x : Option α) (y : Option β) : Option γ :=
  x.bind fun a => y.map (f a)

/-- An operation by its mnemonic and operands (R110), or a pseudo-operation (R111). -/
def operationOfText (mnemonic : String) (ops : List (List Char)) : Option (List Instr) :=
  let one (i : Option Instr) : Option (List Instr) := i.map fun i => [i]
  let pseudo (p : Option Pseudo) : Option (List Instr) := p.map Pseudo.expand
  match mnemonic, ops with
  | "ENCODE.9_23", [v] => one ((floatOfText v).map .encode923)
  | "ENCODE.5_27", [v] => one ((floatOfText v).map .encode527)
  | "DECODE.9_23", [w] => one ((wordOfText w).map .decode923)
  | "DECODE.5_27", [w] => one ((wordOfText w).map .decode527)
  | "DESIGN.LP", [fs, fc] => one (read2 .designLp (floatOfText fs) (floatOfText fc))
  | "DESIGN.HP", [fs, fc] => one (read2 .designHp (floatOfText fs) (floatOfText fc))
  | "LOOKUP", [band, gain] => one (read2 .lookup (byteOfText band) (gainOfText gain))
  | "SET_BOOK_AND_PAGE", [book, page] =>
    one (read2 .setBookAndPage (byteOfText book) (byteOfText page))
  | "APPLY", [count] => one ((byteOfText count).map .apply)
  | "TRIGGER", [] => one (some .trigger)
  | "TICK", [] => one (some .tick)
  | "SET_GAIN", [band, gain] => one (read2 .setGain (byteOfText band) (gainOfText gain))
  | "SET_MIXER_MODE", [mode] => one ((byteOfText mode).map .setMixerMode)
  | "POLL", [] => one (some .poll)
  | "READ_FAULTS", [] => one (some .readFaults)
  | "CLEAR_FAULTS", [] => one (some .clearFaults)
  | "SETUP", [] => one (some .setup)
  | "ENCODE", [v, ['9', '.', '2', '3']] => pseudo ((floatOfText v).map fun x => .encode x .f923)
  | "ENCODE", [v, ['5', '.', '2', '7']] => pseudo ((floatOfText v).map fun x => .encode x .f527)
  | "ENCODE_BIQUAD", [fs, fc, kind] =>
    let k : Option FilterKind :=
      if kind = "lowpass".toList then some .lowpass
      else if kind = "highpass".toList then some .highpass
      else none
    k.bind fun k =>
      pseudo (read2 (fun a b => .encodeBiquad a b k) (floatOfText fs) (floatOfText fc))
  | "TRIGGER_REFRESH", [] => pseudo (some .triggerRefresh)
  | "SET_EQ_BAND_GAIN", [band, gain] =>
    pseudo (read2 .setEqBandGain (byteOfText band) (gainOfText gain))
  | "POLL_FAULTS", [] => pseudo (some .pollFaults)
  | "READ_FAULT_SNAPSHOT", [] => pseudo (some .readFaultSnapshot)
  | "TICK", [k] => pseudo ((natOfText k).map .tickTimes)
  | _, _ => none

/-- A payload byte of a `.desc` line, in hexadecimal without `0x` (R110). -/
def payloadByteOfText (cs : List Char) : Option Byte :=
  (natOfDigits 16 hexDigitOf cs).bind fun n => if n ≤ 255 then some (BitVec.ofNat 8 n) else none

/-- `.desc book, page, offset : y0 y1 ...`, the length being the number of payload bytes (R110). -/
def descriptorOfText (cs : List Char) : Option Descriptor :=
  match splitAt ':' cs with
  | [header, payload] =>
    match (splitAt ',' (trim header)).map fun f => byteOfText (trim f) with
    | [some book, some page, some offset] =>
      ((wordsOf payload).mapM payloadByteOfText).bind fun ys =>
        if ys.length ≤ 255 then some ⟨book, page, offset, BitVec.ofNat 8 ys.length, ys⟩ else none
    | _ => none
  | _ => none

/-- One line of text. -/
def lineOfText (cs : List Char) : Option Line :=
  let body := withoutComment cs
  if body.isEmpty then some .blank
  else
    let mnemonic := String.ofList (body.takeWhile fun c => c != ' ')
    if mnemonic = "RESET" then some .reset
    else if mnemonic = ".desc" then
      (descriptorOfText (body.dropWhile fun c => c != ' ')).map .desc
    else (operationOfText mnemonic (operandsOf body)).map .ops

/-- The port events a list of lines stands for, given the `.desc` lines met since the last line that used
them up. DESIGN CHOICE: R110 says only that `count` such lines precede an `APPLY`. Here every operation
line takes the descriptors met before it as the `DBUF` of each of its commands; it and a `RESET` line use
them up, `TICK 0`, which is no command, among them; blank and comment lines keep them (log entry 25). -/
def assembleFrom : List Descriptor → List (List Char) → Option (List PortEvent)
  | _, [] => some []
  | ds, cs :: rest =>
    match lineOfText cs with
    | none => none
    | some .blank => assembleFrom ds rest
    | some .reset => (assembleFrom [] rest).map fun es => .reset :: es
    | some (.desc d) => assembleFrom (ds ++ [d]) rest
    | some (.ops is) =>
      (assembleFrom [] rest).map fun es =>
        (is.map fun i => .command (encode i) (serialise ds)) ++ es

/-- The port events a test program in text form stands for (R110, R111). -/
def assemble (lines : List (List Char)) : Option (List PortEvent) := assembleFrom [] lines

end Sys2Proof.Machine
end

