-- ==== Sys2Proof/Safety.lean ====
section
/-! DEFINITION. What a legal state is, and what may be assumed of the environment, in the terms the
statements use. -/

namespace Sys2Proof.Machine

/-- The invariant of the block: a well-formed configuration (R302); one gain per band, each in range
(R21); a mode below the mode count (R22); a phase in range (R23); the stored global-fault byte without
its clock bit (R26, R250 d); the reference device's registers in canonical form; no transport call
hanging. -/
structure State.Inv (s : State) : Prop where
  config    : s.cfg.wf = true
  gainCount : s.gain.length = s.cfg.bandCount
  gainRange : ∀ g ∈ s.gain, gainInRange s.cfg g = true
  mode      : s.mixerMode.toNat < s.cfg.mixerModeCount
  phase     : phaseInRange s.cfg s.phase = true
  glob      : s.snap.glob &&& s.cfg.clockFaultMask = 0
  memory    : Memory.wf s.bus.dev.mem = true
  running   : s.bus.stuck = false

/-- The transport's duty of R322: every call returns. -/
def State.TransportReturns (s : State) : Prop := s.bus.returns = true

/-- A draw is a success. -/
def Draw.succeeds : Draw → Bool
  | .returns (.ok _) => true
  | .returns (.err _ _) => false
  | .hangs => false

/-- The next n draws in store are successes (a premise about the environment, R322). -/
def Bus.NextSucceed (b : Bus) (n : Nat) : Prop :=
  b.stuck = false ∧ n ≤ b.draws.length ∧ (b.draws.take n).all Draw.succeeds = true

/-- The next k draws in store are successes and the one after them is a failure with this code, of which
this many bytes land (a premise about the environment, R322). -/
def Bus.NextFailAt (b : Bus) (k : Nat) (code : BusCode) (landed : Nat) : Prop :=
  b.NextSucceed k ∧ b.draws[k]? = some (.returns (.err code landed))

/-- The history entries of writes that all succeed (R33). -/
def okEntries (ws : List (Byte × List Byte)) : List Entry := ws.map fun w => .w w.1 w.2 .ok

/-- The history entries of a write that fails: the call and its warning (R272, R284). -/
def failEntries (w : Byte × List Byte) (code : Byte) : List Entry :=
  [.w w.1 w.2 (.err code), .warn (.transportError .write w.1 code)]

/-- The writes of a run of descriptors, given the context last set (R191): a preamble where the context
changes, then the payload. -/
def runWrites (c : Config) : Option (Byte × Byte) → List Descriptor → List (Byte × List Byte)
  | _, [] => []
  | ctx, d :: rest =>
    (if ctx = some (d.book, d.page) then [] else preambleWrites c d.book d.page) ++
      [(d.offset, d.payload)] ++ runWrites c (some (d.book, d.page)) rest

/-- The writes of the restore (R193). -/
def restoreWrites (c : Config) : List (Byte × List Byte) := preambleWrites c c.ctrlBook zeroPage

/-- The writes of one whole transaction (R195); none for an empty list (R191). -/
def transactionWrites (c : Config) (ds : List Descriptor) : List (Byte × List Byte) :=
  if ds.isEmpty then [] else runWrites c none ds ++ restoreWrites c

/-- The number p of R195: positions at which the context differs from the one before, counting the
first. -/
def contextChanges : Option (Byte × Byte) → List Descriptor → Nat
  | _, [] => 0
  | ctx, d :: rest =>
    (if ctx = some (d.book, d.page) then 0 else 1) + contextChanges (some (d.book, d.page)) rest

/-- The reference device after writes that all reach it whole (R63). -/
def Device.afterWrites (c : Config) (d : Device) (ws : List (Byte × List Byte)) : Device :=
  ws.foldl (fun d w => Device.writeBytes c d w.1.toNat w.2) d

/-- The bus after writes that all succeed. -/
def Bus.afterWrites (c : Config) (b : Bus) (ws : List (Byte × List Byte)) : Bus where
  hist := b.hist ++ okEntries ws
  dev := Device.afterWrites c b.dev ws
  draws := b.draws.drop ws.length
  drawNo := b.drawNo + ws.length
  stuck := b.stuck

/-- The bus after a write that fails: the call and its warning are recorded, the drawn prefix of the
bytes has landed (R63, R272). -/
def Bus.afterFailure (c : Config) (b : Bus) (w : Byte × List Byte) (code : BusCode) (landed : Nat) :
    Bus where
  hist := b.hist ++ failEntries w code.toByte
  dev := Device.writeBytes c b.dev w.1.toNat (w.2.take landed)
  draws := b.draws.drop 1
  drawNo := b.drawNo + 1
  stuck := b.stuck

/-- The transaction of a descriptor list fails from bus `b`: the code of its first failure, and the bus it
leaves. Either a write before the restore fails and the restore, attempted all the same, succeeds; or
such a write fails and then the restore too; or the restore alone fails (R192, R193). -/
inductive FailedTransaction (c : Config) (ds : List Descriptor) (b : Bus) : BusCode → Bus → Prop where
  | write (k : Nat) (w : Byte × List Byte) (code : BusCode) (landed : Nat) :
      (runWrites c none ds)[k]? = some w → b.NextFailAt k code landed →
      ((b.afterWrites c ((runWrites c none ds).take k)).afterFailure c w code landed).NextSucceed 3 →
      FailedTransaction c ds b code
        (((b.afterWrites c ((runWrites c none ds).take k)).afterFailure c w code landed).afterWrites c
          (restoreWrites c))
  | writeAndRestore (k : Nat) (w : Byte × List Byte) (code : BusCode) (landed : Nat) :
      (runWrites c none ds)[k]? = some w → b.NextFailAt k code landed →
      ∀ (j : Nat) (r : Byte × List Byte) (code' : BusCode) (landed' : Nat),
      (restoreWrites c)[j]? = some r →
      ((b.afterWrites c ((runWrites c none ds).take k)).afterFailure c w code landed).NextFailAt j
        code' landed' →
      FailedTransaction c ds b code
        ((((b.afterWrites c ((runWrites c none ds).take k)).afterFailure c w code landed).afterWrites c
          ((restoreWrites c).take j)).afterFailure c r code' landed')
  | restore : ds ≠ [] → ∀ (j : Nat) (r : Byte × List Byte) (code : BusCode) (landed : Nat),
      (restoreWrites c)[j]? = some r → b.NextFailAt ((runWrites c none ds).length + j) code landed →
      FailedTransaction c ds b code
        ((b.afterWrites c (runWrites c none ds ++ (restoreWrites c).take j)).afterFailure c r code landed)

/-- k commands of the same kind, one after the other, with nothing between them. -/
def execTimes (i : Instr) : Nat → State → Host.Outcome State Fault Refusal
  | 0, s => .next s
  | k + 1, s =>
    match exec i s with
    | .next t => execTimes i k t
    | .fault f => .fault f
    | .refused r => .refused r

/-- A list of commands, one after the other, each to completion (R321). -/
def execAll : List Instr → State → Host.Outcome State Fault Refusal
  | [], s => .next s
  | i :: rest, s =>
    match exec i s with
    | .next t => execAll rest t
    | .fault f => .fault f
    | .refused r => .refused r

/-- The phase after k ticks from the trigger (R222). -/
def refreshPhase (c : Config) (k : Nat) : Phase :=
  if k = 0 then .triggered
  else if k < c.settleThreshold then .settling k
  else if k = c.settleThreshold then .mixerPending
  else if k ≤ c.settleThreshold + c.bandCount then .bandPending (k - c.settleThreshold - 1)
  else .complete

/-- The descriptors an operation writes to the chip from a state, as its meaning computes them: `DBUF`
for APPLY, the mixer's or one band's for TICK, the new value's for a setter in `Complete`. -/
def storedBy (i : Instr) (s : State) : List Descriptor :=
  match i with
  | .apply _ => s.dbuf
  | .tick =>
    match tickTransaction s with
    | some (_, ds) => ds
    | none => []
  | .setGain band gainDb =>
    if s.phase = .complete then lutCell s.cfg band.toNat (rowOf s.cfg gainDb) else []
  | .setMixerMode mode =>
    if s.phase = .complete then mixerDescriptors s.cfg mode.toNat else []
  | .encode923 _ => []
  | .encode527 _ => []
  | .decode923 _ => []
  | .decode527 _ => []
  | .designLp _ _ => []
  | .designHp _ _ => []
  | .lookup _ _ => []
  | .setBookAndPage _ _ => []
  | .trigger => []
  | .poll => []
  | .readFaults => []
  | .clearFaults => []
  | .setup => []

/-- A register address (book, page, offset) is one a descriptor writes (R63, R66). -/
def Descriptor.covers (d : Descriptor) (book page offset : Byte) : Prop :=
  ∃ j < d.len.toNat,
    book = d.book ∧ page = d.page ∧ offset = BitVec.ofNat 8 (d.offset.toNat + j)

/-- The operations that the failed latch does not gate (R261): ENCODE, DECODE, DESIGN and LOOKUP. -/
def isPure : Instr → Bool
  | .encode923 _ => true
  | .encode527 _ => true
  | .decode923 _ => true
  | .decode527 _ => true
  | .designLp _ _ => true
  | .designHp _ _ => true
  | .lookup _ _ => true
  | .setBookAndPage _ _ => false
  | .apply _ => false
  | .trigger => false
  | .tick => false
  | .setGain _ _ => false
  | .setMixerMode _ => false
  | .poll => false
  | .readFaults => false
  | .clearFaults => false
  | .setup => false

end Sys2Proof.Machine
end

