-- ==== Sys2Proof/Certificates/Slice0/Obligations.lean ====
section
/-! DEFINITION. The statements for the provers. -/

open Sys2Proof Sys2Proof.Machine

/-! ## Encodings -/

/-- No bit of an encoding is dropped (R103 to R105): decoding an encoded operation gives it back, with
every operand at every value. -/
def Obligations.DecodeOfEncode : Prop :=
  ∀ i : Instr, decode (encode i) = .ok i

/-- Each legal command word is the encoding of the one operation it decodes to (R103 to R107). -/
def Obligations.EncodeOfDecode : Prop :=
  ∀ (cmd : CommandWord) (i : Instr), decode cmd = .ok i → encode i = cmd

/-- Command words written out in the spec (95_test_vectors.md section 8), one or more of each format. -/
def Obligations.WrittenWordsDecode : Prop :=
  decode 0x01000000003F800000 = .ok (.encode923 0x3F800000) ∧
  decode 0x0200000000BF800000 = .ok (.encode527 0xBF800000) ∧
  decode 0x030000000000400000 = .ok (.decode923 0x00400000) ∧
  decode 0x08473B8000447A0000 = .ok (.designLp 0x473B8000 0x447A0000) ∧
  decode 0x09472C440042A00000 = .ok (.designHp 0x472C4400 0x42A00000) ∧
  decode 0x100000000000000106 = .ok (.lookup 1 6) ∧
  decode 0x180000000000008C29 = .ok (.setBookAndPage 0x8C 0x29) ∧
  decode 0x190000000000000002 = .ok (.apply 2) ∧
  decode 0x210000000000000000 = .ok .tick ∧
  decode 0x2200000000000000FD = .ok (.setGain 0 0xFD) ∧
  decode 0x230000000000000002 = .ok (.setMixerMode 2) ∧
  decode 0x300000000000000000 = .ok .setup

/-- R106: a command with an opcode that is not in the opcode map returns `IllegalCommand`, changes no
state and makes no transport call. The command leaves the port. That an illegal command too replaces
`DBUF`, by the list read from the operand that came with it, is the model's choice, log entry 8, no part
of R106. -/
def Obligations.ReservedOpcodeIsIllegal : Prop :=
  ∀ (s : State) (cmd : CommandWord) (dbuf : List Byte) (rest : List PortEvent),
    s.bus.stuck = false → s.port = .command cmd dbuf :: rest →
    opcodeOf cmd ∉ ([0x01, 0x02, 0x03, 0x04, 0x08, 0x09, 0x10, 0x18, 0x19, 0x20, 0x21, 0x22, 0x23,
      0x28, 0x29, 0x2A, 0x30] : List Byte) →
    step s = .next { s with
      port := rest, dbuf := parseDescriptors dbuf, resp := some ⟨.illegalCommand, 0, .none⟩ }

/-- R104 and R107: for a defined opcode, with the number of low operand bits its format uses, a set bit
above them gives `IllegalCommand` and no other change of the block; without one the word is an operation,
whatever the values in its fields. That an illegal command too replaces `DBUF` is the model's choice, log
entry 8, no part of R107. -/
def Obligations.ReservedBitsAreIllegal : Prop :=
  ∀ (cmd : CommandWord) (used : Nat),
    (opcodeOf cmd, used) ∈ ([(0x01, 32), (0x02, 32), (0x03, 32), (0x04, 32), (0x08, 64), (0x09, 64),
      (0x10, 16), (0x18, 16), (0x19, 8), (0x20, 0), (0x21, 0), (0x22, 16), (0x23, 8), (0x28, 0),
      (0x29, 0), (0x2A, 0), (0x30, 0)] : List (Byte × Nat)) →
    ((operandOf cmd).toNat < 2 ^ used → ∃ i, decode cmd = .ok i) ∧
    (2 ^ used ≤ (operandOf cmd).toNat →
      ∀ (s : State) (dbuf : List Byte) (rest : List PortEvent),
        s.bus.stuck = false → s.port = .command cmd dbuf :: rest →
        step s = .next { s with
          port := rest, dbuf := parseDescriptors dbuf, resp := some ⟨.illegalCommand, 0, .none⟩ })

/-- A step runs the decoded operation: the oldest command of the port is taken with its `DBUF`, and the
step is `exec` of it. That every command replaces `DBUF` by the list read from its operand, and that with
nothing on the port the block waits, are the model's choices, log entries 8 and 1. -/
def Obligations.StepRunsDecoded : Prop :=
  (∀ (s : State) (cmd : CommandWord) (dbuf : List Byte) (rest : List PortEvent) (i : Instr),
    s.bus.stuck = false → s.port = .command cmd dbuf :: rest → decode cmd = .ok i →
    step s = exec i { s with port := rest, dbuf := parseDescriptors dbuf }) ∧
  (∀ s : State, s.bus.stuck = false → s.port = [] → step s = .next s)

/-- The serial form of a descriptor list loses nothing (R96): where every length is its payload's, the
list read from it is the list itself. So the very next step after `withFetchWord` of an encoded
operation is `exec` of it, on a state whose `DBUF` is such a list. (That a program comes from outside, on
the port, and that every command replaces `DBUF`, are the model's choices, log entries 2 and 8.) -/
def Obligations.SerialFormAndFetchWord : Prop :=
  (∀ ds : List Descriptor, (∀ d ∈ ds, d.payload.length = d.len.toNat) →
    parseDescriptors (ds.flatMap fun d => [d.book, d.page, d.offset, d.len] ++ d.payload) = ds) ∧
  (∀ (s : State) (i : Instr), s.bus.stuck = false →
    (∀ d ∈ s.dbuf, d.payload.length = d.len.toNat) →
    step (s.withFetchWord 72 (encode i).toNat) = exec i s)

/-! ## The codec -/

/-- R135, R136, R139: ENCODE always returns `OK` with the word of `enc_core`, and changes nothing else,
also while `failed` is set. -/
def Obligations.EncodeCompletes : Prop :=
  ∀ (s : State) (v : Word),
    exec (.encode923 v) s = .next { s with
      resp := some ⟨.ok, 0, .word (encCore s.cfg.nanWord ⟨9, 23⟩ (f32Value v))⟩ } ∧
    exec (.encode527 v) s = .next { s with
      resp := some ⟨.ok, 0, .word (encCore s.cfg.nanWord ⟨5, 27⟩ (f32Value v))⟩ }

/-- R133: the infinities encode as the extremes, both zeros as 0, every NaN as `NAN_WORD` whatever its
sign and payload. -/
def Obligations.NonFiniteAndZeroEncode : Prop :=
  ∀ (nanWord : Word) (f : FixFormat), f = fmt923 ∨ f = fmt527 →
    encCore nanWord f (f32Value 0x7F800000) = 0x7FFFFFFF ∧
    encCore nanWord f (f32Value 0xFF800000) = 0x80000000 ∧
    encCore nanWord f (f32Value 0x00000000) = 0 ∧
    encCore nanWord f (f32Value 0x80000000) = 0 ∧
    ∀ v : Word, v.extractLsb' 23 8 = 255 → v.extractLsb' 0 23 ≠ 0 →
      encCore nanWord f (f32Value v) = nanWord

/-- The corner cases of R135 and R136: saturation from the format's bound on, 0 below half a unit, one
unit away from zero at the tie. -/
def Obligations.EncodeExtremesAndTies : Prop :=
  ∀ (nanWord : Word) (f : FixFormat), f = fmt923 ∨ f = fmt527 → ∀ x : ℚ,
    ((2 : ℚ) ^ (f.m - 1) ≤ x → encCore nanWord f (.fin x) = 0x7FFFFFFF) ∧
    (x ≤ -(2 : ℚ) ^ (f.m - 1) → encCore nanWord f (.fin x) = 0x80000000) ∧
    (|x| < 1 / 2 ^ (f.n + 1) → encCore nanWord f (.fin x) = 0) ∧
    (x = 1 / 2 ^ (f.n + 1) → encCore nanWord f (.fin x) = 1) ∧
    (x = -(1 / 2 ^ (f.n + 1)) → encCore nanWord f (.fin x) = 0xFFFFFFFF)

/-- R140, saturation: beyond an extreme the word is the extreme's, and clamping the input first changes
nothing. -/
def Obligations.SaturationLaw : Prop :=
  ∀ (nanWord : Word) (f : FixFormat), f = fmt923 ∨ f = fmt527 → ∀ x : ℚ,
    (fmtMax f < x → encCore nanWord f (.fin x) = 0x7FFFFFFF ∧
      encCore nanWord f (.fin (fmtMax f)) = 0x7FFFFFFF) ∧
    (x < fmtMin f → encCore nanWord f (.fin x) = 0x80000000 ∧
      encCore nanWord f (.fin (fmtMin f)) = 0x80000000) ∧
    encCore nanWord f (.fin (min (max x (fmtMin f)) (fmtMax f))) = encCore nanWord f (.fin x)

/-- R141: the second saturation never changes anything, and the literal reading of the source's extremes
(2^m instead of 2^(m-1)) gives the same word for every input. -/
def Obligations.SecondSaturationIsNoOp : Prop :=
  ∀ (nanWord : Word) (f : FixFormat), f = fmt923 ∨ f = fmt527 → ∀ x : ℚ,
    (-2 ^ 31 ≤ rha (min (max x (fmtMin f)) (fmtMax f) * 2 ^ f.n) ∧
      rha (min (max x (fmtMin f)) (fmtMax f) * 2 ^ f.n) ≤ 2 ^ 31 - 1) ∧
    BitVec.ofInt 32 (min (max (rha (min (max x (-2 ^ f.m)) (2 ^ f.m - 1 / 2 ^ f.n) * 2 ^ f.n))
      (-2 ^ 31)) (2 ^ 31 - 1)) = encCore nanWord f (.fin x)

/-- R142, round trip: within half a unit of the last place, with equality exactly at ties. -/
def Obligations.RoundTripHalfUnit : Prop :=
  ∀ (nanWord : Word) (f : FixFormat), f = fmt923 ∨ f = fmt527 → ∀ x : ℚ,
    fmtMin f ≤ x → x ≤ fmtMax f →
    |decCore f.n (encCore nanWord f (.fin x)) - x| ≤ 1 / 2 ^ (f.n + 1) ∧
    (|decCore f.n (encCore nanWord f (.fin x)) - x| = 1 / 2 ^ (f.n + 1) ↔
      ∃ k : ℤ, x * 2 ^ f.n = (k : ℚ) + 1 / 2)

/-- R143, left inverse: decoding then encoding is the identity on all 2^32 words. -/
def Obligations.EncodeOfDecodedWord : Prop :=
  ∀ (nanWord : Word) (f : FixFormat), f = fmt923 ∨ f = fmt527 → ∀ w : Word,
    encCore nanWord f (.fin (decCore f.n w)) = w

/-- R144, monotonicity, with the infinities below and above everything; NaN is outside the law. -/
def Obligations.EncodeIsMonotone : Prop :=
  ∀ (nanWord : Word) (f : FixFormat), f = fmt923 ∨ f = fmt527 →
    (∀ x y : ℚ, x ≤ y →
      (encCore nanWord f (.fin x)).toInt ≤ (encCore nanWord f (.fin y)).toInt) ∧
    (∀ x : ExtRat, x ≠ .nan →
      (encCore nanWord f .negInf).toInt ≤ (encCore nanWord f x).toInt ∧
      (encCore nanWord f x).toInt ≤ (encCore nanWord f .posInf).toInt)

/-- R145, odd symmetry, except at the bottom. -/
def Obligations.EncodeIsOdd : Prop :=
  ∀ (nanWord : Word) (f : FixFormat), f = fmt923 ∨ f = fmt527 → ∀ x : ℚ,
    (|x| ≤ fmtMax f →
      (encCore nanWord f (.fin (-x))).toInt = -(encCore nanWord f (.fin x)).toInt) ∧
    (2 ^ (f.m - 1) ≤ x →
      (encCore nanWord f (.fin x)).toInt = 2 ^ 31 - 1 ∧
      (encCore nanWord f (.fin (-x))).toInt = -2 ^ 31)

/-- R146, exactness: no rounding where the scaled value is an integer, and that covers every in-range
binary32 of magnitude 2^(23-n) and above. -/
def Obligations.EncodeIsExact : Prop :=
  ∀ (nanWord : Word) (f : FixFormat), f = fmt923 ∨ f = fmt527 →
    (∀ x : ℚ, (∃ z : ℤ, x * 2 ^ f.n = (z : ℚ)) → fmtMin f ≤ x → x ≤ fmtMax f →
      decCore f.n (encCore nanWord f (.fin x)) = x) ∧
    (∀ (v : Word) (x : ℚ), f32Value v = .fin x → 2 ^ 23 / 2 ^ f.n ≤ |x| →
      ∃ z : ℤ, x * 2 ^ f.n = (z : ℚ))

/-- R137, R138, R139: DECODE always returns `OK` with the word itself, whose value is the exact rational
`sint_32(W) / 2^n`, and changes nothing else. -/
def Obligations.DecodeCompletes : Prop :=
  (∀ (s : State) (w : Word),
    exec (.decode923 w) s = .next { s with resp := some ⟨.ok, 0, .word w⟩ } ∧
    exec (.decode527 w) s = .next { s with resp := some ⟨.ok, 0, .word w⟩ }) ∧
  (∀ w : Word, decCore 23 w * 2 ^ 23 = (w.toInt : ℚ) ∧ decCore 27 w * 2 ^ 27 = (w.toInt : ℚ)) ∧
  decCore 23 0x80000000 = -256 ∧ decCore 23 0x7FFFFFFF = 256 - 1 / 2 ^ 23 ∧
  decCore 23 0xFFFFFFFF = -(1 / 2 ^ 23) ∧ decCore 23 0x00400000 = 1 / 2 ∧
  decCore 27 0x80000000 = -16 ∧ decCore 27 0x7FFFFFFF = 16 - 1 / 2 ^ 27 ∧
  decCore 27 0xFFFFFFFF = -(1 / 2 ^ 27) ∧ decCore 27 0x10000000 = 2

/-- R134 and R93: the wire form is the four bytes, most significant first; both swaps are their own
inverses. -/
def Obligations.WireForm : Prop :=
  ∀ w : Word,
    wire w = [w.extractLsb' 24 8, w.extractLsb' 16 8, w.extractLsb' 8 8, w.extractLsb' 0 8] ∧
    unwire (w.extractLsb' 24 8) (w.extractLsb' 16 8) (w.extractLsb' 8 8) (w.extractLsb' 0 8) = w ∧
    swapped (swapped w) = w ∧ wire (swapped w) = (wire w).reverse

/-! ## The designer -/

/-- R162, R163, R165: under the precondition of R160 DESIGN returns `OK` with the five 5.27 words of the
instance's numerics in the order b0, b1, b2, a1, a2, byte 0 most significant (R95, R108), and changes
nothing else. -/
def Obligations.DesignCompletes : Prop :=
  ∀ (s : State) (p q : Word) (fs fc : ℚ),
    f32Value p = .fin fs → f32Value q = .fin fc → 0 < fc → fc < fs / 2 →
    ∀ kind : FilterKind,
      let v := designNumerics s.cfg kind fs fc
      let word (u : ExtRat) : Word := encCore s.cfg.nanWord fmt527 u
      let data : BitVec 160 := word v.u0 ++ word v.u1 ++ word v.u2 ++ word v.u3 ++ word v.u4
      exec (match kind with | .lowpass => .designLp p q | .highpass => .designHp p q) s =
        .next { s with resp := some ⟨.ok, 0, .coefficients data⟩ }

/-- R169: a violated precondition (R160) gives `{DesignPrecondition, 0, none}`; no state changes. -/
def Obligations.DesignPreconditionIsReported : Prop :=
  ∀ (s : State) (p q : Word),
    (¬ ∃ fs fc : ℚ, f32Value p = .fin fs ∧ f32Value q = .fin fc ∧ 0 < fc ∧ fc < fs / 2) →
    exec (.designLp p q) s = .next { s with resp := some ⟨.designPrecondition, 0, .none⟩ } ∧
    exec (.designHp p q) s = .next { s with resp := some ⟨.designPrecondition, 0, .none⟩ }

/-- R167: the ranges of the ideal values. -/
def Obligations.IdealDesignRange : Prop :=
  ∀ (kind : FilterKind) (fs fc : ℚ), 0 < fc → fc < fs / 2 →
    let v := idealValue kind fs fc
    v 0 = v 2 ∧ 0 < v 0 ∧ v 0 < 1 ∧
    (kind = .lowpass → 0 < v 1 ∧ v 1 < 2) ∧ (kind = .highpass → -2 < v 1 ∧ v 1 < 0) ∧
    |v 3| < 2 ∧ -1 < v 4 ∧ v 4 ≤ -(3 - 2 * Real.sqrt 2)

/-- R170, on the ideal values, with the sign-inverted denominator of R95: a low-pass has gain 1 at DC and
0 at Nyquist, a high-pass the reverse. -/
def Obligations.IdealDesignGains : Prop :=
  ∀ (fs fc : ℚ), 0 < fc → fc < fs / 2 →
    let l := idealValue .lowpass fs fc
    let h := idealValue .highpass fs fc
    (l 0 + l 1 + l 2) / (1 - l 3 - l 4) = 1 ∧
    1 + l 3 - l 4 ≠ 0 ∧ (l 0 - l 1 + l 2) / (1 + l 3 - l 4) = 0 ∧
    1 - h 3 - h 4 ≠ 0 ∧ (h 0 + h 1 + h 2) / (1 - h 3 - h 4) = 0 ∧
    (h 0 - h 1 + h 2) / (1 + h 3 - h 4) = 1

/-- R171, the symmetries of the ideal design. -/
def Obligations.IdealDesignSymmetries : Prop :=
  ∀ (fs fc : ℚ), 0 < fc → fc < fs / 2 →
    (∀ kind, idealValue kind fs fc 0 = idealValue kind fs fc 2) ∧
    (let h := idealValue .highpass fs fc
     let l := idealValue .lowpass fs (fs / 2 - fc)
     h 0 = l 0 ∧ h 1 = -l 1 ∧ h 2 = l 2 ∧ h 3 = -l 3 ∧ h 4 = l 4) ∧
    (∀ kind (r : ℚ) k, r ≠ 0 → idealValue kind (r * fs) (r * fc) k = idealValue kind fs fc k)

/-- R165 to R167 under the named assumption `design_close` of R166, at each point where it holds: the word
of a design is within `DESIGN_EPS` and half a unit of the ideal value. -/
def Obligations.DesignWordsAreClose : Prop :=
  ∀ (c : Config) (kind : FilterKind) (fs fc : ℚ) (k : Fin 5), 0 < fc → fc < fs / 2 →
    DesignCloseAt c kind fs fc k →
    |((encCore c.nanWord fmt527 (DesignValues.at (designNumerics c kind fs fc) k)).toInt : ℝ) /
        2 ^ 27 - idealValue kind fs fc k| ≤ (c.designEps : ℝ) + 1 / 2 ^ 28

/-! ## The lookup table -/

/-- R182: LOOKUP returns the cell of the row gain + G in serial form, or `ValidationError` for a band or
a gain outside its domain; it changes nothing else, also while `failed` is set. -/
def Obligations.LookupRule : Prop :=
  ∀ (s : State) (band g : Byte), s.cfg.wf = true →
    (band.toNat < s.cfg.bandCount → -(s.cfg.eqMaxGainDb : ℤ) ≤ g.toInt →
      g.toInt ≤ (s.cfg.eqMaxGainDb : ℤ) →
      ∃ column cell, s.cfg.lut[band.toNat]? = some column ∧
        column[(g.toInt + (s.cfg.eqMaxGainDb : ℤ)).toNat]? = some cell ∧
        exec (.lookup band g) s = .next { s with resp := some ⟨.ok, 0, .descriptors
          (cell.flatMap fun d => [d.book, d.page, d.offset, d.len] ++ d.payload)⟩ }) ∧
    (s.cfg.bandCount ≤ band.toNat ∨ g.toInt < -(s.cfg.eqMaxGainDb : ℤ) ∨
      (s.cfg.eqMaxGainDb : ℤ) < g.toInt →
      exec (.lookup band g) s = .next { s with resp := some ⟨.validationError, 0, .none⟩ })

/-! ## The sequencer -/

/-- R190 and R98: the fixed three-write preamble; the first failing write ends it with its code and a
warning; on the reference device (R63) the context afterwards is (book, page) and no other register has
changed. -/
def Obligations.SetBookAndPageRule : Prop :=
  ∀ (s : State) (book page : Byte), s.failed = false →
    let ws : List (Byte × List Byte) :=
      [(s.cfg.regPageSelect, [0]), (s.cfg.regBookSelect, [book]), (s.cfg.regPageSelect, [page])]
    (s.bus.NextSucceed 3 →
      exec (.setBookAndPage book page) s = .next { s with
        bus := s.bus.afterWrites s.cfg ws, resp := some ⟨.ok, 0, .none⟩ } ∧
      (s.cfg.regPageSelect ≠ s.cfg.regBookSelect →
        (s.bus.afterWrites s.cfg ws).dev = ⟨book, page, s.bus.dev.mem⟩)) ∧
    (∀ (k : Nat) (w : Byte × List Byte) (code : BusCode) (landed : Nat),
      ws[k]? = some w → s.bus.NextFailAt k code landed →
      exec (.setBookAndPage book page) s = .next { s with
        bus := (s.bus.afterWrites s.cfg (ws.take k)).afterFailure s.cfg w code landed,
        resp := some ⟨.transportError, code.toByte, .none⟩ })

/-- R194: APPLY checks the count and every descriptor's shape (R96) before any I/O; a failure gives
`ValidationError` and nothing else. -/
def Obligations.ApplyValidates : Prop :=
  ∀ (s : State) (count : Byte), s.failed = false → s.bus.stuck = false →
    (s.dbuf.length ≠ count.toNat ∨ ∃ d ∈ s.dbuf,
      d.len.toNat = 0 ∨ d.payload.length ≠ d.len.toNat ∨
      s.cfg.pageLastOffset.toNat < d.offset.toNat + d.len.toNat - 1 ∨
      ∃ j < d.len.toNat, d.offset.toNat + j = s.cfg.regPageSelect.toNat ∨
        d.offset.toNat + j = s.cfg.regBookSelect.toNat) →
    exec (.apply count) s = .next { s with resp := some ⟨.validationError, 0, .none⟩ }

/-- R191 and R195: one successful transaction of k descriptors with p context changes appends exactly
3p + k + 3 write entries, the last three the restore, and leaves the reference device in the context
(`CTRL_BOOK`, 0) whatever it was before; an empty list makes no call. Nothing else of the state
changes. -/
def Obligations.ApplyTrace : Prop :=
  ∀ (s : State) (count : Byte), s.failed = false → s.bus.stuck = false →
    s.dbuf.length = count.toNat → s.dbuf.all (Descriptor.wellFormed s.cfg) = true →
    (s.dbuf = [] → exec (.apply count) s = .next { s with resp := some ⟨.ok, 0, .none⟩ }) ∧
    (s.dbuf ≠ [] →
      let n := 3 * contextChanges none s.dbuf + s.dbuf.length
      s.bus.NextSucceed (n + 3) →
      ∃ t, exec (.apply count) s = .next t ∧
        t = { s with bus := t.bus, resp := some ⟨.ok, 0, .none⟩ } ∧
        (runWrites s.cfg none s.dbuf).length = n ∧
        t.hist = s.hist ++ okEntries (runWrites s.cfg none s.dbuf) ++
          [.w s.cfg.regPageSelect [0] .ok, .w s.cfg.regBookSelect [s.cfg.ctrlBook] .ok,
           .w s.cfg.regPageSelect [0] .ok] ∧
        (s.cfg.regPageSelect ≠ s.cfg.regBookSelect →
          t.bus.dev.book = s.cfg.ctrlBook ∧ t.bus.dev.page = 0))

/-- R192 and R193: the first failing write of a transaction ends it, nothing is rolled back, the restore
is attempted all the same, and the first failure's code is the one returned; a failing restore is
returned only when nothing failed before it. -/
def Obligations.ApplyAbortsAndRestores : Prop :=
  ∀ (s : State) (count : Byte), s.failed = false → s.dbuf.length = count.toNat →
    s.dbuf.all (Descriptor.wellFormed s.cfg) = true → s.dbuf ≠ [] →
    let ws := runWrites s.cfg none s.dbuf
    let rs : List (Byte × List Byte) := [(s.cfg.regPageSelect, [0]),
      (s.cfg.regBookSelect, [s.cfg.ctrlBook]), (s.cfg.regPageSelect, [0])]
    (∀ (k : Nat) (w : Byte × List Byte) (code : BusCode) (landed : Nat),
      ws[k]? = some w → s.bus.NextFailAt k code landed →
      let b := (s.bus.afterWrites s.cfg (ws.take k)).afterFailure s.cfg w code landed
      (b.NextSucceed 3 →
        exec (.apply count) s = .next { s with
          bus := b.afterWrites s.cfg rs, resp := some ⟨.transportError, code.toByte, .none⟩ }) ∧
      (∀ (j : Nat) (r : Byte × List Byte) (code' : BusCode) (landed' : Nat),
        rs[j]? = some r → b.NextFailAt j code' landed' →
        exec (.apply count) s = .next { s with
          bus := (b.afterWrites s.cfg (rs.take j)).afterFailure s.cfg r code' landed',
          resp := some ⟨.transportError, code.toByte, .none⟩ })) ∧
    (∀ (j : Nat) (r : Byte × List Byte) (code : BusCode) (landed : Nat),
      rs[j]? = some r → s.bus.NextFailAt (ws.length + j) code landed →
      exec (.apply count) s = .next { s with
        bus := (s.bus.afterWrites s.cfg (ws ++ rs.take j)).afterFailure s.cfg r code landed,
        resp := some ⟨.transportError, code.toByte, .none⟩ })

/-- R63, R66, R191: after a successful transaction the reference device holds the payload of its last
descriptor, byte j at offset + j. (The premise on the memory is part of the invariant `State.Inv`.) -/
def Obligations.ApplyStoresPayload : Prop :=
  ∀ (s : State) (count : Byte) (before : List Descriptor) (d : Descriptor),
    s.failed = false → s.cfg.regPageSelect ≠ s.cfg.regBookSelect →
    Memory.wf s.bus.dev.mem = true → s.dbuf = before ++ [d] → s.dbuf.length = count.toNat →
    s.dbuf.all (Descriptor.wellFormed s.cfg) = true →
    s.bus.NextSucceed (3 * contextChanges none s.dbuf + s.dbuf.length + 3) →
    ∃ t, exec (.apply count) s = .next t ∧
      ∀ j < d.len.toNat,
        d.payload[j]? = some (t.bus.dev.peek d.book d.page (BitVec.ofNat 8 (d.offset.toNat + j)))

/-- The frame of the chip's registers on the reference device (R63): whatever the draws, no operation but
SETUP (whose writes are those of `SetupRule`) and CLEAR_FAULTS changes a register other than the bytes of
the descriptors it hands to APPLY, and CLEAR_FAULTS none other than the clear register in the active
context (R247). -/
def Obligations.DeviceRegisterFrame : Prop :=
  ∀ (i : Instr) (s t : State), exec i s = .next t → i ≠ .setup →
    s.cfg.regPageSelect ≠ s.cfg.regBookSelect →
    ∀ book page offset : Byte,
      (∀ d ∈ storedBy i s, ¬ Descriptor.covers d book page offset) →
      (i = .clearFaults →
        (book, page, offset) ≠ (s.bus.dev.book, s.bus.dev.page, s.cfg.regFaultClear)) →
      t.bus.dev.peek book page offset = s.bus.dev.peek book page offset

/-! ## The refresh machine -/

/-- R210: TRIGGER moves `Idle` and `Complete` to `Triggered`; in every other phase nothing changes. It is
always `OK` on a device that has not failed; on one that has, the phase stays. -/
def Obligations.TriggerRule : Prop :=
  ∀ s : State,
    (s.failed = false →
      exec .trigger s = .next { s with
        phase := if s.phase = .idle ∨ s.phase = .complete then .triggered else s.phase,
        resp := some ⟨.ok, 0, .none⟩ }) ∧
    (s.failed = true →
      exec .trigger s = .next { s with resp := some ⟨.deviceFailed, 0, .none⟩ })

/-- R211 to R218, the table of 44_refresh.md section 1: one TICK is one row, its result is `OK`, and the
next phase does not depend on the transport; besides `phase`, `hist` and the response nothing of the
block changes. -/
def Obligations.TickPhaseTable : Prop :=
  ∀ s : State, s.failed = false → s.TransportReturns →
    ∃ t, exec .tick s = .next t ∧
      t = { s with phase := t.phase, bus := t.bus, resp := some ⟨.ok, 0, .none⟩ } ∧
      (s.phase = .idle → t.phase = .idle) ∧
      (s.phase = .triggered →
        t.phase = if s.cfg.settleThreshold ≤ 1 then .mixerPending else .settling 1) ∧
      (∀ c, s.phase = .settling c →
        t.phase = if s.cfg.settleThreshold ≤ c + 1 then .mixerPending else .settling (c + 1)) ∧
      (s.phase = .mixerPending →
        t.phase = if s.cfg.bandCount = 0 then .complete else .bandPending 0) ∧
      (∀ i, s.phase = .bandPending i →
        t.phase = if i + 1 = s.cfg.bandCount then .complete else .bandPending (i + 1)) ∧
      (s.phase = .complete → t.phase = .complete)

/-- R212, R213, R214, R217: in `Idle`, `Triggered`, `Settling(c)` and `Complete` a TICK makes no transport
call, whatever the environment holds; in `Idle` and `Complete`, where `ticks_needed` is false (R25), it
does nothing. -/
def Obligations.TickQuietPhases : Prop :=
  ∀ s : State, s.failed = false →
    (ticksNeeded s.phase = false →
      exec .tick s = .next { s with resp := some ⟨.ok, 0, .none⟩ }) ∧
    (s.phase = .triggered →
      exec .tick s = .next { s with
        phase := if s.cfg.settleThreshold ≤ 1 then .mixerPending else .settling 1,
        resp := some ⟨.ok, 0, .none⟩ }) ∧
    (∀ c, s.phase = .settling c →
      exec .tick s = .next { s with
        phase := if s.cfg.settleThreshold ≤ c + 1 then .mixerPending else .settling (c + 1),
        resp := some ⟨.ok, 0, .none⟩ })

/-- R215 and R221: the tick in `MixerPending` programs the four cells of the mode the register holds, as
9.23 words in wire form, in one transaction of ten writes. -/
def Obligations.TickProgramsMixer : Prop :=
  ∀ (s : State) (q : MixerQuad Word), s.Inv → s.failed = false → s.phase = .mixerPending →
    s.cfg.mixerCell[s.mixerMode.toNat]? = some q → s.bus.NextSucceed 10 →
    let cell (x : Word) : List Byte := wire (encCore s.cfg.nanWord fmt923 (f32Value x))
    exec .tick s = .next { s with
      phase := if s.cfg.bandCount = 0 then .complete else .bandPending 0,
      resp := some ⟨.ok, 0, .none⟩,
      bus := s.bus.afterWrites s.cfg
        [(s.cfg.regPageSelect, [0]), (s.cfg.regBookSelect, [s.cfg.mixerBook]),
         (s.cfg.regPageSelect, [s.cfg.mixerPage]),
         (s.cfg.mixerOffset.ll, cell q.ll), (s.cfg.mixerOffset.rr, cell q.rr),
         (s.cfg.mixerOffset.lr, cell q.lr), (s.cfg.mixerOffset.rl, cell q.rl),
         (s.cfg.regPageSelect, [0]), (s.cfg.regBookSelect, [s.cfg.ctrlBook]),
         (s.cfg.regPageSelect, [0])] }

/-- R216: the tick in `BandPending(i)` programs band i with the gain the register file holds, in one
transaction; the table access cannot fail. -/
def Obligations.TickProgramsBand : Prop :=
  ∀ (s : State) (i : Nat), s.Inv → s.failed = false → s.phase = .bandPending i →
    ∃ g column cell, s.gain[i]? = some g ∧ s.cfg.lut[i]? = some column ∧
      column[(g.toInt + (s.cfg.eqMaxGainDb : ℤ)).toNat]? = some cell ∧
      (s.bus.NextSucceed (transactionWrites s.cfg cell).length →
        exec .tick s = .next { s with
          phase := if i + 1 = s.cfg.bandCount then .complete else .bandPending (i + 1),
          resp := some ⟨.ok, 0, .none⟩,
          bus := s.bus.afterWrites s.cfg (transactionWrites s.cfg cell) })

/-- R211, R218 and R284: a mixer or band transaction that fails, at a write before its restore, at the
restore, or at both, is logged with one `RefreshWriteFailed` record of its result (the first failure's
code) after the sequencer's own; the phase advances, the result is `OK` and `failed` stays. -/
def Obligations.TickAbsorbsFailure : Prop :=
  ∀ (s : State) (target : Target) (ds : List Descriptor), s.Inv → s.failed = false →
    ((s.phase = .mixerPending ∧ target = .mixer ∧ ds = mixerDescriptors s.cfg s.mixerMode.toNat) ∨
      ∃ i g, s.phase = .bandPending i ∧ target = .band i ∧ s.gain[i]? = some g ∧
        ds = lutCell s.cfg i (rowOf s.cfg g)) →
    ∀ (code : BusCode) (b : Bus), FailedTransaction s.cfg ds s.bus code b →
      exec .tick s = .next { s with
        phase := tickPhase s.cfg s.phase,
        resp := some ⟨.ok, 0, .none⟩,
        bus := { b with hist := b.hist ++ [.warn (.refreshWriteFailed target
          ⟨.transportError, code.toByte, .none⟩)] } }

/-- R222, the tick count: from `Idle`, one TRIGGER and k ticks, with any further TRIGGERs in between, give
the phase of the law, for every k up to N + B; the tick N + 1 + B enters `Complete`, and ticks alone stay
there. The count does not depend on transport results. -/
def Obligations.TickCountToComplete : Prop :=
  ∀ s : State, s.Inv → s.failed = false → s.TransportReturns → s.phase = .idle →
    (∀ cmds : List Instr, (∀ i ∈ cmds, i = .tick ∨ i = .trigger) →
      cmds.count .tick ≤ s.cfg.settleThreshold + s.cfg.bandCount →
      ∃ t, execAll (.trigger :: cmds) s = .next t ∧
        t.phase = refreshPhase s.cfg (cmds.count .tick) ∧ t.phase ≠ .complete) ∧
    (∀ cmds : List Instr, (∀ i ∈ cmds, i = .tick ∨ i = .trigger) →
      cmds.count .tick = s.cfg.settleThreshold + s.cfg.bandCount →
      ∃ t, execAll (.trigger :: cmds ++ [.tick]) s = .next t ∧ t.phase = .complete) ∧
    (∀ k, s.cfg.settleThreshold + 1 + s.cfg.bandCount ≤ k →
      ∃ t, execAll (.trigger :: List.replicate k .tick) s = .next t ∧ t.phase = .complete)

/-- R226, one refresh with every call succeeding: the mixer once, then every band exactly once in index
order, each with the gain the register file holds, each transaction ending in the restore. -/
def Obligations.RefreshWritesEverything : Prop :=
  ∀ s : State, s.Inv → s.failed = false → s.phase = .triggered →
    let ws := transactionWrites s.cfg (mixerDescriptors s.cfg s.mixerMode.toNat) ++
      (List.range s.cfg.bandCount).flatMap fun i =>
        transactionWrites s.cfg (lutCell s.cfg i (rowOf s.cfg (s.gain.getD i 0)))
    s.bus.NextSucceed ws.length →
    ∃ t, execTimes .tick (s.cfg.settleThreshold + 1 + s.cfg.bandCount) s = .next t ∧
      t = { s with phase := .complete, bus := t.bus, resp := some ⟨.ok, 0, .none⟩ } ∧
      t.hist = s.hist ++ okEntries ws

/-- R225, the first hardware access: from a TRIGGER in `Idle` through the N-th tick the refresh makes no
transport call; its first call is in tick N + 1. -/
def Obligations.FirstHardwareAccess : Prop :=
  ∀ s : State, s.Inv → s.failed = false → s.phase = .idle →
    (∀ k ≤ s.cfg.settleThreshold,
      ∃ t, execAll (.trigger :: List.replicate k .tick) s = .next t ∧ t.bus = s.bus) ∧
    (s.TransportReturns →
      ∃ t, execAll (.trigger :: List.replicate (s.cfg.settleThreshold + 1) .tick) s = .next t ∧
        s.hist.length < t.hist.length)

/-- R219, R220, R224, R271: SET_GAIN and SET_MIXER_MODE with an operand outside its domain change nothing;
with valid operands and a phase other than `Complete` they store the value and make no transport call. -/
def Obligations.SettersRejectOrDefer : Prop :=
  (∀ (s : State) (band g : Byte), s.failed = false →
    (s.cfg.bandCount ≤ band.toNat ∨ g.toInt < -(s.cfg.eqMaxGainDb : ℤ) ∨
      (s.cfg.eqMaxGainDb : ℤ) < g.toInt →
      exec (.setGain band g) s = .next { s with resp := some ⟨.validationError, 0, .none⟩ }) ∧
    (band.toNat < s.cfg.bandCount → -(s.cfg.eqMaxGainDb : ℤ) ≤ g.toInt →
      g.toInt ≤ (s.cfg.eqMaxGainDb : ℤ) → s.phase ≠ .complete →
      exec (.setGain band g) s = .next { s with
        gain := s.gain.set band.toNat g, resp := some ⟨.ok, 0, .none⟩ })) ∧
  (∀ (s : State) (mode : Byte), s.failed = false →
    (s.cfg.mixerModeCount ≤ mode.toNat →
      exec (.setMixerMode mode) s = .next { s with resp := some ⟨.validationError, 0, .none⟩ }) ∧
    (mode.toNat < s.cfg.mixerModeCount → s.phase ≠ .complete →
      exec (.setMixerMode mode) s = .next { s with
        mixerMode := mode, resp := some ⟨.ok, 0, .none⟩ }))

/-- R219: in `Complete` a valid SET_GAIN stores the gain and issues exactly one transaction, of the cell of
the new gain; when it fails, at a write before its restore, at the restore, or at both, the gain keeps
the new value, one `ImmediateWriteFailed` record follows and the first failure's code is returned. -/
def Obligations.SetGainImmediate : Prop :=
  ∀ (s : State) (band g : Byte), s.Inv → s.failed = false → s.phase = .complete →
    band.toNat < s.cfg.bandCount → -(s.cfg.eqMaxGainDb : ℤ) ≤ g.toInt →
    g.toInt ≤ (s.cfg.eqMaxGainDb : ℤ) →
    ∃ column cell, s.cfg.lut[band.toNat]? = some column ∧
      column[(g.toInt + (s.cfg.eqMaxGainDb : ℤ)).toNat]? = some cell ∧
      (s.bus.NextSucceed (transactionWrites s.cfg cell).length →
        exec (.setGain band g) s = .next { s with
          gain := s.gain.set band.toNat g, resp := some ⟨.ok, 0, .none⟩,
          bus := s.bus.afterWrites s.cfg (transactionWrites s.cfg cell) }) ∧
      (∀ (code : BusCode) (b : Bus), FailedTransaction s.cfg cell s.bus code b →
        exec (.setGain band g) s = .next { s with
          gain := s.gain.set band.toNat g,
          resp := some ⟨.transportError, code.toByte, .none⟩,
          bus := { b with hist := b.hist ++ [.warn (.immediateWriteFailed (.band band.toNat)
            ⟨.transportError, code.toByte, .none⟩)] } })

/-- R220, R221: in `Complete` a valid SET_MIXER_MODE stores the mode and programs the four cells of the new
mode at once; when that fails, at a write before the restore, at the restore, or at both, the mode keeps
the new value, one `ImmediateWriteFailed` record follows and the first failure's code is returned. -/
def Obligations.SetMixerModeImmediate : Prop :=
  ∀ (s : State) (mode : Byte), s.Inv → s.failed = false → s.phase = .complete →
    mode.toNat < s.cfg.mixerModeCount →
    let ds := mixerDescriptors s.cfg mode.toNat
    ds.length = 4 ∧
    (s.bus.NextSucceed 10 →
      exec (.setMixerMode mode) s = .next { s with
        mixerMode := mode, resp := some ⟨.ok, 0, .none⟩,
        bus := s.bus.afterWrites s.cfg (transactionWrites s.cfg ds) }) ∧
    (∀ (code : BusCode) (b : Bus), FailedTransaction s.cfg ds s.bus code b →
      exec (.setMixerMode mode) s = .next { s with
        mixerMode := mode,
        resp := some ⟨.transportError, code.toByte, .none⟩,
        bus := { b with hist := b.hist ++ [.warn (.immediateWriteFailed .mixer
          ⟨.transportError, code.toByte, .none⟩)] } })

/-! ## The fault tracker -/

/-- R240 to R243: a successful POLL makes one read and no write (R248), splits the four bytes, sets each
changed flag exactly where its group differs from the stored snapshot, and overwrites the snapshot. -/
def Obligations.PollRule : Prop :=
  ∀ (s : State) (y0 y1 y2 y3 : Byte) (ds : List Draw), s.failed = false → s.bus.stuck = false →
    s.bus.draws = .returns (.ok [y0, y1, y2, y3]) :: ds →
    let mask := s.cfg.clockFaultMask
    let snap : Snapshot := ⟨y0, y1 &&& ~~~mask, decide (y1 &&& mask ≠ 0), y2, y3⟩
    let chg : ChangedFlags := ⟨decide (s.snap.ch ≠ y0), decide (s.snap.glob ≠ y1 &&& ~~~mask),
      decide (s.snap.clock ≠ decide (y1 &&& mask ≠ 0)), decide (s.snap.otf ≠ y2),
      decide (s.snap.otw ≠ y3)⟩
    exec .poll s = .next { s with
      snap := snap, chg := chg,
      bus := { s.bus with
        hist := s.bus.hist ++ [.r s.cfg.regFaultBase 4 (.ok [y0, y1, y2, y3])],
        draws := ds, drawNo := s.bus.drawNo + 1 },
      resp := some ⟨.ok, 0, .faults (packFaults s.cfg.excludeClockFault snap chg)⟩ }

/-- R249: a failed POLL logs a warning, keeps the snapshot, clears all five changed flags and returns the
code; `failed` stays, and `publish` is then `any_fault` of the kept snapshot. -/
def Obligations.PollFailureRule : Prop :=
  ∀ (s : State) (code : BusCode) (landed : Nat) (ds : List Draw),
    s.failed = false → s.bus.stuck = false →
    s.bus.draws = .returns (.err code landed) :: ds →
    exec .poll s = .next { s with
      chg := ⟨false, false, false, false, false⟩,
      bus := { s.bus with
        hist := s.bus.hist ++ [.r s.cfg.regFaultBase 4 (.err code.toByte),
          .warn (.transportError .read s.cfg.regFaultBase code.toByte)],
        draws := ds, drawNo := s.bus.drawNo + 1 },
      resp := some ⟨.transportError, code.toByte, .none⟩ } ∧
    publish s.cfg.excludeClockFault s.snap ⟨false, false, false, false, false⟩ =
      anyFault s.cfg.excludeClockFault s.snap

/-- R250 (a) to (d): two successive successful polls that read the same bytes, that differ in the clock bit
only, and that differ in other bits of the global byte only; the stored global byte never has the clock
bit. -/
def Obligations.TrackerLaws : Prop :=
  ∀ (s t u : State) (y0 y1 y2 y3 z1 : Byte) (ds : List Draw), s.cfg.wf = true →
    s.failed = false → s.bus.stuck = false →
    s.bus.draws = .returns (.ok [y0, y1, y2, y3]) :: .returns (.ok [y0, z1, y2, y3]) :: ds →
    exec .poll s = .next t → exec .poll t = .next u →
    (z1 = y1 → u.chg = ⟨false, false, false, false, false⟩) ∧
    (z1 = y1 ^^^ s.cfg.clockFaultMask → u.chg = ⟨false, false, true, false, false⟩) ∧
    (z1 ≠ y1 → z1 &&& s.cfg.clockFaultMask = y1 &&& s.cfg.clockFaultMask →
      u.chg = ⟨false, true, false, false, false⟩) ∧
    u.snap.glob &&& u.cfg.clockFaultMask = 0

/-- R246, R101, R244, R245: READ_FAULTS returns the stored snapshot and flags, packed bit by bit as R101
lays them out, with the derived `any_fault` and `publish`, and changes nothing else. -/
def Obligations.ReadFaultsRule : Prop :=
  ∀ s : State, s.failed = false →
    ∃ p : BitVec 40, exec .readFaults s = .next { s with resp := some ⟨.ok, 0, .faults p⟩ } ∧
      p.extractLsb' 0 8 = s.snap.ch ∧ p.extractLsb' 8 8 = s.snap.glob ∧
      p.extractLsb' 16 8 = s.snap.otf ∧ p.extractLsb' 24 8 = s.snap.otw ∧
      p.getLsbD 32 = s.snap.clock ∧ p.getLsbD 33 = s.chg.ch ∧ p.getLsbD 34 = s.chg.glob ∧
      p.getLsbD 35 = s.chg.clock ∧ p.getLsbD 36 = s.chg.otf ∧ p.getLsbD 37 = s.chg.otw ∧
      (p.getLsbD 38 = true ↔ s.snap.ch ≠ 0 ∨ s.snap.glob ≠ 0 ∨ s.snap.otf ≠ 0 ∨ s.snap.otw ≠ 0 ∨
        (s.snap.clock = true ∧ s.cfg.excludeClockFault = false)) ∧
      (p.getLsbD 39 = true ↔ s.chg.ch = true ∨ s.chg.glob = true ∨ s.chg.clock = true ∨
        s.chg.otf = true ∨ s.chg.otw = true ∨ p.getLsbD 38 = true)

/-- R247: CLEAR_FAULTS is one write of `FAULT_CLEAR_VALUE` to `REG_FAULT_CLEAR`; the snapshot and the flags
stay; a failure is logged and returned. -/
def Obligations.ClearFaultsRule : Prop :=
  ∀ s : State, s.failed = false →
    let w : Byte × List Byte := (s.cfg.regFaultClear, [s.cfg.faultClearValue])
    (s.bus.NextSucceed 1 →
      exec .clearFaults s = .next { s with
        bus := s.bus.afterWrites s.cfg [w], resp := some ⟨.ok, 0, .none⟩ }) ∧
    (∀ (code : BusCode) (landed : Nat), s.bus.NextFailAt 0 code landed →
      exec .clearFaults s = .next { s with
        bus := s.bus.afterFailure s.cfg w code landed,
        resp := some ⟨.transportError, code.toByte, .none⟩ })

/-! ## The system -/

/-- R260: SETUP writes the entries of `INIT_SEQ` in order; the first failing write is logged, sets `failed`
and stops the load. (That a list which changes the context and does not end in the control context, or
whose writes run past the end of a page, runs as written all the same is the model's choice, log entries
23 and 24.) -/
def Obligations.SetupRule : Prop :=
  ∀ s : State, s.failed = false →
    (s.bus.NextSucceed s.cfg.initSeq.length →
      exec .setup s = .next { s with
        bus := s.bus.afterWrites s.cfg s.cfg.initSeq, resp := some ⟨.ok, 0, .none⟩ }) ∧
    (∀ (k : Nat) (w : Byte × List Byte) (code : BusCode) (landed : Nat),
      s.cfg.initSeq[k]? = some w → s.bus.NextFailAt k code landed →
      exec .setup s = .next { s with
        failed := true,
        bus := (s.bus.afterWrites s.cfg (s.cfg.initSeq.take k)).afterFailure s.cfg w code landed,
        resp := some ⟨.transportError, code.toByte, .none⟩ })

/-- R261: while `failed` is set every gated operation returns `DeviceFailed` and does nothing else; the
four pure operations are not gated; `failed` is set only by SETUP and cleared only by the reset event. -/
def Obligations.FailedLatch : Prop :=
  (∀ (i : Instr) (s : State), s.failed = true → isPure i = false →
    exec i s = .next { s with resp := some ⟨.deviceFailed, 0, .none⟩ }) ∧
  (∀ (i : Instr) (s : State), isPure i = true → ∃ r, ∀ f : Bool,
    exec i { s with failed := f } = .next { s with failed := f, resp := some r }) ∧
  (∀ (i : Instr) (s t : State), exec i s = .next t → i ≠ .setup → t.failed = s.failed) ∧
  (∀ s t : State, step s = .next t → s.failed = true → t.failed = false →
    ∃ rest, s.port = .reset :: rest)

/-- R24: the order of the phases. TICK never decreases it; TRIGGER is the only operation that does, from
`Complete`; no other operation touches the phase. -/
def Obligations.PhaseOrder : Prop :=
  ∀ (i : Instr) (s t : State), s.Inv → exec i s = .next t →
    (i = .tick → phaseRank s.cfg s.phase ≤ phaseRank s.cfg t.phase) ∧
    (i = .trigger → phaseRank s.cfg t.phase < phaseRank s.cfg s.phase → s.phase = .complete) ∧
    (i ≠ .tick → i ≠ .trigger → t.phase = s.phase)

/-- The access column of R30, with R33: which operation may write which register; whatever an operation
does, the history only grows. -/
def Obligations.RegisterFrame : Prop :=
  ∀ (i : Instr) (s t : State), exec i s = .next t →
    t.cfg = s.cfg ∧ t.dbuf = s.dbuf ∧ t.port = s.port ∧
    ((∀ band g, i ≠ .setGain band g) → t.gain = s.gain) ∧
    (∀ band g, i = .setGain band g → ∀ j, j ≠ band.toNat → t.gain[j]? = s.gain[j]?) ∧
    ((∀ mode, i ≠ .setMixerMode mode) → t.mixerMode = s.mixerMode) ∧
    (i ≠ .tick → i ≠ .trigger → t.phase = s.phase) ∧
    (i ≠ .poll → t.snap = s.snap ∧ t.chg = s.chg) ∧
    (i ≠ .setup → t.failed = s.failed) ∧
    s.hist <+: t.hist

/-- R321 and R322: where every transport call returns, every operation completes, on every operand and in
every state; a call that never returns is the only way an operation can fail to, and the block then
accepts nothing more. -/
def Obligations.EveryOperationCompletes : Prop :=
  (∀ (i : Instr) (s : State), s.TransportReturns →
    ∃ t, exec i s = .next t ∧ t.TransportReturns) ∧
  (∀ (i : Instr) (s : State) (f : Fault), exec i s = .fault f →
    f = .transportNeverReturned ∧ ¬ s.TransportReturns) ∧
  (∀ (i : Instr) (s : State) (r : Refusal), exec i s ≠ .refused r) ∧
  (∀ (s : State) (ds : List Draw), s.failed = false → s.bus.draws = .hangs :: ds →
    exec .poll s = .fault .transportNeverReturned ∧
    exec .clearFaults s = .fault .transportNeverReturned ∧
    ∀ book page, exec (.setBookAndPage book page) s = .fault .transportNeverReturned) ∧
  (∀ s : State, s.bus.stuck = true → step s = .fault .transportNeverReturned)

/-- R8, R62, R108: every operation returns one result, whose code is 0 exactly where its status is not
`TransportError`. -/
def Obligations.ResponseCodes : Prop :=
  ∀ (i : Instr) (s t : State), exec i s = .next t →
    ∃ r, t.resp = some r ∧ (r.code ≠ 0 ↔ r.status = .transportError)

/-- The invariant of the block is kept by every step: well-formed configuration, gains and mode in range
(R21, R22), phase in range (R23), the stored global byte without the clock bit (R26, R250 d), the
reference device's registers in canonical form. -/
def Obligations.StepKeepsInvariant : Prop :=
  ∀ s t : State, s.Inv → step s = .next t → t.Inv

/-- R34 and R302, with the bounds of R4: the state after reset of a well-formed configuration has the
values of R34 and meets the invariant; an ill-formed configuration is refused as a whole. What well-formed
means is `Config.wf`: the checks R302 lists (R183, R221 among them), the bounds and completeness that R4
and R180 state, and these readings of the model's own, no part of R302 or R4: a write of no byte in
`INIT_SEQ` is refused (log entry 17); an `INIT_SEQ` that does not end in the control context (R260), or
that runs past the end of a page (R67), is accepted (log entries 23 and 24). The instance of `State.reset`
is the model's choice too (log entry 3), as are the response, `DBUF`, the port and the chip (log entries 7,
8, 1 and 6). -/
def Obligations.ResetStates : Prop :=
  (∀ c : Config, c.wf = true →
    ∃ s, State.boot c = .next s ∧ s.Inv ∧ s.cfg = c ∧ s.gain = c.gainReset ∧
      s.mixerMode = c.mixerModeReset ∧ s.phase = .idle ∧ s.snap = ⟨0, 0, false, 0, 0⟩ ∧
      s.chg = ⟨false, false, false, false, false⟩ ∧ s.failed = false ∧ s.hist = [] ∧
      ticksNeeded s.phase = false ∧ anyFault c.excludeClockFault s.snap = false ∧
      publish c.excludeClockFault s.snap s.chg = false) ∧
  (∀ c : Config, c.wf = false → State.boot c = .refused .illFormedConfiguration) ∧
  State.reset.Inv

/-- R300 and R307: the reset event, between two operations, gives every element of the state tuple its reset
value and leaves the configuration and the chip as they are; an event the spec excludes is refused. -/
def Obligations.ResetEventAndIntrusions : Prop :=
  (∀ (s : State) (rest : List PortEvent), s.bus.stuck = false → s.port = .reset :: rest →
    step s = .next { s with
      port := rest, gain := s.cfg.gainReset, mixerMode := s.cfg.mixerModeReset, phase := .idle,
      snap := ⟨0, 0, false, 0, 0⟩, chg := ⟨false, false, false, false, false⟩, failed := false,
      bus := { s.bus with hist := [] }, resp := none }) ∧
  (∀ (s : State) (kind : Intrusion) (rest : List PortEvent), s.bus.stuck = false →
    s.port = .intrusion kind :: rest → step s = .refused (.excludedInterleaving kind))

/-- R100: the flat encoding of a phase in range loses nothing where N <= 256, and tags 6 and 7 never
occur. -/
def Obligations.FlatPhase : Prop :=
  (∀ (c : Config) (p : Phase), c.settleThreshold ≤ 256 → c.bandCount ≤ 255 →
    phaseInRange c p = true → phaseOfFlat (phaseFlat p) = some p) ∧
  (∀ (v : BitVec 11) (p : Phase), phaseOfFlat v = some p →
    phaseFlat p = v ∧ (v.extractLsb' 8 3).toNat ≤ 5)

/-- R313 and R94: the decimal literal 255.999999 rounds to the binary32 256.0 and so saturates, while the
exact rational does not; the largest binary32 below each extreme encodes as 0x7FFFFF80. -/
def Obligations.DecimalLiterals : Prop :=
  nearestF32 false (255999999 / 1000000) = 0x43800000 ∧
  encCore 0 fmt923 (f32Value 0x43800000) = 0x7FFFFFFF ∧
  encCore 0 fmt923 (.fin (255999999 / 1000000)) = 0x7FFFFFF8 ∧
  encCore 0 fmt923 (f32Value 0x437FFFFF) = 0x7FFFFF80 ∧
  encCore 0 fmt527 (f32Value 0x417FFFFF) = 0x7FFFFF80
end

