-- ==== Sys2Proof/Laws/Decode.lean ====
section
/-! SUPPORT. The fields of a command word read back from the encoder's appends. -/

namespace Sys2Proof

@[simp] theorem opcodeOf_append (op : Byte) (o : BitVec 64) :
    opcodeOf (op ++ o : CommandWord) = op := by
  apply BitVec.eq_of_toNat_eq
  have := op.isLt; have := o.isLt
  simp only [opcodeOf, BitVec.extractLsb'_toNat, BitVec.toNat_append]
  rw [Nat.shiftLeft_eq, Nat.mul_comm, ← Nat.two_pow_add_eq_or_of_lt o.isLt, Nat.shiftRight_eq_div_pow]
  omega

@[simp] theorem operandOf_append (op : Byte) (o : BitVec 64) :
    operandOf (op ++ o : CommandWord) = o := by
  apply BitVec.eq_of_toNat_eq
  have := op.isLt; have := o.isLt
  simp only [operandOf, BitVec.extractLsb'_toNat, BitVec.toNat_append]
  rw [Nat.shiftLeft_eq, Nat.mul_comm, ← Nat.two_pow_add_eq_or_of_lt o.isLt, Nat.shiftRight_eq_div_pow]
  omega

/-- The value of an append, as a sum. -/
theorem toNat_append_add {m n : Nat} (a : BitVec m) (b : BitVec n) :
    (a ++ b).toNat = 2 ^ n * a.toNat + b.toNat := by
  rw [BitVec.toNat_append, Nat.shiftLeft_eq, Nat.mul_comm, ← Nat.two_pow_add_eq_or_of_lt b.isLt]

/-- Every command word is the append of its two fields. -/
theorem append_fields (cmd : CommandWord) : opcodeOf cmd ++ operandOf cmd = cmd := by
  apply BitVec.eq_of_toNat_eq
  have := cmd.isLt
  rw [toNat_append_add]
  simp only [opcodeOf, operandOf, BitVec.extractLsb'_toNat, Nat.shiftRight_eq_div_pow]
  omega

/-- An operand field that a format accepts is its used bits alone (R107). -/
theorem OperandFormat.accepts_iff (f : OperandFormat) (o : BitVec 64) :
    f.accepts o = true ↔ o.toNat < 2 ^ f.usedBits := by
  unfold OperandFormat.accepts
  rw [beq_iff_eq, ← BitVec.toNat_inj, BitVec.toNat_ushiftRight, Nat.shiftRight_eq_div_pow]
  simp [Nat.div_eq_zero_iff]

end Sys2Proof
end

