-- ==== Sys2Proof/Laws/Biquad.lean ====
section
/-! SUPPORT. The packed datum of DESIGN as five words (R95, R108). -/

namespace Sys2Proof.Machine

/-- One byte more, on natural numbers. -/
theorem pack_step (acc : BitVec 160) (y : Byte) :
    (((acc <<< 8) ||| y.zeroExtend 160).toNat) = (acc.toNat * 256 + y.toNat) % 2 ^ 160 := by
  have hy := y.isLt
  rw [BitVec.toNat_or, BitVec.toNat_shiftLeft, BitVec.toNat_setWidth,
    Nat.mod_eq_of_lt (by omega : y.toNat < 2 ^ 160), Nat.shiftLeft_eq]
  have e : acc.toNat * 2 ^ 8 % 2 ^ 160 = 2 ^ 8 * (acc.toNat % 2 ^ 152) := by omega
  rw [e, ← Nat.two_pow_add_eq_or_of_lt hy]
  omega

/-- The packed bytes are the big-endian number they spell. -/
theorem pack_fold (bytes : List Byte) (acc : BitVec 160) (n : Nat) (h : acc.toNat = n % 2 ^ 160) :
    (bytes.foldl (fun (acc : BitVec 160) (y : Byte) =>
      (acc <<< 8) ||| y.zeroExtend 160) acc).toNat =
      (bytes.foldl (fun (n : Nat) (y : Byte) => n * 256 + y.toNat) n) % 2 ^ 160 := by
  induction bytes generalizing acc n with
  | nil => exact h
  | cons y ys ih =>
    apply ih
    rw [pack_step, h]
    show _ = (n * 256 + y.toNat) % 2 ^ 160
    omega

/-- The wire form spells the word (R93). -/
theorem wire_value (w : Word) (n : Nat) :
    (wire w).foldl (fun (n : Nat) (y : Byte) => n * 256 + y.toNat) n = n * 2 ^ 32 + w.toNat := by
  have := w.isLt
  simp only [wire, List.foldl, BitVec.extractLsb'_toNat, Nat.shiftRight_eq_div_pow]
  omega

/-- The five words of a design, packed with byte 0 most significant (R95, R108): b0 comes first. -/
theorem packCoefficients_words (w0 w1 w2 w3 w4 : Word) :
    packCoefficients (coefficientBytes [w0, w1, w2, w3, w4]) = w0 ++ w1 ++ w2 ++ w3 ++ w4 := by
  apply BitVec.eq_of_toNat_eq
  have h0 := w0.isLt; have h1 := w1.isLt; have h2 := w2.isLt; have h3 := w3.isLt; have h4 := w4.isLt
  rw [packCoefficients, pack_fold _ 0 0 rfl]
  simp only [coefficientBytes, List.flatMap_cons, List.flatMap_nil, List.foldl_append, wire_value,
    List.foldl_nil, toNat_append_add]
  omega

end Sys2Proof.Machine
end

