-- ==== Sys2Proof/Laws/Codec.lean ====
section
/-! SUPPORT. The laws of rounding (R132) and of the scaled word (R130, R141), which the codec's laws
R140 to R146 rest on. -/

namespace Sys2Proof.Machine

/-! ## Rounding -/

theorem rha_of_nonneg {s : ℚ} (h : 0 ≤ s) : rha s = ⌊s + 1 / 2⌋ := by simp [rha, h]

theorem rha_neg (s : ℚ) : rha (-s) = -rha s := by
  unfold rha
  rcases lt_trichotomy s 0 with h | h | h
  · have h1 : (0 : ℚ) ≤ -s := by linarith
    have h2 : ¬(0 : ℚ) ≤ s := not_le.mpr h
    rw [if_pos h1, if_neg h2, neg_neg]
  · subst h
    norm_num
  · have h1 : ¬(0 : ℚ) ≤ -s := by linarith
    rw [if_neg h1, if_pos h.le, neg_neg]

theorem rha_of_nonpos {s : ℚ} (h : s ≤ 0) : rha s = -⌊-s + 1 / 2⌋ := by
  have := rha_neg (-s)
  rw [neg_neg] at this
  rw [this, rha_of_nonneg (by linarith)]

/-- An integer is its own rounding. -/
@[simp] theorem rha_int (z : ℤ) : rha (z : ℚ) = z := by
  have key : ∀ z : ℤ, ⌊(z : ℚ) + 1 / 2⌋ = z := by
    intro z
    rw [Int.floor_eq_iff]
    constructor <;> linarith
  unfold rha
  split
  · exact key z
  · have := key (-z)
    push_cast at this
    rw [this, neg_neg]

/-- Rounding moves a value by half a unit at most (R142). -/
theorem abs_rha_sub_le (s : ℚ) : |(rha s : ℚ) - s| ≤ 1 / 2 := by
  have key : ∀ s : ℚ, |((⌊s + 1 / 2⌋ : ℤ) : ℚ) - s| ≤ 1 / 2 := by
    intro s
    have h1 := Int.floor_le (s + 1 / 2)
    have h2 := Int.lt_floor_add_one (s + 1 / 2)
    rw [abs_le]
    constructor <;> linarith
  rcases le_total 0 s with h | h
  · rw [rha_of_nonneg h]; exact key s
  · rw [rha_of_nonpos h]
    have := key (-s)
    push_cast
    rw [abs_sub_comm] at this
    convert this using 2
    ring

/-- Rounding is monotone (R144). -/
theorem rha_mono {s t : ℚ} (h : s ≤ t) : rha s ≤ rha t := by
  rcases le_total 0 s with hs | hs
  · rw [rha_of_nonneg hs, rha_of_nonneg (hs.trans h)]
    exact Int.floor_mono (by linarith)
  · rcases le_total 0 t with ht | ht
    · have h1 : rha s ≤ rha ((0 : ℤ) : ℚ) := by
        rw [rha_of_nonpos hs, rha_int]
        have : (0 : ℤ) ≤ ⌊-s + 1 / 2⌋ := Int.floor_nonneg.mpr (by linarith)
        omega
      have h2 : rha ((0 : ℤ) : ℚ) ≤ rha t := by
        rw [rha_of_nonneg ht, rha_int]
        exact Int.floor_nonneg.mpr (by linarith)
      exact h1.trans h2
    · rw [rha_of_nonpos hs, rha_of_nonpos ht]
      have := Int.floor_mono (a := -t + 1 / 2) (b := -s + 1 / 2) (by linarith)
      omega

/-- Rounding keeps an interval with integer ends (R141). -/
theorem rha_mem {s : ℚ} {a b : ℤ} (ha : (a : ℚ) ≤ s) (hb : s ≤ (b : ℚ)) : a ≤ rha s ∧ rha s ≤ b := by
  have h1 := rha_mono ha
  have h2 := rha_mono hb
  rw [rha_int] at h1 h2
  exact ⟨h1, h2⟩

/-! ## The scaled word -/

/-- A format whose word has 32 bits (R90). -/
def FixFormat.Fits (f : FixFormat) : Prop := 1 ≤ f.m ∧ f.m + f.n = 32

theorem fmt923_fits : FixFormat.Fits fmt923 := ⟨by decide, by decide⟩
theorem fmt527_fits : FixFormat.Fits fmt527 := ⟨by decide, by decide⟩

theorem scale_pos (f : FixFormat) : (0 : ℚ) < ((2 ^ f.n : ℕ) : ℚ) := by positivity

/-- The scaled extremes are the extremes of 32 bits (R131). -/
theorem fmtMin_scaled {f : FixFormat} (h : FixFormat.Fits f) :
    fmtMin f * ((2 ^ f.n : ℕ) : ℚ) = ((-2 ^ 31 : ℤ) : ℚ) := by
  have : f.m - 1 + f.n = 31 := by have := h.1; have := h.2; omega
  unfold fmtMin
  rw [neg_mul, ← Nat.cast_mul, ← pow_add, this]
  norm_num

theorem fmtMax_scaled {f : FixFormat} (h : FixFormat.Fits f) :
    fmtMax f * ((2 ^ f.n : ℕ) : ℚ) = ((2 ^ 31 - 1 : ℤ) : ℚ) := by
  have : f.m - 1 + f.n = 31 := by have := h.1; have := h.2; omega
  unfold fmtMax
  rw [sub_mul, one_div, inv_mul_cancel₀ (scale_pos f).ne', ← Nat.cast_mul, ← pow_add, this]
  norm_num

theorem fmtMin_le_fmtMax {f : FixFormat} (h : FixFormat.Fits f) : fmtMin f ≤ fmtMax f := by
  have h1 := fmtMin_scaled h
  have h2 := fmtMax_scaled h
  have : fmtMin f * ((2 ^ f.n : ℕ) : ℚ) ≤ fmtMax f * ((2 ^ f.n : ℕ) : ℚ) := by
    rw [h1, h2]; norm_num
  exact le_of_mul_le_mul_right this (scale_pos f)

/-- A 32-bit two's-complement pattern of an integer in range keeps its value (R5, R147 a). -/
theorem toInt_ofInt_32 {z : ℤ} (h1 : -2 ^ 31 ≤ z) (h2 : z ≤ 2 ^ 31 - 1) :
    (BitVec.ofInt 32 z).toInt = z := by
  rw [BitVec.toInt_ofInt]
  exact Int.bmod_eq_of_le (by norm_num; omega) (by norm_num; omega)

/-- The value of the scaled word: the rounding, for a value in the format's range (R130, R141). -/
theorem scaleToWord_toInt {f : FixFormat} (h : FixFormat.Fits f) {c : ℚ} (h1 : fmtMin f ≤ c)
    (h2 : c ≤ fmtMax f) : (scaleToWord f c).toInt = rha (c * ((2 ^ f.n : ℕ) : ℚ)) := by
  have b1 : ((-2 ^ 31 : ℤ) : ℚ) ≤ c * ((2 ^ f.n : ℕ) : ℚ) := by
    rw [← fmtMin_scaled h]; exact mul_le_mul_of_nonneg_right h1 (scale_pos f).le
  have b2 : c * ((2 ^ f.n : ℕ) : ℚ) ≤ ((2 ^ 31 - 1 : ℤ) : ℚ) := by
    rw [← fmtMax_scaled h]; exact mul_le_mul_of_nonneg_right h2 (scale_pos f).le
  obtain ⟨r1, r2⟩ := rha_mem b1 b2
  unfold scaleToWord
  rw [max_eq_left r1, min_eq_left r2]
  exact toInt_ofInt_32 r1 r2

/-- The clamp of step 1 stays in the format's range (R130). -/
theorem clamp_mem {f : FixFormat} (h : FixFormat.Fits f) (x : ℚ) :
    fmtMin f ≤ min (max x (fmtMin f)) (fmtMax f) ∧
      min (max x (fmtMin f)) (fmtMax f) ≤ fmtMax f :=
  ⟨le_min (le_max_right _ _) (fmtMin_le_fmtMax h), min_le_right _ _⟩

/-- The value of an encoded finite input: the rounding of its scaled clamp (R130). -/
theorem encCore_fin_toInt {f : FixFormat} (h : FixFormat.Fits f) (nanWord : Word) (x : ℚ) :
    (encCore nanWord f (.fin x)).toInt =
      rha (min (max x (fmtMin f)) (fmtMax f) * ((2 ^ f.n : ℕ) : ℚ)) :=
  scaleToWord_toInt h (clamp_mem h x).1 (clamp_mem h x).2

/-- The value of an encoded input in range (R130). -/
theorem encCore_inRange_toInt {f : FixFormat} (h : FixFormat.Fits f) (nanWord : Word) {x : ℚ}
    (h1 : fmtMin f ≤ x) (h2 : x ≤ fmtMax f) :
    (encCore nanWord f (.fin x)).toInt = rha (x * ((2 ^ f.n : ℕ) : ℚ)) := by
  rw [encCore_fin_toInt h, max_eq_left h1, min_eq_left h2]

end Sys2Proof.Machine
end

