-- ==== Sys2Proof/Laws/State.lean ====
section
/-! SUPPORT. One lemma per field for each named update of the state and of the bus, true by rfl, so
that no later proof unfolds a record update. -/

namespace Sys2Proof.Machine

/-! ## The bus -/

@[simp] theorem Bus.advance_hist (b : Bus) : b.advance.hist = b.hist := rfl
@[simp] theorem Bus.advance_dev (b : Bus) : b.advance.dev = b.dev := rfl
@[simp] theorem Bus.advance_draws (b : Bus) : b.advance.draws = b.draws.tail := rfl
@[simp] theorem Bus.advance_drawNo (b : Bus) : b.advance.drawNo = b.drawNo + 1 := rfl
@[simp] theorem Bus.advance_stuck (b : Bus) : b.advance.stuck = b.stuck := rfl

@[simp] theorem Bus.log_hist (b : Bus) (e : Entry) : (b.log e).hist = b.hist ++ [e] := rfl
@[simp] theorem Bus.log_dev (b : Bus) (e : Entry) : (b.log e).dev = b.dev := rfl
@[simp] theorem Bus.log_draws (b : Bus) (e : Entry) : (b.log e).draws = b.draws := rfl
@[simp] theorem Bus.log_drawNo (b : Bus) (e : Entry) : (b.log e).drawNo = b.drawNo := rfl
@[simp] theorem Bus.log_stuck (b : Bus) (e : Entry) : (b.log e).stuck = b.stuck := rfl

@[simp] theorem Bus.warn_hist (b : Bus) (w : Warning) : (b.warn w).hist = b.hist ++ [.warn w] := rfl
@[simp] theorem Bus.warn_dev (b : Bus) (w : Warning) : (b.warn w).dev = b.dev := rfl
@[simp] theorem Bus.warn_draws (b : Bus) (w : Warning) : (b.warn w).draws = b.draws := rfl
@[simp] theorem Bus.warn_drawNo (b : Bus) (w : Warning) : (b.warn w).drawNo = b.drawNo := rfl
@[simp] theorem Bus.warn_stuck (b : Bus) (w : Warning) : (b.warn w).stuck = b.stuck := rfl
@[simp] theorem Bus.warn_returns (b : Bus) (w : Warning) : (b.warn w).returns = b.returns := rfl

/-! ## Delivering a result -/

@[simp] theorem State.deliver_cfg (s : State) (r : Result) : (s.deliver r).cfg = s.cfg := rfl
@[simp] theorem State.deliver_gain (s : State) (r : Result) : (s.deliver r).gain = s.gain := rfl
@[simp] theorem State.deliver_mixerMode (s : State) (r : Result) :
    (s.deliver r).mixerMode = s.mixerMode := rfl
@[simp] theorem State.deliver_phase (s : State) (r : Result) : (s.deliver r).phase = s.phase := rfl
@[simp] theorem State.deliver_snap (s : State) (r : Result) : (s.deliver r).snap = s.snap := rfl
@[simp] theorem State.deliver_chg (s : State) (r : Result) : (s.deliver r).chg = s.chg := rfl
@[simp] theorem State.deliver_failed (s : State) (r : Result) : (s.deliver r).failed = s.failed := rfl
@[simp] theorem State.deliver_bus (s : State) (r : Result) : (s.deliver r).bus = s.bus := rfl
@[simp] theorem State.deliver_dbuf (s : State) (r : Result) : (s.deliver r).dbuf = s.dbuf := rfl
@[simp] theorem State.deliver_resp (s : State) (r : Result) : (s.deliver r).resp = some r := rfl
@[simp] theorem State.deliver_port (s : State) (r : Result) : (s.deliver r).port = s.port := rfl

/-! ## Taking a command -/

@[simp] theorem State.takeCommand_cfg (s : State) (d : List Byte) (p : List PortEvent) :
    (s.takeCommand d p).cfg = s.cfg := rfl
@[simp] theorem State.takeCommand_gain (s : State) (d : List Byte) (p : List PortEvent) :
    (s.takeCommand d p).gain = s.gain := rfl
@[simp] theorem State.takeCommand_mixerMode (s : State) (d : List Byte) (p : List PortEvent) :
    (s.takeCommand d p).mixerMode = s.mixerMode := rfl
@[simp] theorem State.takeCommand_phase (s : State) (d : List Byte) (p : List PortEvent) :
    (s.takeCommand d p).phase = s.phase := rfl
@[simp] theorem State.takeCommand_snap (s : State) (d : List Byte) (p : List PortEvent) :
    (s.takeCommand d p).snap = s.snap := rfl
@[simp] theorem State.takeCommand_chg (s : State) (d : List Byte) (p : List PortEvent) :
    (s.takeCommand d p).chg = s.chg := rfl
@[simp] theorem State.takeCommand_failed (s : State) (d : List Byte) (p : List PortEvent) :
    (s.takeCommand d p).failed = s.failed := rfl
@[simp] theorem State.takeCommand_bus (s : State) (d : List Byte) (p : List PortEvent) :
    (s.takeCommand d p).bus = s.bus := rfl
@[simp] theorem State.takeCommand_dbuf (s : State) (d : List Byte) (p : List PortEvent) :
    (s.takeCommand d p).dbuf = parseDescriptors d := rfl
@[simp] theorem State.takeCommand_resp (s : State) (d : List Byte) (p : List PortEvent) :
    (s.takeCommand d p).resp = s.resp := rfl
@[simp] theorem State.takeCommand_port (s : State) (d : List Byte) (p : List PortEvent) :
    (s.takeCommand d p).port = p := rfl

/-! ## The reset event -/

@[simp] theorem State.resetEvent_cfg (s : State) : s.resetEvent.cfg = s.cfg := rfl
@[simp] theorem State.resetEvent_gain (s : State) : s.resetEvent.gain = s.cfg.gainReset := rfl
@[simp] theorem State.resetEvent_mixerMode (s : State) :
    s.resetEvent.mixerMode = s.cfg.mixerModeReset := rfl
@[simp] theorem State.resetEvent_phase (s : State) : s.resetEvent.phase = .idle := rfl
@[simp] theorem State.resetEvent_snap (s : State) : s.resetEvent.snap = .reset := rfl
@[simp] theorem State.resetEvent_chg (s : State) : s.resetEvent.chg = .reset := rfl
@[simp] theorem State.resetEvent_failed (s : State) : s.resetEvent.failed = false := rfl
@[simp] theorem State.resetEvent_hist (s : State) : s.resetEvent.bus.hist = [] := rfl
@[simp] theorem State.resetEvent_dev (s : State) : s.resetEvent.bus.dev = s.bus.dev := rfl
@[simp] theorem State.resetEvent_draws (s : State) : s.resetEvent.bus.draws = s.bus.draws := rfl
@[simp] theorem State.resetEvent_drawNo (s : State) : s.resetEvent.bus.drawNo = s.bus.drawNo := rfl
@[simp] theorem State.resetEvent_stuck (s : State) : s.resetEvent.bus.stuck = s.bus.stuck := rfl
@[simp] theorem State.resetEvent_dbuf (s : State) : s.resetEvent.dbuf = s.dbuf := rfl
@[simp] theorem State.resetEvent_resp (s : State) : s.resetEvent.resp = none := rfl
@[simp] theorem State.resetEvent_port (s : State) : s.resetEvent.port = s.port := rfl

/-! ## Results -/

@[simp] theorem Result.ok_status : Result.ok.status = .ok := rfl
@[simp] theorem Result.okWith_status (d : RespData) : (Result.okWith d).status = .ok := rfl
@[simp] theorem Result.validationError_status : Result.validationError.status = .validationError := rfl
@[simp] theorem Result.transportError_status (c : Byte) :
    (Result.transportError c).status = .transportError := rfl
@[simp] theorem Result.transportError_code (c : Byte) : (Result.transportError c).code = c := rfl

/-- A bus error code is never 0 (R62). -/
theorem BusCode.toByte_ne_zero (c : BusCode) : c.toByte ≠ 0 := by
  intro h
  have := congrArg BitVec.toNat h
  simp [BusCode.toByte] at this
  omega

end Sys2Proof.Machine
end

