-- ==== Sys2Proof/Laws/Memory.lean ====
section
/-! SUPPORT. The laws of the reference device's registers: read after write, the canonical form, and
what a byte write of the device can change. -/

namespace Sys2Proof.Machine

namespace Memory

theorem wf_tail {a : Host.Cell} {m : Memory} (h : Memory.wf (a :: m) = true) : Memory.wf m = true := by
  cases m with
  | nil => rfl
  | cons b m => simp only [Memory.wf, Bool.and_eq_true] at h; exact h.2

/-- In canonical form no entry is what an unlisted address reads as. -/
theorem wf_head {a : Host.Cell} {m : Memory} (h : Memory.wf (a :: m) = true) :
    a.2 ≠ Memory.unwritten := by
  cases m with
  | nil => simpa [Memory.wf] using h
  | cons b m => simp only [Memory.wf, Bool.and_eq_true, decide_eq_true_eq] at h; exact h.1.1

/-- In canonical form every later address is above the first. -/
theorem wf_lt {a : Host.Cell} {m : Memory} (h : Memory.wf (a :: m) = true) :
    ∀ c ∈ m, a.1 < c.1 := by
  induction m generalizing a with
  | nil => simp
  | cons b m ih =>
    simp only [Memory.wf, Bool.and_eq_true, decide_eq_true_eq] at h
    intro c hc
    rcases List.mem_cons.mp hc with rfl | hc
    · exact h.1.2
    · exact h.1.2.trans (ih h.2 c hc)

theorem wf_cons {a : Host.Cell} {m : Memory} (hv : a.2 ≠ Memory.unwritten) (h : Memory.wf m = true)
    (hlt : ∀ c ∈ m, a.1 < c.1) : Memory.wf (a :: m) = true := by
  cases m with
  | nil => simp [Memory.wf, hv]
  | cons b m => simp [Memory.wf, hv, h, hlt b (by simp)]

theorem wf_push {a : Nat} {v : Byte} {m : Memory} (h : Memory.wf m = true)
    (hlt : ∀ c ∈ m, a < c.1) : Memory.wf (Memory.push a v m) = true := by
  unfold Memory.push
  split
  · exact h
  · next hv => exact wf_cons hv h hlt

theorem mem_push {a : Nat} {v : Byte} {m : Memory} {c : Host.Cell} (h : c ∈ Memory.push a v m) :
    c = (a, v) ∨ c ∈ m := by
  unfold Memory.push at h
  split at h
  · exact .inr h
  · exact List.mem_cons.mp h

theorem mem_write {m : Memory} {a : Nat} {v : Byte} {c : Host.Cell}
    (h : c ∈ Memory.write m a v) : c = (a, v) ∨ c ∈ m := by
  induction m with
  | nil => exact mem_push h
  | cons b m ih =>
    unfold Memory.write at h
    split at h
    · exact mem_push h
    · split at h
      · exact (mem_push h).imp id (List.mem_cons_of_mem _)
      · rcases List.mem_cons.mp h with h | h
        · exact .inr (h ▸ List.mem_cons_self)
        · exact (ih h).imp id (List.mem_cons_of_mem _)

/-- Writing keeps the canonical form. -/
theorem wf_write {m : Memory} (h : Memory.wf m = true) (a : Nat) (v : Byte) :
    Memory.wf (Memory.write m a v) = true := by
  induction m with
  | nil => exact wf_push h (by simp)
  | cons b m ih =>
    have hlt := wf_lt h
    unfold Memory.write
    split
    · next hab => exact wf_push h (by
        intro c hc
        rcases List.mem_cons.mp hc with rfl | hc
        · exact hab
        · exact lt_trans hab (hlt c hc))
    · split
      · next hab => exact wf_push (wf_tail h) (fun c hc => hab ▸ hlt c hc)
      · next h1 h2 =>
        refine wf_cons (wf_head h) (ih (wf_tail h)) (fun c hc => ?_)
        rcases mem_write hc with rfl | hc
        · exact lt_of_le_of_ne (not_lt.mp h1) (Ne.symm h2)
        · exact hlt c hc

/-- An address that no entry names holds the byte of a register never written. -/
theorem read_unlisted {m : Memory} {a : Nat} (h : ∀ c ∈ m, c.1 ≠ a) :
    Memory.read m a = Memory.unwritten := by
  induction m with
  | nil => rfl
  | cons b m ih =>
    simp [Memory.read, h b (by simp), ih fun c hc => h c (List.mem_cons_of_mem _ hc)]

@[simp] theorem read_push_same {m : Memory} {a : Nat} (v : Byte) (h : ∀ c ∈ m, c.1 ≠ a) :
    Memory.read (Memory.push a v m) a = v := by
  unfold Memory.push
  split
  · next hv => exact (read_unlisted h).trans hv.symm
  · simp [Memory.read]

theorem read_push_other (m : Memory) {a a' : Nat} (v : Byte) (h : a' ≠ a) :
    Memory.read (Memory.push a v m) a' = Memory.read m a' := by
  unfold Memory.push
  split
  · rfl
  · simp [Memory.read, Ne.symm h]

/-- Reading an address just written gives the byte written. -/
theorem read_write_same {m : Memory} (hm : Memory.wf m = true) (a : Nat) (v : Byte) :
    Memory.read (Memory.write m a v) a = v := by
  induction m with
  | nil => exact read_push_same v (by simp)
  | cons b m ih =>
    have hlt := wf_lt hm
    unfold Memory.write
    split
    · next hab => exact read_push_same v (by
        intro c hc
        rcases List.mem_cons.mp hc with rfl | hc
        · exact ne_of_gt hab
        · exact ne_of_gt (lt_trans hab (hlt c hc)))
    · split
      · next hab => exact read_push_same v fun c hc => ne_of_gt (hab ▸ hlt c hc)
      · next h => simp [Memory.read, Ne.symm h, ih (wf_tail hm)]

/-- A write leaves every other address alone. -/
theorem read_write_other (m : Memory) {a a' : Nat} (v : Byte) (h : a' ≠ a) :
    Memory.read (Memory.write m a v) a' = Memory.read m a' := by
  induction m with
  | nil => exact read_push_other _ v h
  | cons b m ih =>
    unfold Memory.write
    split
    · exact read_push_other _ v h
    · split
      · next hab => rw [read_push_other _ v h]; simp [Memory.read, Ne.symm h, ← hab]
      · simp only [Memory.read, ih]

/-- Equal memories are equal data: two canonical lists that read alike everywhere are the same list. -/
theorem ext_read {m m' : Memory} (h : Memory.wf m = true) (h' : Memory.wf m' = true)
    (hr : ∀ a, Memory.read m a = Memory.read m' a) : m = m' := by
  induction m generalizing m' with
  | nil =>
    cases m' with
    | nil => rfl
    | cons b m' =>
      have := hr b.1
      simp only [Memory.read, if_true] at this
      exact absurd this.symm (wf_head h')
  | cons a m ih =>
    have ha : ∀ n : Memory, (∀ c ∈ n, a.1 < c.1) → Memory.read n a.1 = Memory.unwritten :=
      fun n hn => read_unlisted fun c hc => ne_of_gt (hn c hc)
    have hlt := wf_lt h
    cases m' with
    | nil =>
      have := hr a.1
      simp only [Memory.read, if_true] at this
      exact absurd this (wf_head h)
    | cons b m' =>
      have hlt' := wf_lt h'
      have e1 : a.1 = b.1 := by
        rcases lt_trichotomy a.1 b.1 with hab | hab | hab
        · have e := hr a.1
          rw [ha (b :: m') (by
            intro c hc
            rcases List.mem_cons.mp hc with rfl | hc
            · exact hab
            · exact lt_trans hab (hlt' c hc))] at e
          simp only [Memory.read, if_true] at e
          exact absurd e (wf_head h)
        · exact hab
        · have e := hr b.1
          rw [read_unlisted (m := a :: m) (a := b.1) (by
            intro c hc
            rcases List.mem_cons.mp hc with rfl | hc
            · exact ne_of_gt hab
            · exact ne_of_gt (lt_trans hab (hlt c hc)))] at e
          simp only [Memory.read, if_true] at e
          exact absurd e.symm (wf_head h')
      have e2 : a.2 = b.2 := by
        have e := hr a.1
        simpa only [Memory.read, e1, if_true] using e
      have hab : a = b := Prod.ext e1 e2
      subst hab
      refine congrArg (a :: ·) (ih (wf_tail h) (wf_tail h') fun x => ?_)
      by_cases hx : a.1 = x
      · rw [← hx, ha m hlt, ha m' hlt']
      · have e := hr x
        simpa only [Memory.read, hx, if_false] using e

end Memory

/-- The address of a register names its book, page and offset. -/
theorem devAddr_inj {b p o b' p' o' : Byte} (h : devAddr b p o = devAddr b' p' o') :
    b = b' ∧ p = p' ∧ o = o' := by
  unfold devAddr at h
  have := b.isLt; have := p.isLt; have := o.isLt
  have := b'.isLt; have := p'.isLt; have := o'.isLt
  refine ⟨?_, ?_, ?_⟩ <;> apply BitVec.eq_of_toNat_eq <;> omega

/-- One byte write of the device can do four things (R63, log entry 12). -/
theorem Device.writeByte_cases (c : Config) (d : Device) (o : Nat) (y : Byte) :
    (o = c.regPageSelect.toNat ∧ Device.writeByte c d o y = { d with page := y }) ∨
    (o ≠ c.regPageSelect.toNat ∧ o = c.regBookSelect.toNat ∧ d.page = zeroPage ∧
      Device.writeByte c d o y = { d with book := y }) ∨
    (o ≠ c.regPageSelect.toNat ∧ ¬(o = c.regBookSelect.toNat ∧ d.page = zeroPage) ∧ o < 256 ∧
      Device.writeByte c d o y =
        { d with mem := Memory.write d.mem (devAddr d.book d.page (BitVec.ofNat 8 o)) y }) ∨
    (256 ≤ o ∧ Device.writeByte c d o y = d) := by
  unfold Device.writeByte
  split
  · next h => exact .inl ⟨h, rfl⟩
  · next h =>
    split
    · next h' => exact .inr (.inl ⟨h, h'.1, h'.2, rfl⟩)
    · next h' =>
      split
      · next h'' => exact .inr (.inr (.inl ⟨h, h', h'', rfl⟩))
      · next h'' => exact .inr (.inr (.inr ⟨not_lt.mp h'', rfl⟩))

theorem Device.writeByte_wf (c : Config) (d : Device) (o : Nat) (y : Byte)
    (h : Memory.wf d.mem = true) : Memory.wf (Device.writeByte c d o y).mem = true := by
  rcases Device.writeByte_cases c d o y with ⟨_, e⟩ | ⟨_, _, _, e⟩ | ⟨_, _, _, e⟩ | ⟨_, e⟩ <;> rw [e]
  · exact h
  · exact h
  · exact Memory.wf_write h _ _
  · exact h

/-- Every transport write keeps the canonical form of the device's registers. -/
theorem Device.writeBytes_wf (c : Config) (ys : List Byte) (d : Device) (o : Nat)
    (h : Memory.wf d.mem = true) : Memory.wf (Device.writeBytes c d o ys).mem = true := by
  induction ys generalizing d o with
  | nil => exact h
  | cons y ys ih => exact ih _ _ (Device.writeByte_wf c d o y h)

/-- The registers of a fresh device are in canonical form. -/
theorem Device.fresh_wf (c : Config) : Memory.wf (Device.fresh c).mem = true := rfl

/-- The address an ordinary register byte goes to: bytes that miss the select registers are stored in
the active context, which they leave as it is (R63). -/
theorem Device.writeBytes_plain (c : Config) (ys : List Byte) (d : Device) (o : Nat)
    (hp : ∀ j < ys.length, o + j ≠ c.regPageSelect.toNat)
    (hb : ∀ j < ys.length, o + j ≠ c.regBookSelect.toNat) :
    (Device.writeBytes c d o ys).book = d.book ∧ (Device.writeBytes c d o ys).page = d.page ∧
    ∀ b p q, (∀ j < ys.length, (b, p, q) ≠ (d.book, d.page, BitVec.ofNat 8 (o + j))) →
      (Device.writeBytes c d o ys).peek b p q = d.peek b p q := by
  induction ys generalizing d o with
  | nil => exact ⟨rfl, rfl, fun _ _ _ _ => rfl⟩
  | cons y ys ih =>
    have h0p := hp 0 (by simp)
    have h0b := hb 0 (by simp)
    have key : (Device.writeByte c d o y).book = d.book ∧ (Device.writeByte c d o y).page = d.page ∧
        ∀ b p q, (b, p, q) ≠ (d.book, d.page, BitVec.ofNat 8 o) →
          (Device.writeByte c d o y).peek b p q = d.peek b p q := by
      rcases Device.writeByte_cases c d o y with ⟨h, _⟩ | ⟨_, h, _⟩ | ⟨_, _, _, e⟩ | ⟨_, e⟩
      · exact absurd h (by simpa using h0p)
      · exact absurd h (by simpa using h0b)
      · rw [e]
        refine ⟨rfl, rfl, fun b p q hne => Memory.read_write_other _ _ fun ha => hne ?_⟩
        obtain ⟨rfl, rfl, rfl⟩ := devAddr_inj ha
        rfl
      · rw [e]; exact ⟨rfl, rfl, fun _ _ _ _ => rfl⟩
    obtain ⟨kb, kp, kr⟩ := key
    obtain ⟨hb', hp', hr'⟩ := ih (Device.writeByte c d o y) (o + 1)
      (fun j hj => by have := hp (j + 1) (by simpa using hj); omega)
      (fun j hj => by have := hb (j + 1) (by simpa using hj); omega)
    refine ⟨hb'.trans kb, hp'.trans kp, fun b p q hne => ?_⟩
    rw [Device.writeBytes, hr' b p q, kr b p q]
    · simpa using hne 0 (by simp)
    · intro j hj
      have := hne (j + 1) (by simpa using hj)
      rw [kb, kp]
      simpa [Nat.add_assoc, Nat.add_comm 1 j] using this

/-- After a write that misses the select registers and stays within the space, each of its bytes reads
back from its own register (R63, R66). -/
theorem Device.writeBytes_reads (c : Config) (ys : List Byte) (d : Device) (o : Nat)
    (hm : Memory.wf d.mem = true) (hr : o + ys.length ≤ 256)
    (hp : ∀ j < ys.length, o + j ≠ c.regPageSelect.toNat)
    (hb : ∀ j < ys.length, o + j ≠ c.regBookSelect.toNat) :
    ∀ j < ys.length,
      ys[j]? = some ((Device.writeBytes c d o ys).peek d.book d.page (BitVec.ofNat 8 (o + j))) := by
  induction ys generalizing d o with
  | nil => simp
  | cons y ys ih =>
    simp only [List.length_cons] at hr
    have h0p := hp 0 (by simp)
    have h0b := hb 0 (by simp)
    have hp' : ∀ j < ys.length, o + 1 + j ≠ c.regPageSelect.toNat := fun j hj => by
      have := hp (j + 1) (by simpa using hj); omega
    have hb' : ∀ j < ys.length, o + 1 + j ≠ c.regBookSelect.toNat := fun j hj => by
      have := hb (j + 1) (by simpa using hj); omega
    have e : Device.writeByte c d o y =
        { d with mem := Memory.write d.mem (devAddr d.book d.page (BitVec.ofNat 8 o)) y } := by
      rcases Device.writeByte_cases c d o y with ⟨h, _⟩ | ⟨_, h, _⟩ | ⟨_, _, _, e⟩ | ⟨h, _⟩
      · exact absurd h (by simpa using h0p)
      · exact absurd h (by simpa using h0b)
      · exact e
      · omega
    rintro (_ | j) hj
    · rw [Device.writeBytes, (Device.writeBytes_plain c ys _ (o + 1) hp' hb').2.2, e]
      · simp [Device.peek, Memory.read_write_same hm]
      · intro j hj he
        have h3 := congrArg (fun t : Byte × Byte × Byte => t.2.2.toNat) he
        simp only [Nat.add_zero, BitVec.toNat_ofNat] at h3
        rw [Nat.mod_eq_of_lt (by omega), Nat.mod_eq_of_lt (by omega)] at h3
        omega
    · have := ih (Device.writeByte c d o y) (o + 1) (Device.writeByte_wf c d o y hm) (by omega) hp' hb'
        j (by simpa using hj)
      rw [e] at this
      rw [List.getElem?_cons_succ, this, Device.writeBytes, e, Nat.add_assoc, Nat.add_comm 1 j]

end Sys2Proof.Machine
end

