-- ==== Sys2Proof/Laws/Transport.lean ====
section
/-! SUPPORT. Everything a transport call, a run of writes and a transaction can do, said once: what a
call can answer, what every call and warning keeps (packaged as one induction over runs of writes and
transactions), and the outcome of an operation that calls the transport. -/

namespace Sys2Proof.Machine

/-! ## One call -/

/-- What a transport write can do (R61, R63, R321). -/
theorem tWrite_cases (c : Config) (o : Byte) (ys : List Byte) (b : Bus) :
    (b.stuck = true ∧ tWrite c o ys b = (.err 0, b)) ∨
    (b.stuck = false ∧ b.nextDraw = .hangs ∧
      tWrite c o ys b = (.err 0, { b with stuck := true })) ∨
    (b.stuck = false ∧ ∃ drawn, b.nextDraw = .returns (.ok drawn) ∧
      tWrite c o ys b = (.ok, { b.advance.log (.w o ys .ok) with
        dev := Device.writeBytes c b.dev o.toNat ys })) ∨
    (b.stuck = false ∧ ∃ code landed, b.nextDraw = .returns (.err code landed) ∧
      tWrite c o ys b = (.err code.toByte, { b.advance.log (.w o ys (.err code.toByte)) with
        dev := Device.writeBytes c b.dev o.toNat (ys.take landed) })) := by
  unfold tWrite
  cases hs : b.stuck with
  | true => simp
  | false =>
    cases hd : b.nextDraw with
    | hangs => simp
    | returns a => cases a <;> simp

/-- What a transport read can do (R61, R63, R321). -/
theorem tRead_cases (o : Byte) (n : Nat) (b : Bus) :
    (b.stuck = true ∧ tRead o n b = (.err 0, b)) ∨
    (b.stuck = false ∧ b.nextDraw = .hangs ∧
      tRead o n b = (.err 0, { b with stuck := true })) ∨
    (b.stuck = false ∧ ∃ drawn, b.nextDraw = .returns (.ok drawn) ∧
      tRead o n b = (.ok (readBytes b.drawNo n drawn),
        b.advance.log (.r o n (.ok (readBytes b.drawNo n drawn))))) ∨
    (b.stuck = false ∧ ∃ code landed, b.nextDraw = .returns (.err code landed) ∧
      tRead o n b = (.err code.toByte, b.advance.log (.r o n (.err code.toByte)))) := by
  unfold tRead
  cases hs : b.stuck with
  | true => simp
  | false =>
    cases hd : b.nextDraw with
    | hangs => simp
    | returns a => cases a <;> simp

/-- A read gives exactly the bytes asked for (R61, R322). -/
@[simp] theorem readBytes_length (call n : Nat) (drawn : List Byte) :
    (readBytes call n drawn).length = n := by
  simp [readBytes]

/-- A draw of exactly the bytes asked for is what a read gives. -/
theorem readBytes_exact (call : Nat) (drawn : List Byte) :
    readBytes call drawn.length drawn = drawn := by
  apply List.ext_getElem
  · simp
  · intro j h1 h2
    simp [readBytes, List.getElem?_eq_getElem h2]

theorem readBytes_four (call : Nat) (y0 y1 y2 y3 : Byte) :
    readBytes call 4 [y0, y1, y2, y3] = [y0, y1, y2, y3] :=
  readBytes_exact call [y0, y1, y2, y3]

/-! ## What every run of calls keeps -/

/-- A property that every transport write and every warning keeps. -/
structure BusInvariant (c : Config) (P : Bus → Prop) : Prop where
  write : ∀ o ys b, P b → P (tWrite c o ys b).2
  warn  : ∀ w b, P b → P (b.warn w)

namespace BusInvariant

variable {c : Config} {P : Bus → Prop}

theorem writeOrWarn (h : BusInvariant c P) (o : Byte) (ys : List Byte) (b : Bus) (hb : P b) :
    P (Machine.writeOrWarn c o ys b).2 := by
  have hw := h.write o ys b hb
  unfold Machine.writeOrWarn
  rcases hp : tWrite c o ys b with ⟨r, b'⟩
  rw [hp] at hw
  cases r with
  | ok => exact hw
  | err code => exact h.warn _ _ hw

theorem andThen {p : Result × Bus} {k : Bus → Result × Bus} (hp : P p.2)
    (hk : ∀ b, P b → P (k b).2) : P (Machine.andThen p k).2 := by
  unfold Machine.andThen
  split
  · exact hk _ hp
  · exact hp

theorem writeAll (h : BusInvariant c P) (ws : List (Byte × List Byte)) (b : Bus) (hb : P b) :
    P (Machine.writeAll c ws b).2 := by
  induction ws generalizing b with
  | nil => exact hb
  | cons w ws ih => exact andThen (h.writeOrWarn _ _ _ hb) ih

theorem selectContext (h : BusInvariant c P) (book page : Byte) (b : Bus) (hb : P b) :
    P (Machine.selectContext c book page b).2 :=
  h.writeAll _ b hb

theorem applyLoop (h : BusInvariant c P) (ds : List Descriptor) (ctx : Option (Byte × Byte))
    (b : Bus) (hb : P b) : P (Machine.applyLoop c ctx ds b).2 := by
  induction ds generalizing ctx b with
  | nil => exact hb
  | cons d ds ih =>
    refine andThen (andThen ?_ fun b hb => h.writeOrWarn _ _ b hb) fun b hb => ih _ b hb
    split
    · exact hb
    · exact h.selectContext _ _ b hb

theorem transaction (h : BusInvariant c P) (ds : List Descriptor) (b : Bus) (hb : P b) :
    P (Machine.transaction c ds b).2 := by
  unfold Machine.transaction
  split
  · split
    · exact hb
    · exact h.selectContext _ _ _ (h.applyLoop _ _ _ hb)
  · exact hb

theorem settingWrite (h : BusInvariant c P) (record : Result → Warning) (ds : List Descriptor)
    (b : Bus) (hb : P b) : P (Machine.settingWrite c record ds b).2 := by
  unfold Machine.settingWrite
  dsimp only
  split
  · exact h.transaction _ _ hb
  · exact h.warn _ _ (h.transaction _ _ hb)

end BusInvariant

theorem Bus.nextDraw_ne_hangs {b : Bus} (h : b.returns = true) : b.nextDraw ≠ .hangs := by
  unfold Bus.returns at h
  unfold Bus.nextDraw
  cases hd : b.draws with
  | nil => simp
  | cons d ds => simp [hd] at h; simpa using h.2.1

theorem Bus.returns_stuck {b : Bus} (h : b.returns = true) : b.stuck = false := by
  unfold Bus.returns at h
  simp at h
  exact h.1

theorem Bus.returns_of_tail {b b' : Bus} (h : b.returns = true) (hs : b'.stuck = b.stuck)
    (hd : b'.draws = b.draws.tail) : b'.returns = true := by
  unfold Bus.returns at h ⊢
  rw [hs, hd]
  cases hb : b.draws with
  | nil => simpa [hb] using h
  | cons d ds => simp [hb] at h ⊢; exact ⟨h.1, h.2.2⟩

/-- Where every draw returns, no run of calls gets stuck, and the draws left still return (R322). -/
theorem returns_invariant (c : Config) : BusInvariant c fun b => b.returns = true where
  write o ys b hb := by
    rcases tWrite_cases c o ys b with ⟨h, _⟩ | ⟨_, h, _⟩ | ⟨_, _, _, e⟩ | ⟨_, _, _, _, e⟩
    · simp [Bus.returns_stuck hb] at h
    · exact absurd h (Bus.nextDraw_ne_hangs hb)
    · rw [e]; exact Bus.returns_of_tail hb rfl rfl
    · rw [e]; exact Bus.returns_of_tail hb rfl rfl
  warn _ _ hb := hb

/-- The history only grows (R33, R77). -/
theorem hist_invariant (c : Config) (h : List Entry) :
    BusInvariant c fun b => h <+: b.hist where
  write o ys b hb := by
    rcases tWrite_cases c o ys b with ⟨_, e⟩ | ⟨_, _, e⟩ | ⟨_, _, _, e⟩ | ⟨_, _, _, _, e⟩ <;> rw [e]
    · exact hb
    · exact hb
    · exact hb.trans (List.prefix_append _ _)
    · exact hb.trans (List.prefix_append _ _)
  warn _ _ hb := hb.trans (List.prefix_append _ _)

/-- The reference device's registers stay in canonical form. -/
theorem memory_invariant (c : Config) : BusInvariant c fun b => Memory.wf b.dev.mem = true where
  write o ys b hb := by
    rcases tWrite_cases c o ys b with ⟨_, e⟩ | ⟨_, _, e⟩ | ⟨_, _, _, e⟩ | ⟨_, _, _, _, e⟩ <;> rw [e]
    · exact hb
    · exact hb
    · exact Device.writeBytes_wf c _ _ _ hb
    · exact Device.writeBytes_wf c _ _ _ hb
  warn _ _ hb := hb

/-- What a run of writes can end with (R190, R191, R260): `OK`, or a transport error. -/
def WriteOutcome (r : Result) : Prop := r = .ok ∨ ∃ code, r = .transportError code

theorem writeOrWarn_outcome (c : Config) (o : Byte) (ys : List Byte) (b : Bus) :
    WriteOutcome (writeOrWarn c o ys b).1 := by
  unfold writeOrWarn
  rcases tWrite c o ys b with ⟨r, b'⟩
  cases r with
  | ok => exact .inl rfl
  | err code => exact .inr ⟨code, rfl⟩

theorem andThen_outcome {p : Result × Bus} {k : Bus → Result × Bus} (hp : WriteOutcome p.1)
    (hk : ∀ b, WriteOutcome (k b).1) : WriteOutcome (andThen p k).1 := by
  unfold andThen
  split
  · exact hk _
  · exact hp

theorem writeAll_outcome (c : Config) (ws : List (Byte × List Byte)) (b : Bus) :
    WriteOutcome (writeAll c ws b).1 := by
  induction ws generalizing b with
  | nil => exact .inl rfl
  | cons w ws ih => exact andThen_outcome (writeOrWarn_outcome c _ _ b) ih

theorem applyLoop_outcome (c : Config) (ds : List Descriptor) (ctx : Option (Byte × Byte))
    (b : Bus) : WriteOutcome (applyLoop c ctx ds b).1 := by
  induction ds generalizing ctx b with
  | nil => exact .inl rfl
  | cons d ds ih =>
    refine andThen_outcome (andThen_outcome ?_ fun b => writeOrWarn_outcome c _ _ b) fun b => ih _ b
    split
    · exact .inl rfl
    · exact writeAll_outcome c _ b

/-! ## The outcome of an operation that calls the transport -/

/-- Ending an operation whose calls all return. -/
theorem conclude_of_returns {s t : State} (h : s.bus.returns = true) : conclude s t = .next t := by
  simp [conclude, h]

/-- `conclude` is the test for a call that never returned: its first test is redundant wherever the
operation keeps `returns`, as every run of calls does (`returns_invariant`). -/
theorem conclude_eq {s t : State} (h : s.bus.returns = true → t.bus.stuck = false) :
    conclude s t = if t.bus.stuck then .fault .transportNeverReturned else .next t := by
  unfold conclude
  split
  · next hr => simp [h hr]
  · rfl

theorem conclude_next {s t u : State} (h : conclude s t = .next u) : u = t := by
  unfold conclude at h
  split at h
  · exact (Host.Outcome.next.inj h).symm
  · split at h
    · cases h
    · exact (Host.Outcome.next.inj h).symm

theorem conclude_fault {s t : State} {f : Fault} (h : conclude s t = .fault f) :
    s.bus.returns = false ∧ f = .transportNeverReturned := by
  unfold conclude at h
  split at h
  · cases h
  · next hr => exact ⟨by simpa using hr, rfl⟩

theorem conclude_not_refused {s t : State} {r : Refusal} : conclude s t ≠ .refused r := by
  unfold conclude
  intro h
  split at h
  · cases h
  · split at h <;> cases h

theorem gated_failed {s : State} {run : Host.Outcome State Fault Refusal} (h : s.failed = true) :
    gated s run = .next (s.deliver .deviceFailed) := by
  simp [gated, h, answer]

@[simp] theorem gated_running {s : State} {run : Host.Outcome State Fault Refusal}
    (h : s.failed = false) : gated s run = run := by
  simp [gated, h]

end Sys2Proof.Machine
end

