-- ==== Sys2Proof/Laws/Sequencer.lean ====
section
/-! SUPPORT. The sequencer's traces: a run of writes that all succeed, a run that fails at write k, and
the transaction as one run of writes followed by the restore (R190 to R195). -/

namespace Sys2Proof.Machine

/-! ## Premises about the draws -/

theorem Bus.NextSucceed.mono {b : Bus} {m n : Nat} (h : b.NextSucceed n) (hm : m ≤ n) :
    b.NextSucceed m := by
  refine ⟨h.1, hm.trans h.2.1, ?_⟩
  have := h.2.2
  simp only [List.all_eq_true] at this ⊢
  exact fun d hd => this d ((List.take_prefix_take_left hm).subset hd)

theorem Bus.NextSucceed.head {b : Bus} {n : Nat} (h : b.NextSucceed (n + 1)) :
    ∃ ys, b.nextDraw = .returns (.ok ys) := by
  obtain ⟨_, hl, ha⟩ := h
  cases hd : b.draws with
  | nil => simp [hd] at hl
  | cons d ds =>
    simp only [hd, List.take_succ_cons, List.all_cons, Bool.and_eq_true] at ha
    simp only [Bus.nextDraw, hd]
    cases d with
    | hangs => simp [Draw.succeeds] at ha
    | returns a =>
      cases a with
      | ok ys => exact ⟨ys, rfl⟩
      | err c l => simp [Draw.succeeds] at ha

theorem Bus.NextSucceed.tail {b b' : Bus} {n : Nat} (h : b.NextSucceed (n + 1))
    (hs : b'.stuck = b.stuck) (hd : b'.draws = b.draws.tail) : b'.NextSucceed n := by
  obtain ⟨h1, hl, ha⟩ := h
  refine ⟨hs.trans h1, ?_, ?_⟩
  · rw [hd]; simp; omega
  · rw [hd]
    cases hb : b.draws with
    | nil => simp
    | cons d ds =>
      simp only [hb, List.take_succ_cons, List.all_cons, Bool.and_eq_true] at ha
      exact ha.2

theorem Bus.NextFailAt.tail {b b' : Bus} {k : Nat} {code : BusCode} {landed : Nat}
    (h : b.NextFailAt (k + 1) code landed)
    (hs : b'.stuck = b.stuck) (hd : b'.draws = b.draws.tail) : b'.NextFailAt k code landed := by
  refine ⟨h.1.tail hs hd, ?_⟩
  have h2 := h.2
  rw [hd]
  cases hb : b.draws with
  | nil => simp [hb] at h2
  | cons d ds => simpa [hb] using h2

/-! ## Runs of writes -/

theorem tWrite_success {c : Config} {b : Bus} {ys : List Byte} (o : Byte) (h : b.NextSucceed 1) :
    tWrite c o ys b = (.ok, b.afterWrites c [(o, ys)]) := by
  obtain ⟨drawn, hd⟩ := h.head
  rcases tWrite_cases c o ys b with ⟨hs, _⟩ | ⟨_, hh, _⟩ | ⟨_, _, _, e⟩ | ⟨_, _, _, hh, _⟩
  · simp [h.1] at hs
  · simp [hd] at hh
  · rw [e]
    simp [Bus.afterWrites, okEntries, Device.afterWrites, Bus.advance, Bus.log, List.drop_one]
  · simp [hd] at hh

theorem writeOrWarn_success {c : Config} {b : Bus} {ys : List Byte} (o : Byte)
    (h : b.NextSucceed 1) : writeOrWarn c o ys b = (.ok, b.afterWrites c [(o, ys)]) := by
  simp [writeOrWarn, tWrite_success o h]

theorem writeOrWarn_failure {c : Config} {b : Bus} {o : Byte} {ys : List Byte} {code : BusCode}
    {landed : Nat} (h : b.NextFailAt 0 code landed) :
    writeOrWarn c o ys b = (.transportError code.toByte, b.afterFailure c (o, ys) code landed) := by
  have hd : b.nextDraw = .returns (.err code landed) := by
    have := h.2
    cases hb : b.draws with
    | nil => simp [hb] at this
    | cons d ds => simpa [hb, Bus.nextDraw] using this
  rcases tWrite_cases c o ys b with ⟨hs, _⟩ | ⟨_, hh, _⟩ | ⟨_, _, hh, _⟩ | ⟨_, _, _, hh, e⟩
  · simp [h.1.1] at hs
  · simp [hd] at hh
  · simp [hd] at hh
  · obtain ⟨rfl, rfl⟩ : code = _ ∧ landed = _ := by simpa [hd] using hh
    simp [writeOrWarn, e, Bus.afterFailure, failEntries, Bus.advance, Bus.log, Bus.warn,
      List.drop_one]

@[simp] theorem Bus.afterWrites_nil (c : Config) (b : Bus) : b.afterWrites c [] = b := by
  simp [Bus.afterWrites, okEntries, Device.afterWrites]

theorem Bus.afterWrites_append (c : Config) (b : Bus) (xs ys : List (Byte × List Byte)) :
    (b.afterWrites c xs).afterWrites c ys = b.afterWrites c (xs ++ ys) := by
  simp [Bus.afterWrites, okEntries, Device.afterWrites, List.drop_drop, Nat.add_assoc]

theorem andThen_ok (b : Bus) (k : Bus → Result × Bus) : andThen (.ok, b) k = k b := rfl

theorem andThen_error (code : Byte) (b : Bus) (k : Bus → Result × Bus) :
    andThen (.transportError code, b) k = (.transportError code, b) := rfl

theorem andThen_assoc (p : Result × Bus) (k l : Bus → Result × Bus) :
    andThen (andThen p k) l = andThen p fun b => andThen (k b) l := by
  unfold andThen
  by_cases h : p.1.status = .ok <;> simp [h]

theorem writeAll_append (c : Config) (xs ys : List (Byte × List Byte)) (b : Bus) :
    writeAll c (xs ++ ys) b = andThen (writeAll c xs b) (writeAll c ys) := by
  induction xs generalizing b with
  | nil => rfl
  | cons x xs ih =>
    simp only [List.cons_append, writeAll, andThen_assoc]
    congr 1
    funext b'
    exact ih b'

/-- A run of writes that all succeed. -/
theorem writeAll_success {c : Config} (ws : List (Byte × List Byte)) {b : Bus}
    (h : b.NextSucceed ws.length) : writeAll c ws b = (.ok, b.afterWrites c ws) := by
  induction ws generalizing b with
  | nil => simp [writeAll]
  | cons w ws ih =>
    have h1 : b.NextSucceed 1 := h.mono (by simp)
    rw [writeAll, writeOrWarn_success _ h1, andThen_ok, ih, Bus.afterWrites_append]
    · rfl
    · exact h.tail rfl (by simp [Bus.afterWrites, List.drop_one])

/-- A run of writes whose write k is the first to fail: the ones after it are not issued (R190, R192,
R260). -/
theorem writeAll_failure {c : Config} {ws : List (Byte × List Byte)} {b : Bus} {k : Nat}
    {w : Byte × List Byte} {code : BusCode} {landed : Nat} (hk : ws[k]? = some w)
    (h : b.NextFailAt k code landed) :
    writeAll c ws b = (.transportError code.toByte,
      (b.afterWrites c (ws.take k)).afterFailure c w code landed) := by
  induction k generalizing ws b with
  | zero =>
    cases ws with
    | nil => simp at hk
    | cons x xs =>
      obtain rfl : x = w := by simpa using hk
      rw [writeAll, writeOrWarn_failure h, andThen_error]
      simp
  | succ k ih =>
    cases ws with
    | nil => simp at hk
    | cons x xs =>
      have h1 : b.NextSucceed 1 := h.1.mono (by omega)
      rw [writeAll, writeOrWarn_success _ h1, andThen_ok, ih (by simpa using hk),
        Bus.afterWrites_append]
      · rfl
      · exact h.tail rfl (by simp [Bus.afterWrites, List.drop_one])

/-! ## The transaction -/

/-- The loop of APPLY is one run of writes (R191). -/
theorem applyLoop_eq_writeAll (c : Config) (ds : List Descriptor) (ctx : Option (Byte × Byte))
    (b : Bus) : applyLoop c ctx ds b = writeAll c (runWrites c ctx ds) b := by
  induction ds generalizing ctx b with
  | nil => rfl
  | cons d ds ih =>
    have hsingle : ∀ b, writeAll c [(d.offset, d.payload)] b = writeOrWarn c d.offset d.payload b := by
      intro b
      simp only [writeAll, andThen]
      rcases writeOrWarn_outcome c d.offset d.payload b with h | ⟨code, h⟩ <;> simp [h]
      exact (Prod.ext h.symm rfl)
    have hrest : applyLoop c (some (d.book, d.page)) ds =
        writeAll c (runWrites c (some (d.book, d.page)) ds) := by
      funext b; exact ih _ b
    rw [applyLoop, runWrites, writeAll_append, writeAll_append, hrest]
    congr 1
    split
    · simp only [andThen_ok, writeAll]; exact (hsingle b).symm
    · rw [selectContext]
      congr 1
      funext b'
      exact (hsingle b').symm

theorem preambleWrites_length (c : Config) (book page : Byte) :
    (preambleWrites c book page).length = 3 := rfl

theorem restoreWrites_length (c : Config) : (restoreWrites c).length = 3 := rfl

/-- The number of writes before the restore (R195): 3p + k. -/
theorem runWrites_length (c : Config) (ds : List Descriptor) (ctx : Option (Byte × Byte)) :
    (runWrites c ctx ds).length = 3 * contextChanges ctx ds + ds.length := by
  induction ds generalizing ctx with
  | nil => rfl
  | cons d ds ih =>
    simp only [runWrites, contextChanges, List.length_append, List.length_cons, List.length_nil, ih]
    split <;> simp [preambleWrites_length] <;> omega

/-- One successful transaction (R191, R195). -/
theorem transaction_success {c : Config} {ds : List Descriptor} {b : Bus}
    (hw : ds.all (Descriptor.wellFormed c) = true)
    (h : b.NextSucceed (transactionWrites c ds).length) :
    transaction c ds b = (.ok, b.afterWrites c (transactionWrites c ds)) := by
  unfold transaction transactionWrites at *
  rw [if_pos hw]
  cases hd : ds.isEmpty with
  | true => simp
  | false =>
    simp only [hd, Bool.false_eq_true, if_false, List.length_append] at h ⊢
    have h1 : b.NextSucceed (runWrites c none ds).length := h.mono (by omega)
    have h2 : (b.afterWrites c (runWrites c none ds)).NextSucceed (restoreWrites c).length := by
      refine ⟨h.1, ?_, ?_⟩
      · have := h.2.1; simp [Bus.afterWrites]; omega
      · have := h.2.2
        rw [List.take_add, List.all_append, Bool.and_eq_true] at this
        exact this.2
    rw [applyLoop_eq_writeAll, writeAll_success _ h1]
    simp only [restoreContext, selectContext]
    rw [show preambleWrites c c.ctrlBook zeroPage = restoreWrites c from rfl,
      writeAll_success _ h2, Bus.afterWrites_append]
    rfl

/-- A transaction refused before any I/O (R194). -/
theorem transaction_invalid {c : Config} {ds : List Descriptor} (b : Bus)
    (hw : ds.all (Descriptor.wellFormed c) = false) :
    transaction c ds b = (.validationError, b) := by
  simp [transaction, hw]

/-- The transaction of an empty list (R191). -/
@[simp] theorem transaction_nil (c : Config) (b : Bus) : transaction c [] b = (.ok, b) := rfl

end Sys2Proof.Machine
end

