-- ==== Sys2Proof/Laws/Settings.lean ====
section
/-! SUPPORT. What a transaction and a setting's write do when a call fails (R192, R193, R218), and what a
well-formed configuration gives them to write: the table's cells (R180, R183) and the mixer's four
descriptors (R221). -/

namespace Sys2Proof.Machine

@[simp] theorem Bus.afterWrites_stuck (c : Config) (b : Bus) (ws : List (Byte × List Byte)) :
    (b.afterWrites c ws).stuck = b.stuck := rfl

@[simp] theorem Bus.afterWrites_hist (c : Config) (b : Bus) (ws : List (Byte × List Byte)) :
    (b.afterWrites c ws).hist = b.hist ++ okEntries ws := rfl

@[simp] theorem Bus.afterWrites_draws (c : Config) (b : Bus) (ws : List (Byte × List Byte)) :
    (b.afterWrites c ws).draws = b.draws.drop ws.length := rfl

@[simp] theorem Bus.afterFailure_stuck (c : Config) (b : Bus) (w : Byte × List Byte) (code : BusCode)
    (landed : Nat) : (b.afterFailure c w code landed).stuck = b.stuck := rfl

/-- An operation whose last call has returned ends in a next state, whatever the script still holds. -/
theorem conclude_running {s t : State} (h : t.bus.stuck = false) : conclude s t = .next t := by
  unfold conclude
  split
  · rfl
  · simp [h]

/-- Successes in store after a first part of them has been used. -/
theorem Bus.NextSucceed.drop {b : Bus} {m n : Nat} (h : b.NextSucceed (m + n)) {c : Config}
    {ws : List (Byte × List Byte)} (hw : ws.length = m) : (b.afterWrites c ws).NextSucceed n := by
  refine ⟨h.1, ?_, ?_⟩
  · have := h.2.1; simp; omega
  · have := h.2.2
    rw [List.take_add, List.all_append, Bool.and_eq_true] at this
    rw [Bus.afterWrites_draws, hw]
    exact this.2

/-- A failure in store after the successes before it have been used. -/
theorem Bus.NextFailAt.drop {b : Bus} {m k : Nat} {code : BusCode} {landed : Nat}
    (h : b.NextFailAt (m + k) code landed) {c : Config} {ws : List (Byte × List Byte)}
    (hw : ws.length = m) : (b.afterWrites c ws).NextFailAt k code landed :=
  ⟨h.1.drop hw, by rw [Bus.afterWrites_draws, hw, List.getElem?_drop]; exact h.2⟩

/-! ## The restore -/

/-- A restore that succeeds leaves the result of the writes before it (R193). -/
theorem restoreContext_success {c : Config} (code : Byte) {b : Bus} (h : b.NextSucceed 3) :
    restoreContext c (.transportError code, b) =
      (.transportError code, b.afterWrites c (restoreWrites c)) := by
  have e : selectContext c c.ctrlBook zeroPage b = (.ok, b.afterWrites c (restoreWrites c)) :=
    writeAll_success (restoreWrites c) h
  simp [restoreContext, e]

/-- A restore that fails after failed writes: the first failure is returned (R193). -/
theorem restoreContext_second_failure {c : Config} (code : Byte) {b : Bus} {j : Nat}
    {r : Byte × List Byte} {code' : BusCode} {landed : Nat} (hj : (restoreWrites c)[j]? = some r)
    (h : b.NextFailAt j code' landed) :
    restoreContext c (.transportError code, b) =
      (.transportError code,
        (b.afterWrites c ((restoreWrites c).take j)).afterFailure c r code' landed) := by
  have e : selectContext c c.ctrlBook zeroPage b = (.transportError code'.toByte,
      (b.afterWrites c ((restoreWrites c).take j)).afterFailure c r code' landed) :=
    writeAll_failure hj h
  simp [restoreContext, e]

/-- A restore that fails after successful writes: its failure is returned (R193). -/
theorem restoreContext_first_failure {c : Config} {b : Bus} {j : Nat} {r : Byte × List Byte}
    {code : BusCode} {landed : Nat} (hj : (restoreWrites c)[j]? = some r)
    (h : b.NextFailAt j code landed) :
    restoreContext c (.ok, b) = (.transportError code.toByte,
      (b.afterWrites c ((restoreWrites c).take j)).afterFailure c r code landed) := by
  have e : selectContext c c.ctrlBook zeroPage b = (.transportError code.toByte,
      (b.afterWrites c ((restoreWrites c).take j)).afterFailure c r code landed) :=
    writeAll_failure hj h
  simp [restoreContext, e]

/-! ## The transaction of a non-empty list -/

/-- The transaction of a valid, non-empty list: one run of writes and the restore (R191). -/
theorem transaction_eq {c : Config} {ds : List Descriptor} (b : Bus)
    (hw : ds.all (Descriptor.wellFormed c) = true) (hne : ds ≠ []) :
    transaction c ds b = restoreContext c (writeAll c (runWrites c none ds) b) := by
  have : ds.isEmpty = false := by simpa using hne
  simp [transaction, hw, this, applyLoop_eq_writeAll]

/-- A transaction whose write k, before the restore, is the first to fail (R192). -/
theorem transaction_failure {c : Config} {ds : List Descriptor} {b : Bus}
    (hw : ds.all (Descriptor.wellFormed c) = true) {k : Nat} {w : Byte × List Byte}
    {code : BusCode} {landed : Nat} (hk : (runWrites c none ds)[k]? = some w)
    (h : b.NextFailAt k code landed) :
    transaction c ds b = restoreContext c (.transportError code.toByte,
      (b.afterWrites c ((runWrites c none ds).take k)).afterFailure c w code landed) := by
  have hne : ds ≠ [] := by rintro rfl; simp [runWrites] at hk
  rw [transaction_eq b hw hne, writeAll_failure hk h]

/-! ## A setting's write -/

theorem settingWrite_success {c : Config} (record : Result → Warning) {ds : List Descriptor} {b : Bus}
    (hw : ds.all (Descriptor.wellFormed c) = true)
    (h : b.NextSucceed (transactionWrites c ds).length) :
    settingWrite c record ds b = (.ok, b.afterWrites c (transactionWrites c ds)) := by
  simp [settingWrite, transaction_success hw h]

/-- A failed transaction, whether a write before the restore fails, or the restore, or both: its result
and what it leaves (R192, R193). -/
theorem FailedTransaction.transaction_eq {c : Config} {ds : List Descriptor} {b b' : Bus}
    {code : BusCode} (hw : ds.all (Descriptor.wellFormed c) = true)
    (h : FailedTransaction c ds b code b') :
    transaction c ds b = (.transportError code.toByte, b') := by
  cases h with
  | write k w code landed hk h hr =>
    rw [transaction_failure hw hk h, restoreContext_success _ hr]
  | writeAndRestore k w code landed hk h j r code' landed' hj hr =>
    rw [transaction_failure hw hk h, restoreContext_second_failure _ hj hr]
  | restore hne j r code landed hj h =>
    rw [Machine.transaction_eq b hw hne, writeAll_success _ (h.1.mono (Nat.le_add_right _ _)),
      restoreContext_first_failure hj (h.drop rfl), Bus.afterWrites_append]

/-- A failed transaction ends with every call returned. -/
theorem FailedTransaction.running {c : Config} {ds : List Descriptor} {b b' : Bus} {code : BusCode}
    (h : FailedTransaction c ds b code b') : b'.stuck = false := by
  cases h with
  | write k w code landed hk h hr => exact h.1.1
  | writeAndRestore k w code landed hk h j r code' landed' hj hr => exact h.1.1
  | restore hne j r code landed hj h => exact h.1.1

/-- A setting's write that fails (R218, R219, R220): the caller's record follows the sequencer's. -/
theorem FailedTransaction.settingWrite_eq {c : Config} (record : Result → Warning)
    {ds : List Descriptor} {b b' : Bus} {code : BusCode}
    (hw : ds.all (Descriptor.wellFormed c) = true) (h : FailedTransaction c ds b code b') :
    settingWrite c record ds b =
      (.transportError code.toByte, b'.warn (record (.transportError code.toByte))) := by
  simp [settingWrite, h.transaction_eq hw]

/-! ## What a well-formed configuration holds -/

/-- A configuration's well-formedness, part by part (R302). -/
theorem Config.wf_parts {c : Config} (h : c.wf = true) :
    gainsWellFormed c = true ∧ 1 ≤ c.bandBlockBytes ∧ lutWellFormed c = true ∧
    mixerWellFormed c = true ∧ 1 ≤ c.settleThreshold ∧ oneBitSet c.clockFaultMask = true ∧
    c.regPageSelect ≠ c.regBookSelect ∧ 0 ≤ c.designEps ∧
    (c.initSeq.all fun w => !w.2.isEmpty) = true := by
  simpa only [Config.wf, Bool.and_eq_true, decide_eq_true_eq, and_assoc] using h

/-- A cell's descriptors are well-formed (R183). -/
theorem cellWellFormed_all {c : Config} {ds : List Descriptor} (h : cellWellFormed c ds = true) :
    ds ≠ [] ∧ ds.all (Descriptor.wellFormed c) = true := by
  simp only [cellWellFormed, Bool.and_eq_true, Bool.not_eq_true', List.isEmpty_eq_false_iff] at h
  exact ⟨h.1.1.1.1.1, h.1.1.1.1.2⟩

theorem gainInRange_iff {c : Config} {g : Byte} :
    gainInRange c g = true ↔ -(c.eqMaxGainDb : ℤ) ≤ g.toInt ∧ g.toInt ≤ (c.eqMaxGainDb : ℤ) := by
  rw [gainInRange, gainOf, Bool.and_eq_true, decide_eq_true_iff, decide_eq_true_iff]

/-- A validated table access falls in the table (R180, R182, R216). -/
theorem lutCell_exists {c : Config} (hc : c.wf = true) {band : Nat} {g : Byte}
    (hb : band < c.bandCount) (hg : gainInRange c g = true) :
    ∃ column cell, c.lut[band]? = some column ∧
      column[(g.toInt + (c.eqMaxGainDb : ℤ)).toNat]? = some cell ∧
      lutCell c band (rowOf c g) = cell ∧ cellWellFormed c cell = true := by
  obtain ⟨_, _, hl, _⟩ := Config.wf_parts hc
  simp only [lutWellFormed, Bool.and_eq_true, decide_eq_true_eq, List.all_eq_true] at hl
  obtain ⟨hlen, hcols⟩ := hl
  have h1 : band < c.lut.length := by omega
  obtain ⟨hcl, hcells⟩ := hcols _ (List.getElem_mem h1)
  obtain ⟨hg1, hg2⟩ := gainInRange_iff.1 hg
  have h2 : (g.toInt + (c.eqMaxGainDb : ℤ)).toNat < c.lut[band].length := by omega
  refine ⟨_, _, List.getElem?_eq_getElem h1, List.getElem?_eq_getElem h2, ?_,
    hcells _ (List.getElem_mem h2)⟩
  simp [lutCell, rowOf, gainOf, List.getElem?_eq_getElem h1, List.getElem?_eq_getElem h2]

/-- A validated mode has its four cells, whose descriptors are well-formed (R4, R221). -/
theorem mixerDescriptors_exists {c : Config} (hc : c.wf = true) {mode : Nat}
    (hm : mode < c.mixerModeCount) :
    ∃ q, c.mixerCell[mode]? = some q ∧
      mixerDescriptors c mode =
        [mixerDescriptor c c.mixerOffset.ll q.ll, mixerDescriptor c c.mixerOffset.rr q.rr,
         mixerDescriptor c c.mixerOffset.lr q.lr, mixerDescriptor c c.mixerOffset.rl q.rl] ∧
      (mixerDescriptors c mode).all (Descriptor.wellFormed c) = true := by
  obtain ⟨_, _, _, hx, _⟩ := Config.wf_parts hc
  simp only [mixerWellFormed, Bool.and_eq_true, decide_eq_true_eq] at hx
  have h1 : mode < c.mixerCell.length := by omega
  refine ⟨_, List.getElem?_eq_getElem h1, ?_, ?_⟩
  · simp [mixerDescriptors, List.getElem?_eq_getElem h1]
  · exact List.all_eq_true.1 hx.2 mode (List.mem_range.2 hm)

/-- The ten writes of the mixer's transaction (R215, R221). -/
theorem transactionWrites_mixer {c : Config} {mode : Nat} {q : MixerQuad Word}
    (hq : c.mixerCell[mode]? = some q) :
    transactionWrites c (mixerDescriptors c mode) =
      preambleWrites c c.mixerBook c.mixerPage ++
      [(c.mixerOffset.ll, wire (encCore c.nanWord fmt923 (f32Value q.ll))),
       (c.mixerOffset.rr, wire (encCore c.nanWord fmt923 (f32Value q.rr))),
       (c.mixerOffset.lr, wire (encCore c.nanWord fmt923 (f32Value q.lr))),
       (c.mixerOffset.rl, wire (encCore c.nanWord fmt923 (f32Value q.rl)))] ++ restoreWrites c := by
  simp [transactionWrites, mixerDescriptors, hq, runWrites, mixerDescriptor]

/-! ## The result of a run of calls -/

/-- A stuck bus stays stuck (R321). -/
theorem stuck_invariant (c : Config) : BusInvariant c fun b => b.stuck = true where
  write o ys b hb := by simp [tWrite, hb]
  warn _ _ hb := hb

/-- A result whose code fits its status, unless a call never returned (R62, R108, R321). -/
def Settled (p : Result × Bus) : Prop :=
  p.2.stuck = true ∨ p.1 = .ok ∨ p.1 = .validationError ∨ ∃ code : BusCode, p.1 = .transportError code.toByte

theorem writeOrWarn_settled (c : Config) (o : Byte) (ys : List Byte) (b : Bus) :
    Settled (writeOrWarn c o ys b) := by
  unfold writeOrWarn Settled
  rcases tWrite_cases c o ys b with ⟨h, e⟩ | ⟨_, _, e⟩ | ⟨_, _, _, e⟩ | ⟨_, code, _, _, e⟩ <;> rw [e]
  · exact .inl h
  · exact .inl rfl
  · exact .inr (.inl rfl)
  · exact .inr (.inr (.inr ⟨code, rfl⟩))

theorem andThen_settled {p : Result × Bus} {k : Bus → Result × Bus} (hp : Settled p)
    (hk : ∀ b, Settled (k b)) : Settled (andThen p k) := by
  unfold andThen
  split
  · exact hk _
  · exact hp

theorem writeAll_settled (c : Config) (ws : List (Byte × List Byte)) (b : Bus) :
    Settled (writeAll c ws b) := by
  induction ws generalizing b with
  | nil => exact .inr (.inl rfl)
  | cons w ws ih => exact andThen_settled (writeOrWarn_settled c _ _ b) ih

theorem transaction_settled (c : Config) (ds : List Descriptor) (b : Bus) :
    Settled (transaction c ds b) := by
  unfold transaction
  split
  · split
    · exact .inr (.inl rfl)
    · rw [applyLoop_eq_writeAll]
      have h1 := writeAll_settled c (runWrites c none ds) b
      generalize writeAll c (runWrites c none ds) b = p at h1
      have h2 := writeAll_settled c (preambleWrites c c.ctrlBook zeroPage) p.2
      unfold restoreContext selectContext
      by_cases hp : p.1.status = .ok
      · simp only [hp, if_true]; exact h2
      · simp only [hp, if_false]
        rcases h1 with h1 | h1
        · exact .inl ((stuck_invariant c).writeAll _ _ h1)
        · exact .inr h1
  · exact .inr (.inr (.inl rfl))

theorem settingWrite_settled (c : Config) (record : Result → Warning) (ds : List Descriptor)
    (b : Bus) : Settled (settingWrite c record ds b) := by
  unfold settingWrite
  dsimp only
  split
  · exact transaction_settled c ds b
  · exact transaction_settled c ds b

/-- A settled result's code is 0 exactly where its status is not `TransportError` (R62, R108). -/
theorem Settled.codes {p : Result × Bus} (h : Settled p) (hs : p.2.stuck = false) :
    p.1.code ≠ 0 ↔ p.1.status = .transportError := by
  rcases h with h | h | h | ⟨code, h⟩
  · simp [hs] at h
  · simp [h, Result.ok]
  · simp [h, Result.validationError]
  · have := BusCode.toByte_ne_zero code
    rw [h]
    exact ⟨fun _ => rfl, fun _ => this⟩

/-- Where the calls of an operation keep the transport's duty, its next state is the one concluded with,
and no call is hanging (R321, R322). -/
theorem conclude_settled {s t u : State} (hs : s.bus.returns = true → t.bus.returns = true)
    (h : conclude s t = .next u) : u = t ∧ t.bus.stuck = false := by
  unfold conclude at h
  split at h
  · next hr => exact ⟨(Host.Outcome.next.inj h).symm, Bus.returns_stuck (hs hr)⟩
  · split at h
    · cases h
    · next hn => exact ⟨(Host.Outcome.next.inj h).symm, by simpa using hn⟩

/-- The gate of the failed latch (R261), read from its outcome. -/
theorem gated_next {s t : State} {run : Host.Outcome State Fault Refusal} (h : gated s run = .next t) :
    (s.failed = true ∧ t = s.deliver .deviceFailed) ∨ (s.failed = false ∧ run = .next t) := by
  unfold gated at h
  split at h
  · next hf => exact .inl ⟨hf, (Host.Outcome.next.inj h).symm⟩
  · next hf => exact .inr ⟨by simpa using hf, h⟩

/-- A read keeps the transport's duty (R322). -/
theorem tRead_returns {o : Byte} {n : Nat} {b : Bus} (h : b.returns = true) :
    (tRead o n b).2.returns = true := by
  rcases tRead_cases o n b with ⟨h', _⟩ | ⟨_, h', _⟩ | ⟨_, _, _, e⟩ | ⟨_, _, _, _, e⟩
  · simp [Bus.returns_stuck h] at h'
  · exact absurd h' (Bus.nextDraw_ne_hangs h)
  · rw [e]; exact Bus.returns_of_tail h rfl rfl
  · rw [e]; exact Bus.returns_of_tail h rfl rfl

/-- POLL's read keeps the transport's duty (R240, R322). -/
theorem pollReturn_returns {s : State} (h : s.bus.returns = true) :
    (pollReturn s (tRead s.cfg.regFaultBase 4 s.bus)).bus.returns = true := by
  have := tRead_returns (o := s.cfg.regFaultBase) (n := 4) h
  rcases hp : tRead s.cfg.regFaultBase 4 s.bus with ⟨r, b⟩
  rw [hp] at this
  cases r <;> exact this

end Sys2Proof.Machine
end

