-- ==== Sys2Proof/Laws/Exec.lean ====
section
/-! SUPPORT. What every operation can do, said once over all of them: to the bus, to the block's own
registers, and to the mark of a hanging call. -/

namespace Sys2Proof.Machine

/-- A property of the bus that writes, warnings and reads keep is kept by every operation: whatever an
operation does to the bus, it does by calls and warnings (R32, R33). -/
theorem exec_bus {P : Bus → Prop} {s t : State} {i : Instr} (h : BusInvariant s.cfg P)
     (hr : ∀ o n b, P b → P (tRead o n b).2) (hs : P s.bus) (he : exec i s = .next t) : P t.bus := by
  cases i with
  | encode923 v => injection he with he; subst he; exact hs
  | encode527 v => injection he with he; subst he; exact hs
  | decode923 v => injection he with he; subst he; exact hs
  | decode527 v => injection he with he; subst he; exact hs
  | designLp a b => injection he with he; subst he; exact hs
  | designHp a b => injection he with he; subst he; exact hs
  | lookup a b => injection he with he; subst he; exact hs
  | setBookAndPage a b =>
    rcases gated_next he with ⟨_, rfl⟩ | ⟨_, he⟩
    · exact hs
    · rw [conclude_next he]; exact h.selectContext _ _ _ hs
  | apply a =>
    rcases gated_next he with ⟨_, rfl⟩ | ⟨_, he⟩
    · exact hs
    · split at he
      · rw [conclude_next he]; exact h.transaction _ _ hs
      · injection he with he; subst he; exact hs
  | trigger =>
    rcases gated_next he with ⟨_, rfl⟩ | ⟨_, he⟩
    · exact hs
    · injection he with he; subst he; exact hs
  | tick =>
    rcases gated_next he with ⟨_, rfl⟩ | ⟨_, he⟩
    · exact hs
    · split at he
      · injection he with he; subst he; exact hs
      · rw [conclude_next he]; exact h.settingWrite _ _ _ hs
  | setGain a b =>
    rcases gated_next he with ⟨_, rfl⟩ | ⟨_, he⟩
    · exact hs
    · split at he
      · unfold settleNow at he
        split at he
        · rw [conclude_next he]; exact h.settingWrite _ _ _ hs
        · injection he with he; subst he; exact hs
      · injection he with he; subst he; exact hs
  | setMixerMode a =>
    rcases gated_next he with ⟨_, rfl⟩ | ⟨_, he⟩
    · exact hs
    · split at he
      · unfold settleNow at he
        split at he
        · rw [conclude_next he]; exact h.settingWrite _ _ _ hs
        · injection he with he; subst he; exact hs
      · injection he with he; subst he; exact hs
  | poll =>
    rcases gated_next he with ⟨_, rfl⟩ | ⟨_, he⟩
    · exact hs
    · rw [conclude_next he]
      have := hr s.cfg.regFaultBase 4 s.bus hs
      rcases hp : tRead s.cfg.regFaultBase 4 s.bus with ⟨r, b⟩
      rw [hp] at this
      cases r
      · exact this
      · exact h.warn _ _ this
  | readFaults =>
    rcases gated_next he with ⟨_, rfl⟩ | ⟨_, he⟩
    · exact hs
    · injection he with he; subst he; exact hs
  | clearFaults =>
    rcases gated_next he with ⟨_, rfl⟩ | ⟨_, he⟩
    · exact hs
    · rw [conclude_next he]; exact h.writeOrWarn _ _ _ hs
  | setup =>
    rcases gated_next he with ⟨_, rfl⟩ | ⟨_, he⟩
    · exact hs
    · rw [conclude_next he]; exact h.writeAll _ _ hs

/-- What an operation can do to the block's own registers: the access column of R30, said once. -/
theorem exec_regs {s t : State} {i : Instr} (he : exec i s = .next t) :
    t.cfg = s.cfg ∧ t.dbuf = s.dbuf ∧ t.port = s.port ∧
    (t.gain = s.gain ∨ ∃ band g, i = .setGain band g ∧ bandGainValid s.cfg band g = true ∧
      t.gain = s.gain.set band.toNat g) ∧
    (t.mixerMode = s.mixerMode ∨
      ∃ m, i = .setMixerMode m ∧ m.toNat < s.cfg.mixerModeCount ∧ t.mixerMode = m) ∧
    (t.phase = s.phase ∨ i = .tick ∧ t.phase = tickPhase s.cfg s.phase ∨
      i = .trigger ∧ t.phase = triggerPhase s.phase) ∧
    (t.snap = s.snap ∧ t.chg = s.chg ∨ i = .poll ∧
      (t.snap = s.snap ∨ ∃ a b c d, t.snap = snapshotOf s.cfg.clockFaultMask a b c d)) ∧
    (t.failed = s.failed ∨ i = .setup ∧ s.failed = false) := by
  cases i with
  | encode923 v => injection he with he; subst he; simp [State.deliver]
  | encode527 v => injection he with he; subst he; simp [State.deliver]
  | decode923 v => injection he with he; subst he; simp [State.deliver]
  | decode527 v => injection he with he; subst he; simp [State.deliver]
  | designLp a b => injection he with he; subst he; simp [State.deliver]
  | designHp a b => injection he with he; subst he; simp [State.deliver]
  | lookup a b => injection he with he; subst he; simp [State.deliver]
  | setBookAndPage a b =>
    rcases gated_next he with ⟨_, rfl⟩ | ⟨_, he⟩
    · simp
    · rw [conclude_next he]; simp
  | apply a =>
    rcases gated_next he with ⟨_, rfl⟩ | ⟨_, he⟩
    · simp
    · split at he
      · rw [conclude_next he]; simp
      · injection he with he; subst he; simp
  | trigger =>
    rcases gated_next he with ⟨_, rfl⟩ | ⟨_, he⟩
    · simp
    · injection he with he; subst he; simp
  | tick =>
    rcases gated_next he with ⟨_, rfl⟩ | ⟨_, he⟩
    · simp
    · split at he
      · injection he with he; subst he; simp
      · rw [conclude_next he]; simp
  | setGain a b =>
    rcases gated_next he with ⟨_, rfl⟩ | ⟨_, he⟩
    · simp
    · split at he
      · next hv =>
        unfold settleNow at he
        split at he
        · rw [conclude_next he]; exact ⟨rfl, rfl, rfl, .inr ⟨a, b, rfl, hv, rfl⟩, .inl rfl, .inl rfl, .inl ⟨rfl, rfl⟩, .inl rfl⟩
        · injection he with he; subst he; exact ⟨rfl, rfl, rfl, .inr ⟨a, b, rfl, hv, rfl⟩, .inl rfl, .inl rfl, .inl ⟨rfl, rfl⟩, .inl rfl⟩
      · injection he with he; subst he; simp
  | setMixerMode a =>
    rcases gated_next he with ⟨_, rfl⟩ | ⟨_, he⟩
    · simp
    · split at he
      · next hv =>
        unfold settleNow at he
        split at he
        · rw [conclude_next he]; simp [hv]
        · injection he with he; subst he; simp [hv]
      · injection he with he; subst he; simp
  | poll =>
    rcases gated_next he with ⟨_, rfl⟩ | ⟨_, he⟩
    · simp
    · rw [conclude_next he]
      rcases hp : tRead s.cfg.regFaultBase 4 s.bus with ⟨r, b⟩
      cases r
      · simp [pollReturn]; exact .inr (.inr ⟨_, _, _, _, rfl⟩)
      · simp [pollReturn]
  | readFaults =>
    rcases gated_next he with ⟨_, rfl⟩ | ⟨_, he⟩
    · simp
    · injection he with he; subst he; simp
  | clearFaults =>
    rcases gated_next he with ⟨_, rfl⟩ | ⟨_, he⟩
    · simp
    · rw [conclude_next he]; simp
  | setup =>
    rcases gated_next he with ⟨_, rfl⟩ | ⟨hf, he⟩
    · simp
    · rw [conclude_next he]; simp [hf]

/-- After an operation that has completed no call is hanging (R321). -/
theorem exec_not_stuck {s t : State} {i : Instr} (hs : s.bus.stuck = false)
    (he : exec i s = .next t) : t.bus.stuck = false := by
  cases i with
  | encode923 v => injection he with he; subst he; exact hs
  | encode527 v => injection he with he; subst he; exact hs
  | decode923 v => injection he with he; subst he; exact hs
  | decode527 v => injection he with he; subst he; exact hs
  | designLp a b => injection he with he; subst he; exact hs
  | designHp a b => injection he with he; subst he; exact hs
  | lookup a b => injection he with he; subst he; exact hs
  | setBookAndPage a b =>
    rcases gated_next he with ⟨_, rfl⟩ | ⟨_, he⟩
    · exact hs
    · obtain ⟨rfl, h⟩ := conclude_settled ((returns_invariant _).selectContext _ _ _) he; exact h
  | apply a =>
    rcases gated_next he with ⟨_, rfl⟩ | ⟨_, he⟩
    · exact hs
    · split at he
      · obtain ⟨rfl, h⟩ := conclude_settled ((returns_invariant _).transaction _ _) he; exact h
      · injection he with he; subst he; exact hs
  | trigger =>
    rcases gated_next he with ⟨_, rfl⟩ | ⟨_, he⟩
    · exact hs
    · injection he with he; subst he; exact hs
  | tick =>
    rcases gated_next he with ⟨_, rfl⟩ | ⟨_, he⟩
    · exact hs
    · split at he
      · injection he with he; subst he; exact hs
      · obtain ⟨rfl, h⟩ := conclude_settled ((returns_invariant _).settingWrite _ _ _) he; exact h
  | setGain a b =>
    rcases gated_next he with ⟨_, rfl⟩ | ⟨_, he⟩
    · exact hs
    · split at he
      · unfold settleNow at he
        split at he
        · obtain ⟨rfl, h⟩ := conclude_settled ((returns_invariant _).settingWrite _ _ _) he; exact h
        · injection he with he; subst he; exact hs
      · injection he with he; subst he; exact hs
  | setMixerMode a =>
    rcases gated_next he with ⟨_, rfl⟩ | ⟨_, he⟩
    · exact hs
    · split at he
      · unfold settleNow at he
        split at he
        · obtain ⟨rfl, h⟩ := conclude_settled ((returns_invariant _).settingWrite _ _ _) he; exact h
        · injection he with he; subst he; exact hs
      · injection he with he; subst he; exact hs
  | poll =>
    rcases gated_next he with ⟨_, rfl⟩ | ⟨_, he⟩
    · exact hs
    · obtain ⟨rfl, h⟩ := conclude_settled pollReturn_returns he; exact h
  | readFaults =>
    rcases gated_next he with ⟨_, rfl⟩ | ⟨_, he⟩
    · exact hs
    · injection he with he; subst he; exact hs
  | clearFaults =>
    rcases gated_next he with ⟨_, rfl⟩ | ⟨_, he⟩
    · exact hs
    · obtain ⟨rfl, h⟩ := conclude_settled ((returns_invariant _).writeOrWarn _ _ _) he; exact h
  | setup =>
    rcases gated_next he with ⟨_, rfl⟩ | ⟨_, he⟩
    · exact hs
    · obtain ⟨rfl, h⟩ := conclude_settled ((returns_invariant _).writeAll _ _) he; exact h

/-- A property that survives a read's log entry, and a call that never returns, survives a read. -/
theorem tRead_inv {P : Bus → Prop} (o : Byte) (n : Nat) (b : Bus) (h1 : P b)
    (h2 : P { b with stuck := true }) (h3 : ∀ r, P (b.advance.log (.r o n r))) :
    P (tRead o n b).2 := by
  rcases tRead_cases o n b with ⟨_, e⟩ | ⟨_, _, e⟩ | ⟨_, _, _, e⟩ | ⟨_, _, _, _, e⟩ <;> rw [e]
  · exact h1
  · exact h2
  · exact h3 _
  · exact h3 _

end Sys2Proof.Machine
end

