-- ==== Sys2Proof/Laws/Device.lean ====
section
/-! SUPPORT. What the sequencer's writes do to the reference device (R63), whatever the draws: a preamble
changes no register and sets the context when it succeeds; a transaction changes no register but those
of its descriptors' bytes (R66, R191). -/

namespace Sys2Proof.Machine

/-- A descriptor's check, clause by clause (R96, R194). -/
theorem Descriptor.wellFormed_iff {c : Config} {d : Descriptor} :
    Descriptor.wellFormed c d = true ↔
      1 ≤ d.len.toNat ∧ d.payload.length = d.len.toNat ∧
      d.offset.toNat + d.len.toNat - 1 ≤ c.pageLastOffset.toNat ∧
      ∀ j < d.len.toNat, d.offset.toNat + j ≠ c.regPageSelect.toNat ∧
        d.offset.toNat + j ≠ c.regBookSelect.toNat := by
  simp [Descriptor.wellFormed, Descriptor.last, List.all_eq_true, and_assoc]

/-- The preamble on the reference device, each of its writes landing (R98, R190). -/
theorem Device.afterWrites_preamble {c : Config} (hc : c.regPageSelect ≠ c.regBookSelect) (d : Device)
    (book page : Byte) :
    Device.afterWrites c d (preambleWrites c book page) = ⟨book, page, d.mem⟩ := by
  have h : c.regBookSelect.toNat ≠ c.regPageSelect.toNat := fun e => hc (BitVec.eq_of_toNat_eq e.symm)
  simp [Device.afterWrites, preambleWrites, Device.writeBytes, Device.writeByte, h, zeroPage]

theorem Device.afterWrites_append (c : Config) (d : Device) (ws ws' : List (Byte × List Byte)) :
    Device.afterWrites c d (ws ++ ws') = Device.afterWrites c (Device.afterWrites c d ws) ws' :=
  List.foldl_append

/-- The context of a descriptor, set where it is not the one last set (R191). -/
theorem Device.afterWrites_select {c : Config} (hc : c.regPageSelect ≠ c.regBookSelect)
    (ctx : Option (Byte × Byte)) (v : Device) (hctx : ∀ x, ctx = some x → v.book = x.1 ∧ v.page = x.2)
    (book page : Byte) :
    Device.afterWrites c v (if ctx = some (book, page) then [] else preambleWrites c book page) =
      ⟨book, page, v.mem⟩ := by
  split
  · next h =>
    obtain ⟨rfl, rfl⟩ := hctx _ h
    rfl
  · exact Device.afterWrites_preamble hc v _ _

/-- A run whose writes all land ends with its last payload, written in its own context (R66, R191). -/
theorem Device.afterWrites_run {c : Config} (hc : c.regPageSelect ≠ c.regBookSelect)
    (ds : List Descriptor) (last : Descriptor)
    (hw : ∀ d ∈ ds, Descriptor.wellFormed c d = true) (ctx : Option (Byte × Byte)) (v : Device)
    (hm : Memory.wf v.mem = true) (hctx : ∀ x, ctx = some x → v.book = x.1 ∧ v.page = x.2) :
    ∃ m, Memory.wf m = true ∧ Device.afterWrites c v (runWrites c ctx (ds ++ [last])) =
      Device.writeBytes c ⟨last.book, last.page, m⟩ last.offset.toNat last.payload := by
  induction ds generalizing ctx v with
  | nil =>
    refine ⟨v.mem, hm, ?_⟩
    simp only [List.nil_append, runWrites, List.append_nil]
    rw [Device.afterWrites_append, Device.afterWrites_select hc ctx v hctx]
    rfl
  | cons d ds ih =>
    simp only [List.cons_append, runWrites]
    rw [Device.afterWrites_append, Device.afterWrites_append, Device.afterWrites_select hc ctx v hctx]
    obtain ⟨_, hl, _, hs⟩ := Descriptor.wellFormed_iff.1 (hw d (by simp))
    obtain ⟨h1, h2, _⟩ := Device.writeBytes_plain c d.payload ⟨d.book, d.page, v.mem⟩ d.offset.toNat
      (fun j hj => (hs j (hl ▸ hj)).1) (fun j hj => (hs j (hl ▸ hj)).2)
    refine ih (fun e he => hw e (by simp [he])) _ _ (Device.writeBytes_wf c _ _ _ hm) ?_
    rintro x hx
    cases hx
    exact ⟨h1, h2⟩

/-- What one transport write does to the reference device: all of its bytes land, or some first part of
them, or none (R63, R321). -/
theorem writeOrWarn_device (c : Config) (o : Byte) (ys : List Byte) (b : Bus) :
    ((writeOrWarn c o ys b).1 = .ok ∧
      (writeOrWarn c o ys b).2.dev = Device.writeBytes c b.dev o.toNat ys) ∨
    ((writeOrWarn c o ys b).1.status ≠ .ok ∧ ∃ n,
      (writeOrWarn c o ys b).2.dev = Device.writeBytes c b.dev o.toNat (ys.take n)) := by
  unfold writeOrWarn
  rcases tWrite_cases c o ys b with ⟨_, e⟩ | ⟨_, _, e⟩ | ⟨_, _, _, e⟩ | ⟨_, code, n, _, e⟩ <;> rw [e]
  · exact .inr ⟨by simp, 0, by simp [Device.writeBytes]⟩
  · exact .inr ⟨by simp, 0, by simp [Device.writeBytes]⟩
  · exact .inl ⟨rfl, rfl⟩
  · exact .inr ⟨by simp, n, rfl⟩

/-- One byte written, or none. -/
theorem writeBytes_take_one (c : Config) (d : Device) (o : Nat) (y : Byte) (n : Nat) :
    Device.writeBytes c d o ([y].take n) = d ∨
      Device.writeBytes c d o ([y].take n) = Device.writeByte c d o y := by
  cases n with
  | zero => exact .inl rfl
  | succ n => exact .inr (by simp [Device.writeBytes])

/-- The preamble changes no register of the chip, and sets the context when it succeeds (R98, R190). -/
theorem selectContext_device {c : Config} (hc : c.regPageSelect ≠ c.regBookSelect) (book page : Byte)
    (b : Bus) :
    (selectContext c book page b).2.dev.mem = b.dev.mem ∧
      ((selectContext c book page b).1.status = .ok →
        (selectContext c book page b).2.dev = ⟨book, page, b.dev.mem⟩) := by
  have hne : c.regBookSelect.toNat ≠ c.regPageSelect.toNat := fun e => hc (BitVec.eq_of_toNat_eq e.symm)
  have hp : ∀ (d : Device) (y : Byte),
      Device.writeByte c d c.regPageSelect.toNat y = { d with page := y } := by
    intro d y; simp [Device.writeByte]
  have hb : ∀ (d : Device) (y : Byte), d.page = zeroPage →
      Device.writeByte c d c.regBookSelect.toNat y = { d with book := y } := by
    intro d y hd; simp [Device.writeByte, hne, hd]
  have one : ∀ (d : Device) (o : Nat) (y : Byte), Device.writeBytes c d o [y] = Device.writeByte c d o y :=
    fun _ _ _ => rfl
  simp only [selectContext, preambleWrites, writeAll, andThen]
  rcases writeOrWarn_device c c.regPageSelect [zeroPage] b with ⟨r1, d1⟩ | ⟨r1, n, d1⟩
  · generalize writeOrWarn c c.regPageSelect [zeroPage] b = p1 at r1 d1
    rw [one, hp] at d1
    rw [if_pos (by rw [r1]; rfl)]
    rcases writeOrWarn_device c c.regBookSelect [book] p1.2 with ⟨r2, d2⟩ | ⟨r2, n, d2⟩
    · generalize writeOrWarn c c.regBookSelect [book] p1.2 = p2 at r2 d2
      rw [one, d1, hb _ _ rfl] at d2
      rw [if_pos (by rw [r2]; rfl)]
      rcases writeOrWarn_device c c.regPageSelect [page] p2.2 with ⟨r3, d3⟩ | ⟨r3, n, d3⟩
      · generalize writeOrWarn c c.regPageSelect [page] p2.2 = p3 at r3 d3
        rw [one, d2, hp] at d3
        rw [if_pos (by rw [r3]; rfl), d3]
        exact ⟨rfl, fun _ => rfl⟩
      · generalize writeOrWarn c c.regPageSelect [page] p2.2 = p3 at r3 d3
        rw [if_neg r3, d3, d2]
        refine ⟨?_, fun h => absurd h r3⟩
        rcases writeBytes_take_one c ⟨book, zeroPage, b.dev.mem⟩ c.regPageSelect.toNat page n with e | e
        · exact (congrArg Device.mem e).trans rfl
        · exact (congrArg Device.mem e).trans (by rw [hp])
    · generalize writeOrWarn c c.regBookSelect [book] p1.2 = p2 at r2 d2
      rw [if_neg r2, d2, d1]
      refine ⟨?_, fun h => absurd h r2⟩
      rcases writeBytes_take_one c { b.dev with page := zeroPage } c.regBookSelect.toNat book n with e | e
      · exact (congrArg Device.mem e).trans rfl
      · exact (congrArg Device.mem e).trans (by rw [hb _ _ rfl])
  · generalize writeOrWarn c c.regPageSelect [zeroPage] b = p1 at r1 d1
    rw [if_neg r1, d1]
    refine ⟨?_, fun h => absurd h r1⟩
    rcases writeBytes_take_one c b.dev c.regPageSelect.toNat zeroPage n with e | e
    · exact congrArg Device.mem e
    · exact (congrArg Device.mem e).trans (by rw [hp])

/-- A payload's write leaves the context and every register but the descriptor's own bytes (R66). -/
theorem writePayload_device {c : Config} {d : Descriptor} (hw : Descriptor.wellFormed c d = true)
    {b : Bus} (hb : b.dev.book = d.book) (hp : b.dev.page = d.page) :
    let b' := (writeOrWarn c d.offset d.payload b).2
    b'.dev.book = d.book ∧ b'.dev.page = d.page ∧
      ∀ book page offset, ¬ Descriptor.covers d book page offset →
        b'.dev.peek book page offset = b.dev.peek book page offset := by
  obtain ⟨_, hl, _, hs⟩ := Descriptor.wellFormed_iff.1 hw
  have key : ∀ n,
      (Device.writeBytes c b.dev d.offset.toNat (d.payload.take n)).book = d.book ∧
      (Device.writeBytes c b.dev d.offset.toNat (d.payload.take n)).page = d.page ∧
      ∀ book page offset, ¬ Descriptor.covers d book page offset →
        (Device.writeBytes c b.dev d.offset.toNat (d.payload.take n)).peek book page offset =
          b.dev.peek book page offset := by
    intro n
    have hlt : ∀ j < (d.payload.take n).length, j < d.len.toNat := by
      intro j hj; rw [List.length_take, hl] at hj; omega
    obtain ⟨h1, h2, h3⟩ := Device.writeBytes_plain c (d.payload.take n) b.dev d.offset.toNat
      (fun j hj => (hs j (hlt j hj)).1) (fun j hj => (hs j (hlt j hj)).2)
    refine ⟨h1.trans hb, h2.trans hp, fun book page offset hn => h3 _ _ _ fun j hj he => hn ?_⟩
    obtain ⟨e1, e2, e3⟩ : book = b.dev.book ∧ page = b.dev.page ∧ _ := by simpa using he
    exact ⟨j, hlt j hj, e1.trans hb, e2.trans hp, e3⟩
  rcases writeOrWarn_device c d.offset d.payload b with ⟨_, e⟩ | ⟨_, n, e⟩
  · have := key d.payload.length
    rw [List.take_length, ← e] at this
    exact this
  · have := key n
    rw [← e] at this
    exact this

/-- The loop of APPLY changes no register but its descriptors' bytes (R191). -/
theorem applyLoop_device {c : Config} (hc : c.regPageSelect ≠ c.regBookSelect) (ds : List Descriptor)
    (hw : ∀ d ∈ ds, Descriptor.wellFormed c d = true) (ctx : Option (Byte × Byte)) (b : Bus)
    (hctx : ∀ x, ctx = some x → b.dev.book = x.1 ∧ b.dev.page = x.2) (book page offset : Byte)
    (hn : ∀ d ∈ ds, ¬ Descriptor.covers d book page offset) :
    (applyLoop c ctx ds b).2.dev.peek book page offset = b.dev.peek book page offset := by
  induction ds generalizing ctx b with
  | nil => rfl
  | cons d ds ih =>
    rw [applyLoop, andThen_assoc]
    have main : ∀ b1 : Bus, b1.dev.mem = b.dev.mem → b1.dev.book = d.book → b1.dev.page = d.page →
        (andThen (writeOrWarn c d.offset d.payload b1)
          (applyLoop c (some (d.book, d.page)) ds)).2.dev.peek book page offset =
          b.dev.peek book page offset := by
      intro b1 hm h1 h2
      obtain ⟨k1, k2, k3⟩ := writePayload_device (hw d (by simp)) h1 h2
      have hb : b1.dev.peek book page offset = b.dev.peek book page offset := by
        simp [Device.peek, hm]
      unfold andThen
      split
      · rw [ih (fun e he => hw e (by simp [he])) _ _ _ fun e he => hn e (by simp [he])]
        · exact (k3 _ _ _ (hn d (by simp))).trans hb
        · rintro x hx
          cases hx
          exact ⟨k1, k2⟩
      · exact (k3 _ _ _ (hn d (by simp))).trans hb
    split
    · next he =>
      obtain ⟨h1, h2⟩ := hctx _ he
      exact main b rfl h1 h2
    · obtain ⟨hm, hok⟩ := selectContext_device hc d.book d.page b
      rw [andThen]
      split
      · next hr =>
        have e := hok hr
        exact main _ hm (congrArg Device.book e) (congrArg Device.page e)
      · simp [Device.peek, hm]

/-- A transaction changes no register but its descriptors' bytes, whatever the draws (R191 to R194). -/
theorem transaction_device {c : Config} (hc : c.regPageSelect ≠ c.regBookSelect)
    (ds : List Descriptor) (b : Bus) (book page offset : Byte)
    (hn : ∀ d ∈ ds, ¬ Descriptor.covers d book page offset) :
    (transaction c ds b).2.dev.peek book page offset = b.dev.peek book page offset := by
  unfold transaction
  split
  · next hw =>
    split
    · rfl
    · have h := applyLoop_device hc ds (List.all_eq_true.1 hw) none b (by simp) book page offset hn
      have hm := (selectContext_device hc c.ctrlBook zeroPage (applyLoop c none ds b).2).1
      rw [← h]
      exact congrArg (fun m => Memory.read m (devAddr book page offset)) hm
  · rfl

/-- A setting's write changes no register but its descriptors' bytes (R218 to R220). -/
theorem settingWrite_device {c : Config} (hc : c.regPageSelect ≠ c.regBookSelect)
    (record : Result → Warning) (ds : List Descriptor) (b : Bus) (book page offset : Byte)
    (hn : ∀ d ∈ ds, ¬ Descriptor.covers d book page offset) :
    (settingWrite c record ds b).2.dev.peek book page offset = b.dev.peek book page offset := by
  have h := transaction_device hc ds b book page offset hn
  unfold settingWrite
  dsimp only
  split
  · exact h
  · exact h

end Sys2Proof.Machine
end

