-- ==== Sys2Proof/Laws/PerInstr.lean ====
section
/-! SUPPORT. Statements about every operation as syntax, one lemma per constructor. -/

namespace Sys2Proof.Laws.EncodedForm

/-- The encoded form of an operation: its opcode is in the opcode map, the format found there accepts
its operand field (no bit set outside the fields of R104), and the operands read from that field are
the operation's own. -/
def Statement (i : Instr) : Prop :=
  ∃ format build, opcodeMap (opcode i) = some (format, build) ∧
    format.accepts (operands i) = true ∧ build (operands i) = i

theorem lowWord_append (v : Word) : lowWord (0#32 ++ v) = v := by
  apply BitVec.eq_of_toNat_eq
  have := v.isLt
  simp only [lowWord, BitVec.extractLsb'_toNat, toNat_append_add, Nat.shiftRight_eq_div_pow,
    BitVec.toNat_ofNat]
  omega

theorem words_append (a b : Word) : highWord (a ++ b) = a ∧ lowWord (a ++ b) = b := by
  have := a.isLt; have := b.isLt
  constructor <;> apply BitVec.eq_of_toNat_eq <;>
    simp only [highWord, lowWord, BitVec.extractLsb'_toNat, toNat_append_add,
      Nat.shiftRight_eq_div_pow] <;> omega

theorem bytes_append (a b : Byte) :
    highByte (0#48 ++ a ++ b) = a ∧ lowByte (0#48 ++ a ++ b) = b := by
  have := a.isLt; have := b.isLt
  constructor <;> apply BitVec.eq_of_toNat_eq <;>
    simp only [highByte, lowByte, BitVec.extractLsb'_toNat, toNat_append_add,
      Nat.shiftRight_eq_div_pow, BitVec.toNat_ofNat] <;> omega

theorem lowByte_append (v : Byte) : lowByte (0#56 ++ v) = v := by
  apply BitVec.eq_of_toNat_eq
  have := v.isLt
  simp only [lowByte, BitVec.extractLsb'_toNat, toNat_append_add, Nat.shiftRight_eq_div_pow,
    BitVec.toNat_ofNat]
  omega

theorem accepts_word (f : OperandFormat) (hf : f.usedBits = 32) (v : Word) :
    f.accepts (0#32 ++ v) = true := by
  rw [OperandFormat.accepts_iff, hf, toNat_append_add]
  simpa using v.isLt

theorem accepts_bytes (f : OperandFormat) (hf : f.usedBits = 16) (a b : Byte) :
    f.accepts (0#48 ++ a ++ b) = true := by
  have := a.isLt; have := b.isLt
  rw [OperandFormat.accepts_iff, hf, toNat_append_add, toNat_append_add]
  simp only [BitVec.toNat_ofNat]
  omega

theorem accepts_byte (f : OperandFormat) (hf : f.usedBits = 8) (v : Byte) :
    f.accepts (0#56 ++ v) = true := by
  rw [OperandFormat.accepts_iff, hf, toNat_append_add]
  simpa using v.isLt

theorem accepts_all (o : BitVec 64) : OperandFormat.D.accepts o = true := by
  rw [OperandFormat.accepts_iff]
  exact o.isLt

theorem accepts_zero : OperandFormat.Z.accepts 0 = true := by decide

theorem encode923 (value : Word) : Statement (.encode923 value) :=
  ⟨_, _, rfl, accepts_word _ rfl value, congrArg Instr.encode923 (lowWord_append value)⟩

theorem encode527 (value : Word) : Statement (.encode527 value) :=
  ⟨_, _, rfl, accepts_word _ rfl value, congrArg Instr.encode527 (lowWord_append value)⟩

theorem decode923 (word : Word) : Statement (.decode923 word) :=
  ⟨_, _, rfl, accepts_word _ rfl word, congrArg Instr.decode923 (lowWord_append word)⟩

theorem decode527 (word : Word) : Statement (.decode527 word) :=
  ⟨_, _, rfl, accepts_word _ rfl word, congrArg Instr.decode527 (lowWord_append word)⟩

theorem designLp (fs fc : Word) : Statement (.designLp fs fc) :=
  ⟨_, _, rfl, accepts_all _, congrArg₂ Instr.designLp (words_append fs fc).1 (words_append fs fc).2⟩

theorem designHp (fs fc : Word) : Statement (.designHp fs fc) :=
  ⟨_, _, rfl, accepts_all _, congrArg₂ Instr.designHp (words_append fs fc).1 (words_append fs fc).2⟩

theorem lookup (band gain : Byte) : Statement (.lookup band gain) :=
  ⟨_, _, rfl, accepts_bytes _ rfl _ _,
    congrArg₂ Instr.lookup (bytes_append band gain).1 (bytes_append band gain).2⟩

theorem setBookAndPage (book page : Byte) : Statement (.setBookAndPage book page) :=
  ⟨_, _, rfl, accepts_bytes _ rfl _ _,
    congrArg₂ Instr.setBookAndPage (bytes_append book page).1 (bytes_append book page).2⟩

theorem apply (count : Byte) : Statement (.apply count) :=
  ⟨_, _, rfl, accepts_byte _ rfl count, congrArg Instr.apply (lowByte_append count)⟩

theorem trigger : Statement .trigger := ⟨_, _, rfl, accepts_zero, rfl⟩

theorem tick : Statement .tick := ⟨_, _, rfl, accepts_zero, rfl⟩

theorem setGain (band gain : Byte) : Statement (.setGain band gain) :=
  ⟨_, _, rfl, accepts_bytes _ rfl _ _,
    congrArg₂ Instr.setGain (bytes_append band gain).1 (bytes_append band gain).2⟩

theorem setMixerMode (mode : Byte) : Statement (.setMixerMode mode) :=
  ⟨_, _, rfl, accepts_byte _ rfl mode, congrArg Instr.setMixerMode (lowByte_append mode)⟩

theorem poll : Statement .poll := ⟨_, _, rfl, accepts_zero, rfl⟩

theorem readFaults : Statement .readFaults := ⟨_, _, rfl, accepts_zero, rfl⟩

theorem clearFaults : Statement .clearFaults := ⟨_, _, rfl, accepts_zero, rfl⟩

theorem setup : Statement .setup := ⟨_, _, rfl, accepts_zero, rfl⟩

end Sys2Proof.Laws.EncodedForm
end

