-- ==== Sys2Proof/Tests/Slice0.lean ====
section
/-! SUPPORT. Small tests of one operation each, with expected results from 95_test_vectors.md; ill-formed
data that the checks refuse; and, for every statement with hypotheses, states and operands that meet
them. -/

namespace Sys2Proof.Tests

-- One theorem at a time: each parallel one would hold a thread's stack.
set_option Elab.async false

open Sys2Proof Sys2Proof.Machine

/-! ## Helpers -/

/-- A call that succeeds, and for a read draws these bytes. -/
def okDraw (bytes : List Byte := []) : Draw := .returns (.ok bytes)

/-- A call that fails with this code; nothing of a write lands. -/
def failDraw (code : Nat) : Draw := .returns (.err (Fin.ofNat 255 (code - 1)) 0)

/-- The test configuration T with N and B as given. -/
def configNB (n b : Nat) : Config :=
  { Config.reference with
    settleThreshold := n, bandCount := b, gainReset := List.replicate b 0,
    lut := Config.reference.lut.take b }

/-- A state of an instance in a phase, with draws in store and a descriptor list in `DBUF`. -/
def stateOf (c : Config) (phase : Phase) (draws : List Draw) (dbuf : List Descriptor := []) : State :=
  { State.resetWith c with
    phase := phase, dbuf := dbuf, bus := ⟨[], Device.fresh c, draws, 0, false⟩ }

/-- A state of the reference instance. -/
def stateIn (phase : Phase) (draws : List Draw) (dbuf : List Descriptor := []) : State :=
  stateOf Config.reference phase draws dbuf

/-- n successes. -/
def oks (n : Nat) : List Draw := List.replicate n okDraw

/-- The next state of an outcome. -/
def stateAfter (o : Host.Outcome State Fault Refusal) : Option State :=
  match o with
  | .next t => some t
  | .fault _ => none
  | .refused _ => none

/-- The fault of an outcome. -/
def faultOf (o : Host.Outcome State Fault Refusal) : Option Fault :=
  match o with
  | .next _ => none
  | .fault f => some f
  | .refused _ => none

/-- The refusal of an outcome. -/
def refusalOf (o : Host.Outcome State Fault Refusal) : Option Refusal :=
  match o with
  | .next _ => none
  | .fault _ => none
  | .refused r => some r

/-- The response of an outcome. -/
def response (o : Host.Outcome State Fault Refusal) : Option Result :=
  match o with
  | .next t => t.resp
  | .fault _ => none
  | .refused _ => none

/-- The history of an outcome. -/
def history (o : Host.Outcome State Fault Refusal) : List Entry :=
  match o with
  | .next t => t.hist
  | .fault _ => []
  | .refused _ => []

/-- The phase of an outcome. -/
def phaseAfter (o : Host.Outcome State Fault Refusal) : Option Phase :=
  match o with
  | .next t => some t.phase
  | .fault _ => none
  | .refused _ => none

/-- A successful write's entry. -/
def w (o : Byte) (ys : List Byte) : Entry := .w o ys .ok

/-- The restore of configuration T. -/
def restoreT : List Entry := [w 0x00 [0x00], w 0x7F [0x00], w 0x00 [0x00]]

/-- The entries of a preamble. -/
def preambleT (book page : Byte) : List Entry := [w 0x00 [0x00], w 0x7F [book], w 0x00 [page]]

/-- `LUT[1][30]` of configuration T (L1). -/
def lut130 : List Descriptor :=
  [⟨0xAA, 0x24, 0x70, 12, [0xB1, 0x1E, 2, 3, 4, 5, 6, 7, 8, 9, 10, 11]⟩,
   ⟨0xAA, 0x25, 0x08, 8, [12, 13, 14, 15, 16, 17, 18, 19]⟩]

/-- A one-byte descriptor. -/
def byteAt (page offset y : Byte) : Descriptor := ⟨0xAA, page, offset, 1, [y]⟩

/-- A well-formed descriptor of n bytes. -/
def block (book page : Byte) (n : Nat) : Descriptor :=
  ⟨book, page, 0x10, BitVec.ofNat 8 n, List.replicate n 0⟩

/-! ## Decoding: words of 95_test_vectors.md section 8, bit by bit -/

theorem test_decode_encode923 : decode 0x01000000003F800000 = .ok (.encode923 0x3F800000) := by
  decide +kernel
theorem test_decode_encode527 : decode 0x0200000000BF800000 = .ok (.encode527 0xBF800000) := by
  decide +kernel
theorem test_decode_decode923 : decode 0x030000000000400000 = .ok (.decode923 0x00400000) := by
  decide +kernel
theorem test_decode_decode527 : decode 0x0400000000F8000000 = .ok (.decode527 0xF8000000) := by
  decide +kernel
theorem test_decode_designLp :
    decode 0x08473B8000447A0000 = .ok (.designLp 0x473B8000 0x447A0000) := by decide +kernel
theorem test_decode_designHp :
    decode 0x09472C440042A00000 = .ok (.designHp 0x472C4400 0x42A00000) := by decide +kernel
theorem test_decode_lookup : decode 0x100000000000000106 = .ok (.lookup 1 6) := by decide +kernel
theorem test_decode_setBookAndPage :
    decode 0x180000000000008C29 = .ok (.setBookAndPage 0x8C 0x29) := by decide +kernel
theorem test_decode_apply : decode 0x190000000000000002 = .ok (.apply 2) := by decide +kernel
theorem test_decode_trigger : decode 0x200000000000000000 = .ok .trigger := by decide +kernel
theorem test_decode_tick : decode 0x210000000000000000 = .ok .tick := by decide +kernel
theorem test_decode_setGain : decode 0x2200000000000000FD = .ok (.setGain 0 0xFD) := by
  decide +kernel
theorem test_decode_setMixerMode : decode 0x230000000000000002 = .ok (.setMixerMode 2) := by
  decide +kernel
theorem test_decode_poll : decode 0x280000000000000000 = .ok .poll := by decide +kernel
theorem test_decode_readFaults : decode 0x290000000000000000 = .ok .readFaults := by decide +kernel
theorem test_decode_clearFaults : decode 0x2A0000000000000000 = .ok .clearFaults := by
  decide +kernel
theorem test_decode_setup : decode 0x300000000000000000 = .ok .setup := by decide +kernel
theorem test_decode_reserved :
    decode 0x000000000000000000 = .error (.reservedOpcode 0x00) ∧
    decode 0x310000000000000000 = .error (.reservedOpcode 0x31) ∧
    decode 0x210000000000000001 = .error (.reservedBits 0x21) ∧
    decode 0x220000000000010106 = .error (.reservedBits 0x22) ∧
    decode 0x01000000013F800000 = .error (.reservedBits 0x01) := by decide +kernel
theorem test_table_word :
    decodeTableWord 72 0x2200000000000000FD = some (.setGain 0 0xFD) ∧
    decodeTableWord 80 0x2200000000000000FD = none ∧
    response (step (State.reset.withFetchWord 72 0x01000000003F800000)) =
      some ⟨.ok, 0, .word 0x00800000⟩ := by decide +kernel

/-! ## Well-formed data, and a refusal for each check -/

theorem test_reference_wf : Config.reference.wf = true := by decide +kernel
theorem test_small_wf : (configNB 2 2).wf = true ∧ (configNB 1 0).wf = true := by decide +kernel

/-- S10: length 0; a length that is not the payload's; past the page; on either select register. -/
theorem test_descriptor_refused :
    ([⟨0xAA, 0x24, 0x18, 0, []⟩, ⟨0xAA, 0x24, 0x18, 4, [1, 2, 3]⟩,
      ⟨0xAA, 0x24, 0x70, 20, List.replicate 20 0⟩, ⟨0xAA, 0x24, 0x6C, 20, List.replicate 20 0⟩,
      ⟨0xAA, 0x24, 0x00, 1, [0]⟩] : List Descriptor).all
      (fun d => !Descriptor.wellFormed Config.reference d) = true := by decide +kernel

/-- R183: an empty cell; an ill-formed descriptor; a wrong total length; two books; a falling page; a
step of two pages; three pages. -/
theorem test_cell_refused :
    cellWellFormed Config.reference [block 0xAA 0x24 12, block 0xAA 0x25 8] = true ∧
    ([[], [⟨0xAA, 0x24, 0x00, 20, List.replicate 20 0⟩], [block 0xAA 0x24 19],
      [block 0xAA 0x24 12, block 0xAB 0x25 8], [block 0xAA 0x25 12, block 0xAA 0x24 8],
      [block 0xAA 0x24 12, block 0xAA 0x26 8],
      [block 0xAA 0x24 8, block 0xAA 0x25 8, block 0xAA 0x26 4]] : List (List Descriptor)).all
      (fun ds => !cellWellFormed Config.reference ds) = true := by decide +kernel

/-- Configurations with one ill-formed field each, the others those of `c` (R302, R4). -/
def illFormed (c : Config) : List Config :=
  [{ c with bandCount := 256 }, { c with eqMaxGainDb := 128 }, { c with gainReset := [] },
   { c with gainReset := [25] }, { c with bandBlockBytes := 0 }, { c with lut := [] },
   { c with lut := c.lut.map fun column => column.drop 1 }, { c with lut := [List.replicate 49 []] },
   { c with mixerModeCount := 0 }, { c with mixerModeCount := 257 }, { c with mixerCell := [] },
   { c with mixerModeReset := 5 }, { c with mixerOffset := ⟨0x00, 0x24, 0x20, 0x1C⟩ },
   { c with settleThreshold := 0 }, { c with clockFaultMask := 0x06 },
   { c with clockFaultMask := 0 }, { c with regBookSelect := 0x00 }, { c with designEps := -1 },
   { c with initSeq := [(0x03, [])] }]

theorem test_config_refused :
    (configNB 2 1).wf = true ∧
    (illFormed (configNB 2 1)).all (fun c =>
      !c.wf && decide (refusalOf (State.boot c) = some .illFormedConfiguration)) = true := by decide +kernel

/-! ## The codec -/

/-- V3, V4, V8 (both signs), V9, V10, V15, V16, V20, V21, V26, V28, V29 and V30. -/
theorem test_encode923 :
    ([(0x3F800000, 0x00800000), (0xBF800000, 0xFF800000), (0x33C00000, 1), (0xB3C00000, 0xFFFFFFFF),
      (0x33800000, 1), (0xB3800000, 0xFFFFFFFF), (0x437F0000, 0x7F800000), (0x437FFFFF, 0x7FFFFF80),
      (0xC3800000, 0x80000000), (0xC3800001, 0x80000000), (0xFFC12345, 0), (0x3DCCCCCD, 0x000CCCCD),
      (0xBDCCCCCD, 0xFFF33333), (0x40490FDB, 0x01921FB6)] : List (Word × Word)).all (fun p =>
      decide (response (exec (.encode923 p.1) State.reset) = some ⟨.ok, 0, .word p.2⟩)) = true := by
  decide +kernel

/-- W2, W3, W7, V13, V14, W8, W9 (both signs), W11, W12, W14, W19, W20 and W21. -/
theorem test_encode527 :
    ([(0x3F800000, 0x08000000), (0xBF800000, 0xF8000000), (0x32000000, 1), (0x31800000, 1),
      (0xB1800000, 0xFFFFFFFF), (0x31000000, 0), (0x32400000, 2), (0xB2400000, 0xFFFFFFFE),
      (0x417FFFFF, 0x7FFFFF80), (0x41800000, 0x7FFFFFFF), (0xC1800001, 0x80000000),
      (0x3DCCCCCD, 0x00CCCCCD), (0xBDCCCCCD, 0xFF333333), (0x3E95F61A, 0x0257D868)]
      : List (Word × Word)).all (fun p =>
      decide (response (exec (.encode527 p.1) State.reset) = some ⟨.ok, 0, .word p.2⟩)) = true := by
  decide +kernel

/-- The DECODE vectors of section 2. -/
theorem test_decode923 :
    response (exec (.decode923 0x00400000) State.reset) = some ⟨.ok, 0, .word 0x00400000⟩ ∧
    decCore 23 0x00400000 = 1 / 2 ∧ decCore 23 0x80000000 = -256 ∧
    decCore 23 0x7FFFFFFF = 256 - 1 / 8388608 ∧ decCore 23 0x000CCCCD = 838861 / 8388608 := by
  decide +kernel
theorem test_decode527 :
    response (exec (.decode527 0xF8000000) State.reset) = some ⟨.ok, 0, .word 0xF8000000⟩ ∧
    decCore 27 0xF8000000 = -1 ∧ decCore 27 0x10000000 = 2 ∧ decCore 27 0x80000000 = -16 ∧
    decCore 27 0xF95A19BE = -111535682 / 134217728 := by decide +kernel

/-! ## The designer -/

/-- Configuration T with the ideal values of B1 and B2, to the digits the vectors give. -/
def configB : Config :=
  { Config.reference with designKnown := [
    (⟨.lowpass, 48000, 1000⟩,
      ⟨.fin (39161266605473695 / 10000000000000000000), .fin (78322533210947390 / 10000000000000000000),
       .fin (39161266605473695 / 10000000000000000000), .fin (18153410827045680755 / 10000000000000000000),
       .fin (-83100558934675755345 / 100000000000000000000)⟩),
    (⟨.highpass, 48000, 1000⟩,
      ⟨.fin (91158666801283140725 / 100000000000000000000),
       .fin (-18231733360256628145 / 10000000000000000000),
       .fin (91158666801283140725 / 100000000000000000000),
       .fin (18153410827045680755 / 10000000000000000000),
       .fin (-83100558934675755345 / 100000000000000000000)⟩)] }

/-- B1. -/
theorem test_designLp :
    response (exec (.designLp 0x473B8000 0x447A0000) (State.resetWith configB)) =
      some ⟨.ok, 0, .coefficients 0x0008052E00100A5B0008052E0E85D18CF95A19BE⟩ := by decide +kernel

/-- B2. -/
theorem test_designHp :
    response (exec (.designHp 0x473B8000 0x447A0000) (State.resetWith configB)) =
      some ⟨.ok, 0, .coefficients 0x074AEDF3F16A2419074AEDF30E85D18CF95A19BE⟩ := by decide +kernel

/-- B9 to B17. -/
theorem test_design_precondition :
    ([(0x473B8000, 0x00000000), (0x473B8000, 0x80000000), (0x473B8000, 0xC2C80000),
      (0x473B8000, 0x46BB8000), (0x473B8000, 0x46EA6000), (0x00000000, 0x447A0000),
      (0xC73B8000, 0x447A0000), (0x7FC00000, 0x447A0000), (0x473B8000, 0x7FC00000),
      (0x7F800000, 0x447A0000)] : List (Word × Word)).all (fun p =>
      decide (stateAfter (exec (.designLp p.1 p.2) State.reset) = some { State.reset with resp := some ⟨.designPrecondition, 0, .none⟩ }) &&
      decide (stateAfter (exec (.designHp p.1 p.2) State.reset) = some { State.reset with resp := some ⟨.designPrecondition, 0, .none⟩ })) = true := by
  decide +kernel

/-! ## The lookup table -/

/-- L1, and L5, L6, L8 to L11. -/
theorem test_lookup :
    response (exec (.lookup 1 6) State.reset) = some ⟨.ok, 0, .descriptors
      [0xAA, 0x24, 0x70, 0x0C, 0xB1, 0x1E, 2, 3, 4, 5, 6, 7, 8, 9, 10, 11,
       0xAA, 0x25, 0x08, 0x08, 12, 13, 14, 15, 16, 17, 18, 19]⟩ ∧
    ([(5, 0), (3, 0), (1, 25), (1, 0xE7), (1, 0x80), (7, 99)] : List (Byte × Byte)).all (fun p =>
      decide (response (exec (.lookup p.1 p.2) State.reset) = some ⟨.validationError, 0, .none⟩)) =
      true := by decide +kernel

/-! ## The sequencer -/

/-- S1. -/
theorem test_setBookAndPage :
    history (exec (.setBookAndPage 0x8C 0x29) (stateIn .idle (oks 3))) = preambleT 0x8C 0x29 := by
  decide +kernel

/-- S2 and S9: the writes of a transaction. -/
theorem test_apply :
    history (exec (.apply 2) (stateIn .idle (oks 11) lut130)) =
      preambleT 0xAA 0x24 ++ [w 0x70 [0xB1, 0x1E, 2, 3, 4, 5, 6, 7, 8, 9, 10, 11]] ++
      preambleT 0xAA 0x25 ++ [w 0x08 [12, 13, 14, 15, 16, 17, 18, 19]] ++ restoreT ∧
    history (exec (.apply 4) (stateIn .idle (oks 16)
        [byteAt 0x24 0x10 1, byteAt 0x24 0x20 2, byteAt 0x25 0x10 3, byteAt 0x24 0x30 4])) =
      preambleT 0xAA 0x24 ++ [w 0x10 [1], w 0x20 [2]] ++ preambleT 0xAA 0x25 ++ [w 0x10 [3]] ++
      preambleT 0xAA 0x24 ++ [w 0x30 [4]] ++ restoreT := by decide +kernel

/-- S8: the payload fails and then the restore fails; the first failure is the result. -/
theorem test_apply_two_failures :
    let o := exec (.apply 1) (stateIn .idle
      (oks 3 ++ [failDraw 7] ++ oks 1 ++ [failDraw 8]) [byteAt 0x24 0x18 0xB0])
    response o = some ⟨.transportError, 7, .none⟩ ∧
    history o = preambleT 0xAA 0x24 ++
      [.w 0x18 [0xB0] (.err 7), .warn (.transportError .write 0x18 7), w 0x00 [0x00],
       .w 0x7F [0x00] (.err 8), .warn (.transportError .write 0x7F 8)] := by decide +kernel

/-! ## The refresh machine -/

/-- The table of section 6: TRIGGER from `Idle`, from `Settling(1)` and from `Complete` (F3). -/
theorem test_trigger :
    ([(.idle, .triggered), (.settling 1, .settling 1), (.complete, .triggered)]
      : List (Phase × Phase)).all (fun p =>
      decide (phaseAfter (exec .trigger (stateIn p.1 [])) = some p.2)) = true := by decide +kernel

/-- F1 (N = 2, B = 2): the phases of ticks 1 to 6, and F2 (N = 1, B = 0). -/
theorem test_tick :
    ([(.triggered, .settling 1), (.settling 1, .mixerPending), (.mixerPending, .bandPending 0),
      (.bandPending 0, .bandPending 1), (.bandPending 1, .complete), (.complete, .complete)]
      : List (Phase × Phase)).all (fun p =>
      decide (phaseAfter (exec .tick (stateOf (configNB 2 2) p.1 (oks 11))) = some p.2)) = true ∧
    phaseAfter (exec .tick (stateOf (configNB 1 0) .triggered [])) = some .mixerPending ∧
    phaseAfter (exec .tick (stateOf (configNB 1 0) .mixerPending (oks 10))) = some .complete := by
  decide +kernel

/-- S3 with the payloads of mode 0, as tick 3 of F1 writes it. -/
theorem test_tick_mixer :
    history (exec .tick (stateOf (configNB 2 2) .mixerPending (oks 10))) =
      preambleT 0x8C 0x29 ++ [w 0x18 [0, 0x80, 0, 0], w 0x24 [0, 0x80, 0, 0], w 0x20 [0, 0, 0, 0],
        w 0x1C [0, 0, 0, 0]] ++ restoreT := by decide +kernel

/-- F5 and step 12 of P2: deferred, immediate and refused. -/
theorem test_setGain :
    stateAfter (exec (.setGain 1 6) (stateIn .idle [])) = some { stateIn .idle [] with
      gain := [0, 6, 0], resp := some ⟨.ok, 0, .none⟩ } ∧
    (history (exec (.setGain 0 0xFD) (stateIn .complete (oks 7)))).drop 3 =
      [w 0x18 ([0xB0, 0x15] ++ (List.range 18).map fun j => BitVec.ofNat 8 (j + 2))] ++ restoreT ∧
    response (exec (.setGain 1 25) (stateIn .complete [])) = some ⟨.validationError, 0, .none⟩ := by
  decide +kernel

/-- F7: refused, deferred, and S3 at once in `Complete`. -/
theorem test_setMixerMode :
    response (exec (.setMixerMode 5) (stateIn .idle [])) = some ⟨.validationError, 0, .none⟩ ∧
    stateAfter (exec (.setMixerMode 2) (stateIn .idle [])) = some { stateIn .idle [] with
      mixerMode := 2, resp := some ⟨.ok, 0, .none⟩ } ∧
    history (exec (.setMixerMode 2) (stateIn .complete (oks 10))) =
      preambleT 0x8C 0x29 ++ [w 0x18 [0, 0x40, 0, 0], w 0x24 [0, 0x40, 0, 0], w 0x20 [0, 0x40, 0, 0],
        w 0x1C [0, 0x40, 0, 0]] ++ restoreT := by decide +kernel

/-! ## The fault tracker -/

/-- The state after T3. -/
def afterT3 (draws : List Draw) : State :=
  { stateIn .idle draws with snap := ⟨0x03, 0, true, 0, 0x01⟩ }

/-- T2 from reset and T4: the packed snapshots. -/
theorem test_poll :
    response (exec .poll (stateIn .idle [okDraw [0x03, 0x04, 0x00, 0x01]])) =
      some ⟨.ok, 0, .faults 0xEB01000003⟩ ∧
    response (exec .poll (afterT3 [okDraw [0x03, 0x00, 0x00, 0x01]])) =
      some ⟨.ok, 0, .faults 0xC801000003⟩ := by decide +kernel

/-- T7 (the failing poll) and T8 after it. -/
theorem test_poll_failure :
    let s := { stateIn .idle [failDraw 6] with chg := ⟨true, false, false, false, true⟩ }
    stateAfter (exec .poll s) = some { s with
      chg := ⟨false, false, false, false, false⟩, resp := some ⟨.transportError, 6, .none⟩,
      bus := { s.bus with
        draws := [], drawNo := 1,
        hist := [.r 0x70 4 (.err 6), .warn (.transportError .read 0x70 6)] } } ∧
    response (exec .poll (stateIn .idle [okDraw [0x00, 0x14, 0x80, 0x00]])) =
      some ⟨.ok, 0, .faults 0xDD00801000⟩ := by decide +kernel

/-- T3's datum, read back, and T9 with `EXCLUDE_CLOCK_FAULT`. -/
theorem test_readFaults :
    response (exec .readFaults (afterT3 [])) = some ⟨.ok, 0, .faults 0xC101000003⟩ ∧
    packFaults true ⟨0, 0, true, 0, 0⟩ ⟨false, true, false, true, false⟩ = 0x9500000000 := by
  decide +kernel

/-- T5. -/
theorem test_clearFaults :
    history (exec .clearFaults (afterT3 (oks 1))) = [w 0x78 [0x80]] := by decide +kernel

/-! ## The system -/

/-- SETUP: `INIT_SEQ` of T; a failing first write is fatal. -/
theorem test_setup :
    history (exec .setup (stateIn .idle (oks 2))) = [w 0x03 [0x02], w 0x03 [0x03]] ∧
    stateAfter (exec .setup (stateIn .idle [failDraw 5])) = some { stateIn .idle [] with
      failed := true, resp := some ⟨.transportError, 5, .none⟩,
      bus := ⟨[.w 0x03 [0x02] (.err 5), .warn (.transportError .write 0x03 5)],
        Device.fresh Config.reference, [], 1, false⟩ } := by decide +kernel

/-- The gate of R261, and a call that never returns (R321). -/
theorem test_failed_and_hung :
    response (exec .tick { stateIn .mixerPending [] with failed := true }) =
      some ⟨.deviceFailed, 0, .none⟩ ∧
    faultOf (exec .poll (stateIn .idle [.hangs])) = some .transportNeverReturned := by decide +kernel

/-! ## The reference device -/

/-- Three bytes from offset 0x10 on (R63, R66): each in its own register, the neighbours as before. -/
theorem test_device_bytes :
    let d : Device := ⟨0x8C, 0x29, []⟩
    let e := Device.writeBytes Config.reference d 0x10 [0x11, 0x00, 0x33]
    e.peek 0x8C 0x29 0x10 = 0x11 ∧ e.peek 0x8C 0x29 0x11 = 0x00 ∧ e.peek 0x8C 0x29 0x12 = 0x33 ∧
    e.peek 0x8C 0x29 0x13 = d.peek 0x8C 0x29 0x13 ∧ e.peek 0x8C 0x28 0x10 = d.peek 0x8C 0x28 0x10 := by
  decide +kernel

/-- The canonical form: no order broken, nothing twice, no entry that an unlisted address reads as; a
byte written back to what it was before leaves the memory as it was. -/
theorem test_memory_canonical :
    Memory.wf [(4, 1), (5, 2)] = true ∧ Memory.wf [(5, 2), (4, 1)] = false ∧
    Memory.wf [(5, 2), (5, 2)] = false ∧ Memory.wf [(5, Memory.unwritten)] = false ∧
    Memory.write (Memory.write [(5, 2)] 4 1) 4 Memory.unwritten = [(5, 2)] := by decide +kernel

/-! ## The text form -/

/-- P1 step 2: the literal rounds to 256.0 (R313), and a line of text assembles to its word (R110). -/
theorem test_text :
    floatOfText "255.999999".toList = some 0x43800000 ∧
    assemble ["ENCODE.9_23 255.999999 ; X2".toList] =
      some [.command 0x010000000043800000 []] := by decide +kernel

/-! ## Witnesses: for each statement with hypotheses, states and operands that meet them

A witness is named after its statement. Where the clauses of a statement have hypotheses of their own,
there is one line for each, at the ends of its range. -/

/-- An instance of T with a script of draws meets the invariant in every phase in range. -/
theorem stateOf_inv {c : Config} (hc : c.wf = true) {phase : Phase} (hp : phaseInRange c phase = true)
    (draws : List Draw) (dbuf : List Descriptor) : (stateOf c phase draws dbuf).Inv := by
  obtain ⟨hg, _, _, hx, _⟩ := Config.wf_parts hc
  simp only [gainsWellFormed, mixerWellFormed, Bool.and_eq_true, decide_eq_true_eq] at hg hx
  exact ⟨hc, hg.1.2, by simpa [stateOf, State.resetWith] using hg.2, hx.1.2, hp,
    by simp [stateOf, State.resetWith, Snapshot.reset], rfl, rfl⟩

theorem stateIn_inv {phase : Phase} (hp : phaseInRange Config.reference phase = true)
    (draws : List Draw) (dbuf : List Descriptor) : (stateIn phase draws dbuf).Inv :=
  stateOf_inv test_reference_wf hp draws dbuf

/-- A bus with a script. -/
def busOf (draws : List Draw) : Bus := ⟨[], Device.fresh Config.reference, draws, 0, false⟩

theorem busOf_succeed (n m : Nat) (rest : List Draw) (h : m ≤ n) :
    (busOf (oks n ++ rest)).NextSucceed m := by
  refine ⟨rfl, by simp [busOf, oks]; omega, ?_⟩
  have : m - n = 0 := by omega
  simp [busOf, oks, List.take_append, this, List.take_replicate, Draw.succeeds, okDraw]

theorem busOf_failAt (k code : Nat) (rest : List Draw) :
    (busOf (oks k ++ failDraw code :: rest)).NextFailAt k (Fin.ofNat 255 (code - 1)) 0 :=
  ⟨busOf_succeed k k _ le_rfl, by simp [busOf, oks, failDraw]⟩

/-- A transaction whose first write fails, restored. -/
theorem failed_write (p : Phase) {ds : List Descriptor} {w : Byte × List Byte}
    (h : (runWrites Config.reference none ds)[0]? = some w) :
    ∃ b, FailedTransaction Config.reference ds (stateIn p (failDraw 1 :: oks 3)).bus 0 b :=
  ⟨_, .write 0 w 0 0 h (busOf_failAt 0 1 (oks 3)) (busOf_succeed 3 3 [] le_rfl)⟩

/-- A transaction whose first write fails, and then the last write of the restore. -/
theorem failed_writeAndRestore (p : Phase) {ds : List Descriptor} {w : Byte × List Byte}
    (h : (runWrites Config.reference none ds)[0]? = some w) :
    ∃ b, FailedTransaction Config.reference ds
      (stateIn p (failDraw 1 :: (oks 2 ++ [failDraw 255]))).bus 0 b :=
  ⟨_, .writeAndRestore 0 w 0 0 h (busOf_failAt 0 1 _) 2 _ 254 0 rfl (busOf_failAt 2 255 [])⟩

/-- A transaction whose restore alone fails, at its first write. -/
theorem failed_restore (p : Phase) {ds : List Descriptor} {n : Nat} (hne : ds ≠ [])
    (h : (runWrites Config.reference none ds).length = n) :
    ∃ b, FailedTransaction Config.reference ds (stateIn p (oks n ++ [failDraw 4])).bus 3 b :=
  ⟨_, .restore hne 0 _ 3 0 rfl (by rw [h]; exact busOf_failAt n 4 [])⟩

theorem witness_EncodeOfDecode : decode 0x220000000000000106 = .ok (.setGain 1 6) := by
  decide +kernel

theorem witness_ReservedOpcodeIsIllegal :
    let s (cmd : CommandWord) : State := { State.reset with port := [.command cmd []] }
    (s 0x31).bus.stuck = false ∧
    (s 0x310000000000000000).port = [.command 0x310000000000000000 []] ∧
    opcodeOf 0x000000000000000000 = 0x00 ∧ opcodeOf 0x310000000000000000 = 0x31 ∧
    opcodeOf 0xFF0000000000000000 = 0xFF ∧
    ([0x00, 0x05, 0x07, 0x0A, 0x31, 0xFF] : List Byte).all (fun op =>
      decide (op ∉ ([0x01, 0x02, 0x03, 0x04, 0x08, 0x09, 0x10, 0x18, 0x19, 0x20, 0x21, 0x22, 0x23,
        0x28, 0x29, 0x2A, 0x30] : List Byte))) = true := by decide +kernel

/-- Both clauses at the ends of the field, for V, L, M and Z; format D has no reserved bit. -/
theorem witness_ReservedBitsAreIllegal :
    let used (cmd : CommandWord) := (operandOf cmd).toNat
    used 0x0100000000FFFFFFFF < 2 ^ 32 ∧ 2 ^ 32 ≤ used 0x010000000100000000 ∧
    used 0x08FFFFFFFFFFFFFFFF < 2 ^ 64 ∧
    used 0x22000000000000FFFF < 2 ^ 16 ∧ 2 ^ 16 ≤ used 0x220000000000010000 ∧
    used 0x2300000000000000FF < 2 ^ 8 ∧ 2 ^ 8 ≤ used 0x230000000000000100 ∧
    used 0x210000000000000000 < 2 ^ 0 ∧ 2 ^ 0 ≤ used 0x210000000000000001 ∧
    State.reset.bus.stuck = false := by decide +kernel

theorem witness_StepRunsDecoded :
    let s : State := { State.reset with port := [.command 0x210000000000000000 []] }
    s.bus.stuck = false ∧ s.port = [.command 0x210000000000000000 []] ∧
    decode 0x210000000000000000 = .ok .tick ∧
    State.reset.bus.stuck = false ∧ State.reset.port = [] := by decide +kernel

theorem witness_SerialFormAndFetchWord :
    (∀ d ∈ lut130, d.payload.length = d.len.toNat) ∧ (stateIn .idle [] lut130).bus.stuck = false ∧
    (∀ d ∈ (stateIn .idle [] lut130).dbuf, d.payload.length = d.len.toNat) := by decide +kernel

/-- The smallest and the largest NaN pattern of each sign. -/
theorem witness_NonFiniteAndZeroEncode :
    ([0x7F800001, 0x7FFFFFFF, 0xFF800001, 0xFFFFFFFF] : List Word).all (fun v =>
      decide (v.extractLsb' 23 8 = 255) && decide (v.extractLsb' 0 23 ≠ 0)) = true := by
  decide +kernel

/-- Each of the five clauses, at its bound. -/
theorem witness_EncodeExtremesAndTies :
    (2 : ℚ) ^ (fmt923.m - 1) ≤ 256 ∧ (-16 : ℚ) ≤ -(2 : ℚ) ^ (fmt527.m - 1) ∧
    |(1 / 2 ^ 24 - 1 / 2 ^ 60 : ℚ)| < 1 / 2 ^ (fmt923.n + 1) ∧
    (1 / 2 ^ 28 : ℚ) = 1 / 2 ^ (fmt527.n + 1) ∧
    (-(1 / 2 ^ 24) : ℚ) = -(1 / 2 ^ (fmt923.n + 1)) := by decide +kernel

theorem witness_SaturationLaw :
    fmtMax fmt923 < 256 ∧ (-256 - 1 / 2 ^ 15 : ℚ) < fmtMin fmt923 := by decide +kernel

/-- Both ends of the range and a tie. -/
theorem witness_RoundTripHalfUnit :
    ∀ x ∈ ([-256, 256 - 1 / 2 ^ 23, 1 / 2 ^ 24] : List ℚ),
      fmtMin fmt923 ≤ x ∧ x ≤ fmtMax fmt923 := by decide +kernel

theorem witness_EncodeIsMonotone : (-1 : ℚ) ≤ 1 ∧ ExtRat.fin 0 ≠ .nan := by decide +kernel

theorem witness_EncodeIsOdd :
    |fmtMax fmt923| ≤ fmtMax fmt923 ∧ (2 : ℚ) ^ (fmt923.m - 1) ≤ 256 := by decide +kernel

theorem witness_EncodeIsExact :
    (-256 : ℚ) * 2 ^ fmt923.n = ((-2147483648 : ℤ) : ℚ) ∧ fmtMin fmt923 ≤ -256 ∧
    (-256 : ℚ) ≤ fmtMax fmt923 ∧
    f32Value 0x3F800000 = .fin 1 ∧ (2 ^ 23 / 2 ^ fmt923.n : ℚ) ≤ |1| ∧
    f32Value 0x3D800000 = .fin (1 / 16) ∧ (2 ^ 23 / 2 ^ fmt527.n : ℚ) ≤ |1 / 16| := by
  decide +kernel

/-- B1, B7 (just inside the bound) and B18 (the smallest cutoff). -/
theorem witness_DesignCompletes :
    f32Value 0x473B8000 = .fin 48000 ∧ f32Value 0x447A0000 = .fin 1000 ∧
    f32Value 0x46BB7E00 = .fin 23999 ∧ f32Value 0x00000001 = .fin (1 / 2 ^ 149) ∧
    (∀ fc ∈ ([1000, 23999, 1 / 2 ^ 149] : List ℚ), 0 < fc ∧ fc < 48000 / 2) := by decide +kernel

theorem witness_DesignPreconditionIsReported :
    (¬ ∃ fs fc : ℚ, f32Value 0x473B8000 = .fin fs ∧ f32Value 0x46BB8000 = .fin fc ∧ 0 < fc ∧
      fc < fs / 2) ∧
    (¬ ∃ fs fc : ℚ, f32Value 0x7F800000 = .fin fs ∧ f32Value 0x447A0000 = .fin fc ∧ 0 < fc ∧
      fc < fs / 2) := by
  have h1 : f32Value 0x473B8000 = .fin 48000 := by decide +kernel
  have h2 : f32Value 0x46BB8000 = .fin 24000 := by decide +kernel
  have h3 : f32Value 0x7F800000 = .posInf := by decide +kernel
  rw [h1, h2, h3]
  constructor
  · rintro ⟨fs, fc, e1, e2, _, h⟩
    injection e1 with e1
    injection e2 with e2
    subst e1 e2
    norm_num at h
  · rintro ⟨fs, fc, e1, _⟩
    cases e1

/-- The premise of the three statements on the ideal design. -/
theorem witness_IdealDesign : (0 : ℚ) < 1000 ∧ (1000 : ℚ) < 48000 / 2 := by decide +kernel

/-- An instance whose numerics are exact at one point: at fc = fs / 4 the ideal value of -a1/a0 is 0. -/
theorem witness_DesignWordsAreClose :
    ∃ c : Config, (0 : ℚ) < 1 ∧ (1 : ℚ) < 4 / 2 ∧ DesignCloseAt c .lowpass 4 1 3 := by
  refine ⟨{ Config.reference with designKnown := [(⟨.lowpass, 4, 1⟩,
    ⟨.fin 0, .fin 0, .fin 0, .fin 0, .fin 0⟩)] }, by norm_num, by norm_num, 0, ?_, ?_⟩
  · simp [designNumerics, knownDesign, DesignValues.at]
  · have h : idealA1 4 1 = 0 := by
      have : idealW0 4 1 = Real.pi / 2 := by
        unfold idealW0
        push_cast
        ring
      simp [idealA1, this]
    simp [idealValue, h, Config.reference]

/-- Both clauses, at the ends of the band's and of the gain's range. -/
theorem witness_LookupRule :
    State.reset.cfg.wf = true ∧
    (2 : Byte).toNat < State.reset.cfg.bandCount ∧
    -(State.reset.cfg.eqMaxGainDb : ℤ) ≤ (0xE8 : Byte).toInt ∧
    (0x18 : Byte).toInt ≤ (State.reset.cfg.eqMaxGainDb : ℤ) ∧
    State.reset.cfg.bandCount ≤ (3 : Byte).toNat ∧
    (0xE7 : Byte).toInt < -(State.reset.cfg.eqMaxGainDb : ℤ) ∧
    (State.reset.cfg.eqMaxGainDb : ℤ) < (0x19 : Byte).toInt := by decide +kernel

/-- All three writes succeed, or write k fails, for each k. -/
theorem witness_SetBookAndPageRule :
    (stateIn .idle (oks 3)).failed = false ∧ (stateIn .idle (oks 3)).bus.NextSucceed 3 ∧
    State.reset.cfg.regPageSelect ≠ State.reset.cfg.regBookSelect ∧
    ∀ k ≤ 2, (∃ w, (preambleWrites Config.reference 0x8C 0x29)[k]? = some w) ∧
      (stateIn .idle (oks k ++ [failDraw 3])).bus.NextFailAt k 2 0 := by
  refine ⟨rfl, busOf_succeed 3 3 [] le_rfl, by decide +kernel, fun k hk => ⟨?_, busOf_failAt k 3 []⟩⟩
  have : k < (preambleWrites Config.reference 0x8C 0x29).length := by
    rw [preambleWrites_length]; omega
  exact ⟨_, List.getElem?_eq_getElem this⟩

/-- Each way a list can be refused (S10): the count, then one bad descriptor for each check. -/
theorem witness_ApplyValidates :
    let c := Config.reference
    (stateIn .idle [] lut130).failed = false ∧ (stateIn .idle [] lut130).bus.stuck = false ∧
    (stateIn .idle [] lut130).dbuf.length ≠ (1 : Byte).toNat ∧
    (⟨0xAA, 0x24, 0x18, 0, []⟩ : Descriptor).len.toNat = 0 ∧
    (⟨0xAA, 0x24, 0x18, 4, [1, 2, 3]⟩ : Descriptor).payload.length ≠ (4 : Byte).toNat ∧
    c.pageLastOffset.toNat < (0x7F : Byte).toNat + (2 : Byte).toNat - 1 ∧
    (0x00 : Byte).toNat + 0 = c.regPageSelect.toNat ∧
    (0x6C : Byte).toNat + 19 = c.regBookSelect.toNat := by decide +kernel

/-- The empty list and a list of two pages, with exactly the successes it needs (S11, S2). -/
theorem witness_ApplyTrace :
    (stateIn .idle [] []).failed = false ∧ (stateIn .idle [] []).bus.stuck = false ∧
    (stateIn .idle [] []).dbuf.length = (0 : Byte).toNat ∧
    (stateIn .idle (oks 11) lut130).dbuf.length = (2 : Byte).toNat ∧
    lut130.all (Descriptor.wellFormed Config.reference) = true ∧ lut130 ≠ [] ∧
    3 * contextChanges none lut130 + lut130.length + 3 = 11 ∧
    (stateIn .idle (oks 11) lut130).bus.NextSucceed 11 :=
  ⟨rfl, rfl, rfl, rfl, by decide +kernel, by decide +kernel, by decide +kernel,
    busOf_succeed 11 11 [] le_rfl⟩

/-- A failing write with a successful and with a failing restore (S5, S8), and a restore that alone fails
(S7). -/
theorem witness_ApplyAbortsAndRestores :
    (stateIn .idle [] lut130).failed = false ∧
    lut130.all (Descriptor.wellFormed Config.reference) = true ∧
    (runWrites Config.reference none lut130)[7]? = some (0x08, [12, 13, 14, 15, 16, 17, 18, 19]) ∧
    (runWrites Config.reference none lut130).length = 8 ∧
    (stateIn .idle (oks 7 ++ [failDraw 9] ++ oks 3) lut130).bus.NextFailAt 7 8 0 ∧
    (busOf (oks 3)).NextSucceed 3 ∧ (busOf (oks 1 ++ [failDraw 8])).NextFailAt 1 7 0 ∧
    (stateIn .idle (oks 9 ++ [failDraw 4]) lut130).bus.NextFailAt (8 + 1) 3 0 := by
  refine ⟨rfl, by decide +kernel, by decide +kernel, by decide +kernel, ?_, busOf_succeed 3 3 [] le_rfl,
    busOf_failAt 1 8 [], busOf_failAt 9 4 []⟩
  rw [List.append_assoc]
  exact busOf_failAt 7 9 (oks 3)

theorem witness_ApplyStoresPayload :
    let d : Descriptor := ⟨0xAA, 0x25, 0x08, 8, [12, 13, 14, 15, 16, 17, 18, 19]⟩
    lut130 = lut130.dropLast ++ [d] ∧ 0 < d.len.toNat ∧ 7 < d.len.toNat ∧
    Memory.wf (stateIn .idle (oks 11) lut130).bus.dev.mem = true := by decide +kernel

/-- A completed transaction, and an address that its descriptors do not cover. -/
theorem witness_DeviceRegisterFrame :
    (∃ t, exec (.apply 2) (stateIn .idle (oks 11) lut130) = .next t) ∧
    (∃ t, exec .clearFaults (stateIn .idle (oks 1)) = .next t) ∧
    (∀ d ∈ lut130, ¬ Descriptor.covers d 0xAA 0x24 0x6F) := by
  refine ⟨⟨_, rfl⟩, ⟨_, rfl⟩, ?_⟩
  rintro d hd ⟨j, hj, h1, h2, h3⟩
  simp only [lut130, List.mem_cons, List.not_mem_nil, or_false] at hd
  rcases hd with rfl | rfl
  · have := congrArg BitVec.toNat h3
    simp at hj this
    omega
  · exact absurd h2 (by decide)

/-- A running device in each phase that TRIGGER leaves, and a failed one. -/
theorem witness_TriggerRule :
    (stateIn .idle []).failed = false ∧ (stateIn .complete []).failed = false ∧
    ({ stateIn .complete [] with failed := true } : State).failed = true := ⟨rfl, rfl, rfl⟩

theorem witness_TickQuietPhases :
    (∀ p ∈ ([.idle, .complete] : List Phase),
      (stateIn p []).failed = false ∧ ticksNeeded (stateIn p []).phase = false) ∧
    (stateIn .triggered []).phase = .triggered ∧ (stateIn (.settling 19) []).phase = .settling 19 := by
  decide +kernel

/-- A running device whose transport returns, in every phase of the table. -/
theorem witness_TickPhaseTable (p : Phase) :
    (stateIn p (oks 11)).failed = false ∧ (stateIn p (oks 11)).TransportReturns :=
  ⟨rfl, by simp [State.TransportReturns, Bus.returns, stateIn, stateOf, oks, okDraw]⟩

theorem witness_TickProgramsMixer :
    (stateIn .mixerPending (oks 10)).Inv ∧ (stateIn .mixerPending (oks 10)).failed = false ∧
    Config.reference.mixerCell[0]? = some ⟨0x3F800000, 0x3F800000, 0, 0⟩ ∧
    (stateIn .mixerPending (oks 10)).bus.NextSucceed 10 :=
  ⟨stateIn_inv rfl _ _, rfl, by decide +kernel, busOf_succeed 10 10 [] le_rfl⟩

/-- The first and the last band. -/
theorem witness_TickProgramsBand :
    (stateIn (.bandPending 0) (oks 7)).Inv ∧ (stateIn (.bandPending 2) (oks 7)).Inv ∧
    (transactionWrites Config.reference (lutCell Config.reference 0 24)).length = 7 ∧
    (transactionWrites Config.reference (lutCell Config.reference 2 24)).length = 7 ∧
    (stateIn (.bandPending 2) (oks 7)).bus.NextSucceed 7 :=
  ⟨stateIn_inv (by decide) _ _, stateIn_inv (by decide) _ _, by decide +kernel, by decide +kernel,
    busOf_succeed 7 7 [] le_rfl⟩

/-- The mixer's and a band's transaction fail at a write, at a write and in the restore, and in the
restore alone. -/
theorem witness_TickAbsorbsFailure (draws : List Draw) :
    let mixer := mixerDescriptors Config.reference 0
    let band := lutCell Config.reference 2 24
    (stateIn .mixerPending draws).Inv ∧ (stateIn (.bandPending 2) draws).Inv ∧
    (stateIn (.bandPending 2) draws).gain[2]? = some 0 ∧ rowOf Config.reference 0 = 24 ∧
    (∃ b, FailedTransaction Config.reference mixer
      (stateIn .mixerPending (failDraw 1 :: oks 3)).bus 0 b) ∧
    (∃ b, FailedTransaction Config.reference mixer
      (stateIn .mixerPending (failDraw 1 :: (oks 2 ++ [failDraw 255]))).bus 0 b) ∧
    (∃ b, FailedTransaction Config.reference mixer
      (stateIn .mixerPending (oks 7 ++ [failDraw 4])).bus 3 b) ∧
    (∃ b, FailedTransaction Config.reference band
      (stateIn (.bandPending 2) (failDraw 1 :: oks 3)).bus 0 b) ∧
    (∃ b, FailedTransaction Config.reference band
      (stateIn (.bandPending 2) (failDraw 1 :: (oks 2 ++ [failDraw 255]))).bus 0 b) ∧
    (∃ b, FailedTransaction Config.reference band
      (stateIn (.bandPending 2) (oks 4 ++ [failDraw 4])).bus 3 b) := by
  have hm : (runWrites Config.reference none (mixerDescriptors Config.reference 0))[0]? =
      some (0x00, [0x00]) := by decide +kernel
  have hb : (runWrites Config.reference none (lutCell Config.reference 2 24))[0]? =
      some (0x00, [0x00]) := by decide +kernel
  exact ⟨stateIn_inv rfl _ _, stateIn_inv (by decide) _ _, rfl, by decide +kernel,
    failed_write _ hm, failed_writeAndRestore _ hm,
    failed_restore _ (by decide +kernel) (by decide +kernel),
    failed_write _ hb, failed_writeAndRestore _ hb,
    failed_restore _ (by decide +kernel) (by decide +kernel)⟩

/-- The premises of R222, on the smallest instance (F2) and on T; lists of commands with triggers among
the ticks, at the bounds of both counts. -/
theorem witness_TickCountToComplete :
    let cmds : List Instr := .trigger :: (List.replicate 22 .tick ++ [.trigger, .tick])
    (stateOf (configNB 1 0) .idle (oks 10)).Inv ∧ (stateIn .idle (oks 40)).Inv ∧
    (stateIn .idle (oks 40)).TransportReturns ∧
    (∀ i ∈ ([.trigger, .tick] : List Instr), i = .tick ∨ i = .trigger) ∧
    ([.trigger, .tick] : List Instr).count .tick = 1 + 0 ∧
    (∀ i ∈ cmds, i = .tick ∨ i = .trigger) ∧
    cmds.count .tick = Config.reference.settleThreshold + Config.reference.bandCount :=
  ⟨stateOf_inv test_small_wf.2 rfl _ _, stateIn_inv rfl _ _,
    by simp [State.TransportReturns, Bus.returns, stateIn, stateOf, oks, okDraw],
    by decide, by decide, by decide, by decide⟩

/-- The premises of R225, on T. -/
theorem witness_FirstHardwareAccess :
    (stateIn .idle (oks 10)).Inv ∧ (stateIn .idle (oks 10)).failed = false ∧
    (stateIn .idle (oks 10)).phase = .idle ∧ (stateIn .idle (oks 10)).TransportReturns :=
  ⟨stateIn_inv rfl _ _, rfl, rfl,
    by simp [State.TransportReturns, Bus.returns, stateIn, stateOf, oks, okDraw]⟩

/-- F1's refresh: 28 writes. -/
theorem witness_RefreshWritesEverything :
    (stateOf (configNB 2 2) .triggered (oks 28)).Inv ∧
    (transactionWrites (configNB 2 2) (mixerDescriptors (configNB 2 2) 0) ++
      (List.range 2).flatMap fun i =>
        transactionWrites (configNB 2 2) (lutCell (configNB 2 2) i 24)).length = 28 ∧
    (busOf (oks 28)).NextSucceed 28 :=
  ⟨stateOf_inv test_small_wf.1 rfl _ _, by decide +kernel, busOf_succeed 28 28 [] le_rfl⟩

/-- The operands at the ends of their ranges, and a phase other than `Complete`. -/
theorem witness_SettersRejectOrDefer :
    (stateIn .idle []).failed = false ∧ (stateIn .idle []).phase ≠ .complete ∧
    (stateIn .idle []).cfg.bandCount ≤ (3 : Byte).toNat ∧
    (2 : Byte).toNat < (stateIn .idle []).cfg.bandCount ∧
    (0xE7 : Byte).toInt < -(Config.reference.eqMaxGainDb : ℤ) ∧
    -(Config.reference.eqMaxGainDb : ℤ) ≤ (0xE8 : Byte).toInt ∧
    (Config.reference.eqMaxGainDb : ℤ) < (0x19 : Byte).toInt ∧
    (0x18 : Byte).toInt ≤ (Config.reference.eqMaxGainDb : ℤ) ∧
    Config.reference.mixerModeCount ≤ (5 : Byte).toNat ∧
    (4 : Byte).toNat < Config.reference.mixerModeCount := by decide +kernel

/-- Band 1 of T in `Complete`: eleven successes, and a failure at a write, at a write and in the restore,
and in the restore alone. -/
theorem witness_SetGainImmediate :
    (stateIn .complete (oks 11)).Inv ∧ (1 : Byte).toNat < Config.reference.bandCount ∧
    (transactionWrites Config.reference lut130).length = 11 ∧
    (stateIn .complete (oks 11)).bus.NextSucceed 11 ∧
    (∃ b, FailedTransaction Config.reference lut130
      (stateIn .complete (failDraw 1 :: oks 3)).bus 0 b) ∧
    (∃ b, FailedTransaction Config.reference lut130
      (stateIn .complete (failDraw 1 :: (oks 2 ++ [failDraw 255]))).bus 0 b) ∧
    (∃ b, FailedTransaction Config.reference lut130
      (stateIn .complete (oks 8 ++ [failDraw 4])).bus 3 b) := by
  have h : (runWrites Config.reference none lut130)[0]? = some (0x00, [0x00]) := by decide +kernel
  exact ⟨stateIn_inv rfl _ _, by decide +kernel, by decide +kernel, busOf_succeed 11 11 [] le_rfl,
    failed_write _ h, failed_writeAndRestore _ h,
    failed_restore _ (by decide +kernel) (by decide +kernel)⟩

/-- The last mode of T in `Complete`: ten successes, and the three ways to fail. -/
theorem witness_SetMixerModeImmediate :
    let ds := mixerDescriptors Config.reference 4
    (stateIn .complete (oks 10)).Inv ∧ (4 : Byte).toNat < Config.reference.mixerModeCount ∧
    (stateIn .complete (oks 10)).bus.NextSucceed 10 ∧
    (∃ b, FailedTransaction Config.reference ds (stateIn .complete (failDraw 1 :: oks 3)).bus 0 b) ∧
    (∃ b, FailedTransaction Config.reference ds
      (stateIn .complete (failDraw 1 :: (oks 2 ++ [failDraw 255]))).bus 0 b) ∧
    (∃ b, FailedTransaction Config.reference ds
      (stateIn .complete (oks 7 ++ [failDraw 4])).bus 3 b) := by
  have h : (runWrites Config.reference none (mixerDescriptors Config.reference 4))[0]? =
      some (0x00, [0x00]) := by decide +kernel
  exact ⟨stateIn_inv rfl _ _, by decide +kernel, busOf_succeed 10 10 [] le_rfl,
    failed_write _ h, failed_writeAndRestore _ h,
    failed_restore _ (by decide +kernel) (by decide +kernel)⟩

theorem witness_PollRule :
    (stateIn .idle [okDraw [3, 4, 0, 1]]).failed = false ∧
    (stateIn .idle [okDraw [3, 4, 0, 1]]).bus.stuck = false ∧
    (stateIn .idle [okDraw [3, 4, 0, 1]]).bus.draws = [.returns (.ok [3, 4, 0, 1])] := ⟨rfl, rfl, rfl⟩

theorem witness_PollFailureRule :
    (stateIn .idle [failDraw 255]).bus.stuck = false ∧
    (stateIn .idle [failDraw 255]).bus.draws = [.returns (.err 254 0)] := by decide +kernel

/-- The three laws: the same bytes, the clock bit alone, another bit of the global byte alone. -/
theorem witness_TrackerLaws :
    let s (z1 : Byte) := stateIn .idle [okDraw [3, 0x14, 0, 1], okDraw [3, z1, 0, 1]]
    (s 0x14).cfg.wf = true ∧
    ([0x14, 0x10, 0x94] : List Byte).all (fun z1 =>
      (stateAfter (exec .poll (s z1)) >>= fun t => stateAfter (exec .poll t)).isSome) = true ∧
    (0x10 : Byte) = 0x14 ^^^ Config.reference.clockFaultMask ∧ (0x94 : Byte) ≠ 0x14 ∧
    (0x94 : Byte) &&& Config.reference.clockFaultMask = 0x14 &&& Config.reference.clockFaultMask := by
  decide +kernel

theorem witness_ReadFaultsRule : (afterT3 []).failed = false := rfl

theorem witness_ClearFaultsRule :
    (afterT3 (oks 1)).failed = false ∧ (stateIn .idle (oks 1)).bus.NextSucceed 1 ∧
    (stateIn .idle [failDraw 2]).bus.NextFailAt 0 1 0 :=
  ⟨rfl, busOf_succeed 1 1 [] le_rfl, busOf_failAt 0 2 []⟩

/-- Both writes of T's `INIT_SEQ` succeed, or the first or the last fails. -/
theorem witness_SetupRule :
    (stateIn .idle (oks 2)).failed = false ∧
    (stateIn .idle (oks 2)).bus.NextSucceed Config.reference.initSeq.length ∧
    Config.reference.initSeq[0]? = some (0x03, [0x02]) ∧
    (stateIn .idle [failDraw 5]).bus.NextFailAt 0 4 0 ∧
    Config.reference.initSeq[1]? = some (0x03, [0x03]) ∧
    (stateIn .idle (oks 1 ++ [failDraw 5])).bus.NextFailAt 1 4 0 :=
  ⟨rfl, busOf_succeed 2 2 [] le_rfl, rfl, busOf_failAt 0 5 [], rfl, busOf_failAt 1 5 []⟩

/-- A failed device: gated, kept, and cleared by the reset event. -/
theorem witness_FailedLatch :
    let s : State := { stateIn .idle [] with failed := true, port := [.reset] }
    s.failed = true ∧ isPure .tick = false ∧ isPure (.lookup 1 6) = true ∧
    (stateAfter (exec .tick s)).isSome = true ∧
    (stateAfter (step s)).map State.failed = some false := by decide +kernel

/-- TICK and TRIGGER on states that meet the invariant. -/
theorem witness_PhaseOrder :
    (stateIn (.settling 1) []).Inv ∧ (∃ t, exec .tick (stateIn (.settling 1) []) = .next t) ∧
    (stateIn .complete []).Inv ∧
    (stateAfter (exec .trigger (stateIn .complete []))).map (fun t =>
      decide (phaseRank t.cfg t.phase < phaseRank t.cfg .complete)) = some true :=
  ⟨stateIn_inv (by decide) _ _, ⟨_, rfl⟩, stateIn_inv rfl _ _, by decide +kernel⟩

/-- One operation of each kind that completes: a setter, a poll, a transaction and SETUP. -/
theorem witness_RegisterFrame :
    (stateAfter (exec (.setGain 1 6) (stateIn .idle []))).isSome = true ∧
    (stateAfter (exec .poll (stateIn .idle [okDraw [0, 0, 0, 0]]))).isSome = true ∧
    (stateAfter (exec .tick (stateIn .mixerPending (oks 10)))).isSome = true ∧
    (stateAfter (exec .setup (stateIn .idle (oks 2)))).isSome = true := by decide +kernel

/-- A transport that returns; a call that never does; a stuck block. -/
theorem witness_EveryOperationCompletes :
    (stateIn .mixerPending (oks 10)).TransportReturns ∧
    faultOf (exec .tick (stateIn .mixerPending [.hangs])) = some .transportNeverReturned ∧
    (stateIn .idle [.hangs]).failed = false ∧
    ({ stateIn .idle [] with bus := { busOf [] with stuck := true } } : State).bus.stuck = true :=
  ⟨by simp [State.TransportReturns, Bus.returns, stateIn, stateOf, oks, okDraw], by decide +kernel,
    rfl, rfl⟩

/-- A result of each status class: a failed transport call and a success. -/
theorem witness_ResponseCodes :
    (stateAfter (exec .poll (stateIn .idle [failDraw 6]))).isSome = true ∧
    (stateAfter (exec .readFaults (stateIn .idle []))).isSome = true := by decide +kernel

/-- A step from a state that meets the invariant: a TICK on the port. -/
theorem witness_StepKeepsInvariant :
    ((stateIn .mixerPending (oks 10)).withFetchWord 72 0x210000000000000000).Inv ∧
    (stateAfter (step ((stateIn .mixerPending (oks 10)).withFetchWord 72
      0x210000000000000000))).map State.phase = some (.bandPending 0) := by
  refine ⟨?_, by decide +kernel⟩
  have h := stateIn_inv (phase := .mixerPending) rfl (oks 10) []
  exact ⟨h.1, h.2, h.3, h.4, h.5, h.6, h.7, h.8⟩

theorem witness_ResetStates :
    Config.reference.wf = true ∧ ({ Config.reference with settleThreshold := 0 } : Config).wf = false := by
  decide +kernel

theorem witness_ResetEventAndIntrusions :
    let s (e : PortEvent) : State := { stateIn .complete [] with port := [e] }
    (s .reset).bus.stuck = false ∧ (s .reset).port = [.reset] ∧
    (s (.intrusion .foreignBusMaster)).port = [.intrusion .foreignBusMaster] := by decide +kernel

/-- The ends of R100's ranges: N = 256 and B = 255. -/
theorem witness_FlatPhase :
    let c := { Config.reference with settleThreshold := 256, bandCount := 255 }
    phaseInRange c (.settling 255) = true ∧ phaseInRange c (.bandPending 254) = true ∧
    phaseOfFlat (4#3 ++ 254#8) = some (.bandPending 254) := by decide +kernel

end Sys2Proof.Tests
end

section
/-! SUPPORT. The family of 00_scope.md: every operation returns one result whose code fits its status (R8,
R62, R108), and reset reaches the invariant (R34, R302). -/

namespace Sys2Proof.Machine

/-! ## Every operation returns a legal result -/

/-- R108's check on a code is R62's equivalence. -/
theorem Result.codeLegal_iff {r : Result} :
    r.codeLegal = true ↔ (r.code ≠ 0 ↔ r.status = .transportError) := by
  unfold Result.codeLegal
  split <;> simp [*]

/-- The response register holds a result whose code fits its status (R8, R108). -/
def State.RespLegal (t : State) : Prop := ∃ r, t.resp = some r ∧ r.codeLegal = true

/-- An outcome that, where it is a next state, leaves a legal result in the response register. -/
def AnswersLegally (o : Host.Outcome State Fault Refusal) : Prop := ∀ t, o = .next t → t.RespLegal

theorem State.deliver_respLegal (s : State) {r : Result} (hr : r.codeLegal = true) :
    (s.deliver r).RespLegal := ⟨r, rfl, hr⟩

theorem answer_answersLegally (s : State) {r : Result} (hr : r.codeLegal = true) :
    AnswersLegally (answer s r) := by
  rintro _ ⟨⟩
  exact s.deliver_respLegal hr

theorem gated_answersLegally {s : State} {run : Host.Outcome State Fault Refusal}
    (h : AnswersLegally run) : AnswersLegally (gated s run) := by
  intro t ht
  rcases gated_next ht with ⟨_, rfl⟩ | ⟨_, hrun⟩
  · exact s.deliver_respLegal rfl
  · exact h t hrun

/-- An operation that calls the transport need only deliver a legal result where every call has returned:
`conclude` gives no next state to the others (R321). -/
theorem conclude_answersLegally {s t : State} (hret : s.bus.returns = true → t.bus.returns = true)
    (h : t.bus.stuck = false → t.RespLegal) : AnswersLegally (conclude s t) := by
  intro u hu
  obtain ⟨rfl, hstuck⟩ := conclude_settled hret hu
  exact h hstuck

/-- An operation that ends by delivering what its run of calls settled on. -/
theorem conclude_run_answersLegally {s t : State} {p : Result × Bus} (hp : Settled p)
    (hret : s.bus.returns = true → p.2.returns = true) (ht : t.bus = p.2) :
    AnswersLegally (conclude s (t.deliver p.1)) := by
  apply conclude_answersLegally
  · rwa [State.deliver_bus, ht]
  · intro hstuck
    rw [State.deliver_bus, ht] at hstuck
    exact t.deliver_respLegal (Result.codeLegal_iff.2 (hp.codes hstuck))

theorem designResult_codeLegal (c : Config) (kind : FilterKind) (fs fc : Word) :
    (designResult c kind fs fc).codeLegal = true := by
  unfold designResult
  split <;> rfl

/-- What POLL's read leaves is a legal result, unless the read never returned (R240, R249). -/
theorem pollReturn_respLegal (s : State) (o : Byte) (n : Nat)
    (hstuck : (tRead o n s.bus).2.stuck = false) : (pollReturn s (tRead o n s.bus)).RespLegal := by
  rcases tRead_cases o n s.bus with ⟨h, e⟩ | ⟨_, _, e⟩ | ⟨_, _, _, e⟩ | ⟨_, code, _, _, e⟩
  · simp [e, h] at hstuck
  · simp [e] at hstuck
  · rw [e]; exact State.deliver_respLegal _ rfl
  · rw [e]
    have hcode := BusCode.toByte_ne_zero code
    exact State.deliver_respLegal _ (Result.codeLegal_iff.2 (by simpa using hcode))

/-- POLL's end touches the bus by a warning at most, so the mark of a hanging call is the read's. -/
theorem pollReturn_stuck (s : State) (p : ReadResult × Bus) :
    (pollReturn s p).bus.stuck = p.2.stuck := by
  rcases p with ⟨_ | _, b⟩ <;> rfl

/-- The end of both setters, in `Complete` and elsewhere (R219, R220). -/
theorem settleNow_answersLegally {before s : State} (hb : before.bus = s.bus) (target : Target)
    (ds : List Descriptor) : AnswersLegally (settleNow before s target ds) := by
  unfold settleNow
  split
  · refine conclude_run_answersLegally (settingWrite_settled _ _ _ _) (fun h => ?_) rfl
    exact (returns_invariant _).settingWrite _ _ _ (hb ▸ h)
  · exact answer_answersLegally s rfl

/-- Every operation answers with a result whose code fits its status (R8, R62, R108). -/
theorem exec_answersLegally (i : Instr) (s : State) : AnswersLegally (exec i s) := by
  cases i with
  | encode923 v => exact answer_answersLegally s rfl
  | encode527 v => exact answer_answersLegally s rfl
  | decode923 w => exact answer_answersLegally s rfl
  | decode527 w => exact answer_answersLegally s rfl
  | designLp fs fc => exact answer_answersLegally s (designResult_codeLegal _ _ _ _)
  | designHp fs fc => exact answer_answersLegally s (designResult_codeLegal _ _ _ _)
  | lookup band g =>
    apply answer_answersLegally
    split <;> rfl
  | setBookAndPage book page =>
    exact gated_answersLegally (conclude_run_answersLegally (writeAll_settled _ _ _)
      ((returns_invariant _).selectContext _ _ _) rfl)
  | apply count =>
    apply gated_answersLegally
    split
    · exact conclude_run_answersLegally (transaction_settled _ _ _)
        ((returns_invariant _).transaction _ _) rfl
    · exact answer_answersLegally s rfl
  | trigger => exact gated_answersLegally (answer_answersLegally _ rfl)
  | tick =>
    apply gated_answersLegally
    split
    · exact answer_answersLegally _ rfl
    · exact conclude_answersLegally ((returns_invariant _).settingWrite _ _ _)
        fun _ => State.deliver_respLegal _ rfl
  | setGain band g =>
    apply gated_answersLegally
    split
    · exact settleNow_answersLegally rfl _ _
    · exact answer_answersLegally s rfl
  | setMixerMode mode =>
    apply gated_answersLegally
    split
    · exact settleNow_answersLegally rfl _ _
    · exact answer_answersLegally s rfl
  | poll =>
    refine gated_answersLegally (conclude_answersLegally pollReturn_returns fun h => ?_)
    rw [pollReturn_stuck] at h
    exact pollReturn_respLegal s _ _ h
  | readFaults => exact gated_answersLegally (answer_answersLegally s rfl)
  | clearFaults =>
    exact gated_answersLegally (conclude_run_answersLegally (writeOrWarn_settled _ _ _ _)
      ((returns_invariant _).writeOrWarn _ _ _) rfl)
  | setup =>
    exact gated_answersLegally (conclude_run_answersLegally (writeAll_settled _ _ _)
      ((returns_invariant _).writeAll _ _) rfl)

/-! ## Reset -/

/-- The bounds of R4 on the gains' reset values, of a well-formed configuration. -/
theorem Config.gainReset_parts {c : Config} (h : c.wf = true) :
    c.gainReset.length = c.bandCount ∧ ∀ g ∈ c.gainReset, gainInRange c g = true := by
  obtain ⟨hgains, _⟩ := Config.wf_parts h
  simp only [gainsWellFormed, Bool.and_eq_true, decide_eq_true_eq, List.all_eq_true] at hgains
  exact ⟨hgains.1.2, hgains.2⟩

/-- The mixer mode after reset is a mode of a well-formed configuration (R4). -/
theorem Config.mixerModeReset_lt {c : Config} (h : c.wf = true) :
    c.mixerModeReset.toNat < c.mixerModeCount := by
  obtain ⟨_, _, _, hmixer, _⟩ := Config.wf_parts h
  simp only [mixerWellFormed, Bool.and_eq_true, decide_eq_true_eq] at hmixer
  exact hmixer.1.2

/-- The invariant holds after the reset of a well-formed configuration (R34, R302). -/
theorem State.resetWith_inv {c : Config} (h : c.wf = true) : (State.resetWith c).Inv where
  config := h
  gainCount := (Config.gainReset_parts h).1
  gainRange := (Config.gainReset_parts h).2
  mode := Config.mixerModeReset_lt h
  phase := rfl
  glob := BitVec.zero_and
  memory := rfl
  running := rfl

theorem State.boot_wf {c : Config} (h : c.wf = true) : State.boot c = .next (.resetWith c) := by
  simp [State.boot, h]

theorem State.boot_illFormed {c : Config} (h : c.wf = false) :
    State.boot c = .refused .illFormedConfiguration := by
  simp [State.boot, h]

/-- After reset no fault is flagged and nothing is published, whatever the clock fault's exclusion (R34,
R244, R245). -/
theorem publish_reset (exclude : Bool) :
    anyFault exclude .reset = false ∧ publish exclude .reset .reset = false := by
  cases exclude <;> decide

/-- The configuration of `State.reset` is well-formed. -/
theorem Config.reference_wf : Config.reference.wf = true := by decide +kernel

/-- Settles O55: every operation, by the rules of how it ends (`answer`, `gated`, `conclude`). -/
theorem responseCodes : Obligations.ResponseCodes := by
  intro i s t ht
  obtain ⟨r, hresp, hlegal⟩ := exec_answersLegally i s t ht
  exact ⟨r, hresp, Result.codeLegal_iff.1 hlegal⟩

/-- Settles O57, by the invariant of `State.resetWith` on a well-formed configuration. -/
theorem resetStates : Obligations.ResetStates := by
  refine ⟨fun c h => ?_, fun _ h => State.boot_illFormed h, State.resetWith_inv Config.reference_wf⟩
  obtain ⟨hfault, hpublish⟩ := publish_reset c.excludeClockFault
  exact ⟨_, State.boot_wf h, State.resetWith_inv h, rfl, rfl, rfl, rfl, rfl, rfl, rfl, rfl, rfl,
    hfault, hpublish⟩

end Sys2Proof.Machine
end

section
/-! SUPPORT. The family of 10_state.md: the flat form of a phase (R100), the order of the phases and how
TRIGGER and TICK move along it (R24), which operation may write which register (R30), and the invariant
that every step keeps. -/

namespace Sys2Proof.Machine

/-! ## The flat form of a phase (R100) -/

/-- A flat phase is the append of its two fields. -/
theorem flat_of_fields {v : BitVec 11} {tag : BitVec 3} {arg : Byte}
    (ht : (v.extractLsb' 8 3).toNat = tag.toNat) (ha : (v.extractLsb' 0 8).toNat = arg.toNat) :
    tag ++ arg = v := by
  rw [← BitVec.eq_of_toNat_eq ht, ← BitVec.eq_of_toNat_eq ha]
  exact (BitVec.extractLsb'_append_extractLsb'_eq_extractLsb' (Nat.zero_add 8).symm).trans
    BitVec.extractLsb'_eq_self

/-- An argument of 8 bits is not cut by the flat form. -/
theorem toNat_ofNat_byte {n : Nat} (h : n ≤ 255) : (BitVec.ofNat 8 n).toNat = n := by
  rw [BitVec.toNat_ofNat, Nat.mod_eq_of_lt (by omega)]

/-- The flat form loses nothing of a phase in range, where both arguments fit in 8 bits. -/
theorem phaseOfFlat_phaseFlat {c : Config} {p : Phase} (hN : c.settleThreshold ≤ 256)
    (hB : c.bandCount ≤ 255) (hp : phaseInRange c p = true) : phaseOfFlat (phaseFlat p) = some p := by
  have htag (tag : BitVec 3) (arg : Byte) : (tag ++ arg).extractLsb' 8 3 = tag :=
    BitVec.extractLsb'_append_eq_left
  have harg (tag : BitVec 3) (arg : Byte) : (tag ++ arg).extractLsb' 0 8 = arg :=
    BitVec.extractLsb'_append_eq_right
  cases p with
  | settling k =>
    simp only [phaseInRange, Bool.and_eq_true, decide_eq_true_eq] at hp
    simp [phaseFlat, phaseOfFlat, htag, harg, toNat_ofNat_byte (show k ≤ 255 by omega)]
  | bandPending i =>
    simp only [phaseInRange, decide_eq_true_eq] at hp
    simp [phaseFlat, phaseOfFlat, htag, harg, toNat_ofNat_byte (show i ≤ 255 by omega)]
  | idle => rfl
  | triggered => rfl
  | mixerPending => rfl
  | complete => rfl

/-- A value that reads as a phase is that phase's flat form, and its tag is one of the six. -/
theorem phaseFlat_of_phaseOfFlat {v : BitVec 11} {p : Phase} (h : phaseOfFlat v = some p) :
    phaseFlat p = v ∧ (v.extractLsb' 8 3).toNat ≤ 5 := by
  have harg : (v.extractLsb' 0 8).toNat = (BitVec.ofNat 8 (v.extractLsb' 0 8).toNat).toNat := by simp
  unfold phaseOfFlat at h
  dsimp only at h
  split at h
  case h_3 htag =>
    obtain rfl := Option.some.inj h
    exact ⟨flat_of_fields htag harg, by omega⟩
  case h_5 htag =>
    obtain rfl := Option.some.inj h
    exact ⟨flat_of_fields htag harg, by omega⟩
  case h_7 => cases h
  all_goals
    next htag =>
    obtain ⟨hzero, hp⟩ := Option.ite_none_right_eq_some.1 h
    obtain rfl := Option.some.inj hp
    exact ⟨flat_of_fields htag hzero, by omega⟩

/-! ## TRIGGER and TICK on the phases (R24, R210 to R217) -/

theorem triggerPhase_inRange {c : Config} {p : Phase} (h : phaseInRange c p = true) :
    phaseInRange c (triggerPhase p) = true := by
  cases p with
  | idle | complete => rfl
  | triggered | settling _ | mixerPending | bandPending _ => exact h

/-- TICK stays in the ranges of R23: an argument one more is the next phase only below N, or B. -/
theorem tickPhase_inRange {c : Config} {p : Phase} (h : phaseInRange c p = true) :
    phaseInRange c (tickPhase c p) = true := by
  cases p with
  | idle => rfl
  | triggered =>
    simp only [tickPhase]
    split
    · rfl
    · simp only [phaseInRange, Bool.and_eq_true, decide_eq_true_eq]; omega
  | settling k =>
    simp only [tickPhase]
    split
    · rfl
    · simp only [phaseInRange, Bool.and_eq_true, decide_eq_true_eq]; omega
  | mixerPending =>
    simp only [tickPhase]
    split
    · rfl
    · simp only [phaseInRange, decide_eq_true_eq]; omega
  | bandPending i =>
    simp only [phaseInRange, decide_eq_true_eq] at h
    simp only [tickPhase]
    split
    · rfl
    · simp only [phaseInRange, decide_eq_true_eq]; omega
  | complete => rfl

/-- From a phase in range TICK never goes down in the order of R24. -/
theorem phaseRank_le_tickPhase {c : Config} {p : Phase} (h : phaseInRange c p = true) :
    phaseRank c p ≤ phaseRank c (tickPhase c p) := by
  cases p with
  | idle => exact le_rfl
  | triggered =>
    simp only [tickPhase]
    split <;> simp only [phaseRank] <;> omega
  | settling k =>
    simp only [phaseInRange, Bool.and_eq_true, decide_eq_true_eq] at h
    simp only [tickPhase]
    split <;> simp only [phaseRank] <;> omega
  | mixerPending =>
    simp only [tickPhase]
    split <;> simp only [phaseRank] <;> omega
  | bandPending i =>
    simp only [phaseInRange, decide_eq_true_eq] at h
    simp only [tickPhase]
    split <;> simp only [phaseRank] <;> omega
  | complete => exact le_rfl

/-- TRIGGER goes down in the order of R24 from `Complete` only. -/
theorem complete_of_triggerPhase_lt {c : Config} {p : Phase}
    (h : phaseRank c (triggerPhase p) < phaseRank c p) : p = .complete := by
  cases p with
  | complete => rfl
  | idle => exact absurd h (Nat.not_lt_zero _)
  | triggered | settling _ | mixerPending | bandPending _ => exact absurd h (lt_irrefl _)

/-- A TICK with no transaction to perform changes the phase and the response (R211). -/
theorem exec_tick_of_no_transaction {s : State} (hf : s.failed = false)
    (ht : tickTransaction s = none) :
    exec .tick s = .next { s with phase := tickPhase s.cfg s.phase, resp := some .ok } := by
  show gated s _ = _
  rw [gated_running hf, ht]
  rfl

/-! ## Which operation may write which register (R30, R33) -/

/-- Only TICK and TRIGGER write the phase. -/
theorem exec_keeps_phase {s t : State} {i : Instr} (he : exec i s = .next t) (h1 : i ≠ .tick)
    (h2 : i ≠ .trigger) : t.phase = s.phase := by
  obtain ⟨_, _, _, _, _, hphase, _⟩ := exec_regs he
  rcases hphase with h | ⟨h, _⟩ | ⟨h, _⟩
  · exact h
  · exact absurd h h1
  · exact absurd h h2

/-- Only POLL writes the snapshot and the changed flags. -/
theorem exec_keeps_faults {s t : State} {i : Instr} (he : exec i s = .next t) (h : i ≠ .poll) :
    t.snap = s.snap ∧ t.chg = s.chg := by
  obtain ⟨_, _, _, _, _, _, hfaults, _⟩ := exec_regs he
  exact hfaults.resolve_right fun ⟨hpoll, _⟩ => h hpoll

/-- Only SETUP writes the failed latch. -/
theorem exec_keeps_failed {s t : State} {i : Instr} (he : exec i s = .next t) (h : i ≠ .setup) :
    t.failed = s.failed := by
  obtain ⟨_, _, _, _, _, _, _, hfailed⟩ := exec_regs he
  exact hfailed.resolve_right fun ⟨hsetup, _⟩ => h hsetup

/-- Only SET_MIXER_MODE writes the mixer mode. -/
theorem exec_keeps_mixerMode {s t : State} {i : Instr} (he : exec i s = .next t)
    (h : ∀ mode, i ≠ .setMixerMode mode) : t.mixerMode = s.mixerMode := by
  obtain ⟨_, _, _, _, hmode, _⟩ := exec_regs he
  exact hmode.resolve_right fun ⟨mode, hset, _⟩ => h mode hset

/-- Only SET_GAIN writes the gains. -/
theorem exec_keeps_gain {s t : State} {i : Instr} (he : exec i s = .next t)
    (h : ∀ band g, i ≠ .setGain band g) : t.gain = s.gain := by
  obtain ⟨_, _, _, hgain, _⟩ := exec_regs he
  exact hgain.resolve_right fun ⟨band, g, hset, _⟩ => h band g hset

/-- SET_GAIN writes the gain of its own band at most. -/
theorem exec_setGain_other_band {s t : State} {band g : Byte} (he : exec (.setGain band g) s = .next t)
    {j : Nat} (hj : j ≠ band.toNat) : t.gain[j]? = s.gain[j]? := by
  obtain ⟨_, _, _, hgain, _⟩ := exec_regs he
  rcases hgain with h | ⟨_, _, hset, _, h⟩
  · rw [h]
  · cases hset
    rw [h, List.getElem?_set_ne hj.symm]

/-- Every operation only adds to the history (R33, R77). -/
theorem exec_hist_prefix {s t : State} {i : Instr} (he : exec i s = .next t) : s.hist <+: t.hist :=
  exec_bus (hist_invariant s.cfg s.bus.hist)
    (fun o n b hb => tRead_inv (P := fun b => s.bus.hist <+: b.hist) o n b hb hb fun _ =>
      hb.trans (List.prefix_append _ _))
    List.prefix_rfl he

/-- Every operation keeps the canonical form of the reference device's registers. -/
theorem exec_memory_wf {s t : State} {i : Instr} (hm : Memory.wf s.bus.dev.mem = true)
    (he : exec i s = .next t) : Memory.wf t.bus.dev.mem = true :=
  exec_bus (memory_invariant s.cfg)
    (fun o n b hb => tRead_inv (P := fun b => Memory.wf b.dev.mem = true) o n b hb hb fun _ => hb)
    hm he

/-! ## The invariant -/

/-- A snapshot's global-fault byte has no clock bit (R241, R250 d). -/
theorem snapshotOf_glob_and_mask (mask a b c d : Byte) :
    (snapshotOf mask a b c d).glob &&& mask = 0 := by
  rw [snapshotOf, BitVec.and_assoc, BitVec.not_and_self]
  exact BitVec.and_zero

/-- Every operation that completes keeps the invariant. -/
theorem exec_inv {s t : State} {i : Instr} (hs : s.Inv) (he : exec i s = .next t) : t.Inv := by
  obtain ⟨hcfg, _, _, hgain, hmode, hphase, hfaults, _⟩ := exec_regs he
  refine ⟨?config, ?gainCount, ?gainRange, ?mode, ?phase, ?glob, exec_memory_wf hs.memory he,
    exec_not_stuck hs.running he⟩
  all_goals rw [hcfg]
  case config => exact hs.config
  case gainCount =>
    rcases hgain with h | ⟨_, _, _, _, h⟩
    · rw [h, hs.gainCount]
    · rw [h, List.length_set, hs.gainCount]
  case gainRange =>
    intro x hx
    rcases hgain with h | ⟨_, g, _, hvalid, h⟩
    · exact hs.gainRange x (h ▸ hx)
    · rw [h] at hx
      rcases List.mem_or_eq_of_mem_set hx with hold | rfl
      · exact hs.gainRange x hold
      · exact (Bool.and_eq_true_iff.1 hvalid).2
  case mode =>
    rcases hmode with h | ⟨_, _, hlt, h⟩
    · rw [h]; exact hs.mode
    · rw [h]; exact hlt
  case phase =>
    rcases hphase with h | ⟨_, h⟩ | ⟨_, h⟩ <;> rw [h]
    · exact hs.phase
    · exact tickPhase_inRange hs.phase
    · exact triggerPhase_inRange hs.phase
  case glob =>
    rcases hfaults with ⟨h, _⟩ | ⟨_, h | ⟨_, _, _, _, h⟩⟩ <;> rw [h]
    · exact hs.glob
    · exact hs.glob
    · exact snapshotOf_glob_and_mask _ _ _ _ _

/-- The invariant says nothing of the response. -/
theorem State.Inv.deliver {s : State} (hs : s.Inv) (r : Result) : (s.deliver r).Inv :=
  ⟨hs.config, hs.gainCount, hs.gainRange, hs.mode, hs.phase, hs.glob, hs.memory, hs.running⟩

/-- The invariant says nothing of the port and of `DBUF`. -/
theorem State.Inv.takeCommand {s : State} (hs : s.Inv) (dbuf : List Byte) (rest : List PortEvent) :
    (s.takeCommand dbuf rest).Inv :=
  ⟨hs.config, hs.gainCount, hs.gainRange, hs.mode, hs.phase, hs.glob, hs.memory, hs.running⟩

/-- The reset event keeps the invariant: the reset values meet it on any well-formed configuration, and
the chip and its bus stay (R300). -/
theorem State.Inv.resetEvent {s : State} (hs : s.Inv) (rest : List PortEvent) :
    ({ s with port := rest } : State).resetEvent.Inv :=
  have hreset := State.resetWith_inv hs.config
  ⟨hs.config, hreset.gainCount, hreset.gainRange, hreset.mode, hreset.phase, hreset.glob, hs.memory,
    hs.running⟩

/-- What a step that answers next has done: the block waited, or ran a command, or rejected one, or was
reset (R276, R300, R301). -/
theorem step_cases {s t : State} (h : step s = .next t) :
    s.bus.stuck = false ∧
    ((s.port = [] ∧ t = s) ∨
     (∃ cmd dbuf rest i, s.port = .command cmd dbuf :: rest ∧ decode cmd = .ok i ∧
        exec i (s.takeCommand dbuf rest) = .next t) ∨
     (∃ cmd dbuf rest e, s.port = .command cmd dbuf :: rest ∧ decode cmd = .error e ∧
        t = (s.takeCommand dbuf rest).deliver .illegalCommand) ∨
     (∃ rest, s.port = .reset :: rest ∧ t = ({ s with port := rest } : State).resetEvent)) := by
  unfold step at h
  split at h
  · cases h
  · next hstuck =>
    refine ⟨by simpa using hstuck, ?_⟩
    split at h
    · next hport =>
      cases h
      exact .inl ⟨hport, rfl⟩
    · next cmd dbuf rest hport =>
      split at h
      · next i hi => exact .inr (.inl ⟨cmd, dbuf, rest, i, hport, hi, h⟩)
      · next e he =>
        cases h
        exact .inr (.inr (.inl ⟨cmd, dbuf, rest, e, hport, he, rfl⟩))
    · next rest hport =>
      cases h
      exact .inr (.inr (.inr ⟨rest, hport, rfl⟩))
    · cases h

/-- Settles O56, by what a step can have done; the operations keep the invariant by `exec_inv`. -/
theorem stepKeepsInvariant : Obligations.StepKeepsInvariant := by
  intro s t hs ht
  obtain ⟨_, ⟨_, rfl⟩ | ⟨_, dbuf, rest, i, _, _, he⟩ | ⟨_, dbuf, rest, _, _, _, rfl⟩ | ⟨rest, _, rfl⟩⟩ :=
    step_cases ht
  · exact hs
  · exact exec_inv (hs.takeCommand dbuf rest) he
  · exact (hs.takeCommand dbuf rest).deliver _
  · exact hs.resetEvent rest

/-- Settles O52, by TRIGGER and TICK on the ranks of the phases. -/
theorem phaseOrder : Obligations.PhaseOrder := by
  intro i s t hs he
  refine ⟨?_, ?_, exec_keeps_phase he⟩
  all_goals
    rintro rfl
    obtain ⟨_, _, _, _, _, hphase, _⟩ := exec_regs he
  · rcases hphase with h | ⟨_, h⟩ | ⟨hne, _⟩
    · rw [h]
    · rw [h]
      exact phaseRank_le_tickPhase hs.phase
    · cases hne
  · intro hlt
    rcases hphase with h | ⟨hne, _⟩ | ⟨_, h⟩
    · rw [h] at hlt
      exact absurd hlt (lt_irrefl _)
    · cases hne
    · rw [h] at hlt
      exact complete_of_triggerPhase_lt hlt

/-- Settles O53, register by register. -/
theorem registerFrame : Obligations.RegisterFrame := by
  intro i s t he
  obtain ⟨hcfg, hdbuf, hport, _⟩ := exec_regs he
  refine ⟨hcfg, hdbuf, hport, exec_keeps_gain he, ?_, exec_keeps_mixerMode he, exec_keeps_phase he,
    exec_keeps_faults he, exec_keeps_failed he, exec_hist_prefix he⟩
  rintro band g rfl j hj
  exact exec_setGain_other_band he hj

/-- Settles O35: in these phases a TICK has no transaction to perform. -/
theorem tickQuietPhases : Obligations.TickQuietPhases := by
  intro s hf
  refine ⟨fun hquiet => ?_, fun hp => ?_, fun c hp => ?_⟩
  · have hp : s.phase = .idle ∨ s.phase = .complete := by
      cases hp : s.phase <;> simp [hp, ticksNeeded] at hquiet ⊢
    have htick : tickPhase s.cfg s.phase = s.phase := by rcases hp with hp | hp <;> rw [hp] <;> rfl
    have hnone : tickTransaction s = none := by rcases hp with hp | hp <;> simp [tickTransaction, hp]
    rw [exec_tick_of_no_transaction hf hnone, htick]
    rfl
  · rw [exec_tick_of_no_transaction hf (by simp [tickTransaction, hp]), hp]
    rfl
  · rw [exec_tick_of_no_transaction hf (by simp [tickTransaction, hp]), hp]
    rfl

/-- Settles O59, by the two fields of a flat phase, read back and put together. -/
theorem flatPhase : Obligations.FlatPhase :=
  ⟨fun _ _ hN hB hp => phaseOfFlat_phaseFlat hN hB hp, fun _ _ h => phaseFlat_of_phaseOfFlat h⟩

end Sys2Proof.Machine
end

section
/-! SUPPORT. The family of 20_memory.md: what a step takes from the command port (R262, R276), what APPLY
leaves in the chip's registers (R66, R191), and which registers an operation can change (R63, R247). -/

namespace Sys2Proof.Machine

/-! ## A step on the command port (R262, R276, R301) -/

/-- A step runs the operation that the oldest command on the port decodes to. -/
theorem step_of_command {s : State} {cmd : CommandWord} {dbuf : List Byte} {rest : List PortEvent}
    {i : Instr} (hstuck : s.bus.stuck = false) (hport : s.port = .command cmd dbuf :: rest)
    (hdecode : decode cmd = .ok i) : step s = exec i (s.takeCommand dbuf rest) := by
  simp [step, hstuck, hport, hdecode]

/-- With nothing on the port the block waits (log entry 1). -/
theorem step_of_empty_port {s : State} (hstuck : s.bus.stuck = false) (hport : s.port = []) :
    step s = .next s := by
  simp [step, hstuck, hport]

/-! ## The registers after a successful transaction -/

/-- The length of a non-empty transaction (R195): its run and the three writes of the restore. -/
theorem transactionWrites_length {c : Config} {ds : List Descriptor} (hne : ds ≠ []) :
    (transactionWrites c ds).length = 3 * contextChanges none ds + ds.length + 3 := by
  simp [transactionWrites, hne, runWrites_length, restoreWrites_length]

/-- APPLY of a valid list whose calls all succeed (R191, R194). -/
theorem exec_apply_success {s : State} {count : Byte} (hf : s.failed = false)
    (hlen : s.dbuf.length = count.toNat) (hwf : s.dbuf.all (Descriptor.wellFormed s.cfg) = true)
    (hok : s.bus.NextSucceed (transactionWrites s.cfg s.dbuf).length) :
    exec (.apply count) s = .next ({ s with
      bus := s.bus.afterWrites s.cfg (transactionWrites s.cfg s.dbuf) }.deliver .ok) := by
  show gated s _ = _
  rw [gated_running hf, if_pos hlen, transaction_success hwf hok]
  exact conclude_running hok.1

/-- A well-formed descriptor's write, in the descriptor's own context, is read back from the registers
the descriptor covers (R63, R66). -/
theorem Device.writeBytes_payload_reads {c : Config} {d : Descriptor}
    (hw : Descriptor.wellFormed c d = true) {m : Memory} (hm : Memory.wf m = true) :
    ∀ j < d.len.toNat, d.payload[j]? = some
      ((Device.writeBytes c ⟨d.book, d.page, m⟩ d.offset.toNat d.payload).peek d.book d.page
        (BitVec.ofNat 8 (d.offset.toNat + j))) := by
  obtain ⟨hpos, hlen, hlast, hselect⟩ := Descriptor.wellFormed_iff.1 hw
  have hin : d.offset.toNat + d.payload.length ≤ 256 := by
    have := c.pageLastOffset.isLt
    omega
  rw [← hlen] at hselect ⊢
  exact Device.writeBytes_reads c d.payload ⟨d.book, d.page, m⟩ d.offset.toNat hm hin
    (fun j hj => (hselect j hj).1) (fun j hj => (hselect j hj).2)

/-- The restore moves the context and leaves the registers as they are (R98, R193). -/
theorem Device.afterWrites_restore_peek {c : Config} (hc : c.regPageSelect ≠ c.regBookSelect)
    (v : Device) (book page offset : Byte) :
    (Device.afterWrites c v (restoreWrites c)).peek book page offset = v.peek book page offset := by
  rw [restoreWrites, Device.afterWrites_preamble hc]
  rfl

/-- After a transaction whose writes all land, the last descriptor's payload is in its registers: nothing
but the restore is written after it (R191, R193). -/
theorem Device.afterWrites_transaction_reads {c : Config} (hc : c.regPageSelect ≠ c.regBookSelect)
    {before : List Descriptor} {d : Descriptor}
    (hw : ∀ e ∈ before ++ [d], Descriptor.wellFormed c e = true) {v : Device}
    (hm : Memory.wf v.mem = true) :
    ∀ j < d.len.toNat, d.payload[j]? = some
      ((Device.afterWrites c v (transactionWrites c (before ++ [d]))).peek d.book d.page
        (BitVec.ofNat 8 (d.offset.toNat + j))) := by
  intro j hj
  obtain ⟨m, hm', hrun⟩ := Device.afterWrites_run hc before d (fun e he => hw e (by simp [he])) none v
    hm (by simp)
  have hsplit : transactionWrites c (before ++ [d]) =
      runWrites c none (before ++ [d]) ++ restoreWrites c := by simp [transactionWrites]
  rw [hsplit, Device.afterWrites_append, Device.afterWrites_restore_peek hc, hrun]
  exact Device.writeBytes_payload_reads (hw d (by simp)) hm' j hj

/-! ## The registers an operation can change -/

/-- An outcome that, where it is a next state, leaves a register of the chip reading as in `s`. -/
def KeepsRegister (s : State) (book page offset : Byte) (o : Host.Outcome State Fault Refusal) : Prop :=
  ∀ t, o = .next t → t.bus.dev.peek book page offset = s.bus.dev.peek book page offset

section KeepsRegister

variable {s t : State} {book page offset : Byte}

theorem answer_keepsRegister {r : Result} (ht : t.bus = s.bus) :
    KeepsRegister s book page offset (answer t r) := by
  rintro _ ⟨⟩
  rw [State.deliver_bus, ht]

theorem gated_keepsRegister {run : Host.Outcome State Fault Refusal}
    (h : KeepsRegister s book page offset run) : KeepsRegister s book page offset (gated s run) := by
  intro u hu
  rcases gated_next hu with ⟨_, rfl⟩ | ⟨_, hrun⟩
  · rfl
  · exact h u hrun

theorem conclude_keepsRegister {u : State}
    (h : t.bus.dev.peek book page offset = s.bus.dev.peek book page offset) :
    KeepsRegister s book page offset (conclude u t) := by
  intro w hw
  rwa [conclude_next hw]

/-- The end of both setters changes the covered registers only, and those in `Complete` only (R219,
R220). -/
theorem settleNow_keepsRegister (hc : t.cfg.regPageSelect ≠ t.cfg.regBookSelect) (hb : t.bus = s.bus)
    {target : Target} {ds : List Descriptor}
    (hn : ∀ d ∈ if t.phase = .complete then ds else [], ¬ Descriptor.covers d book page offset) :
    KeepsRegister s book page offset (settleNow s t target ds) := by
  unfold settleNow
  split
  · next hp =>
    rw [if_pos hp] at hn
    apply conclude_keepsRegister
    rw [← hb]
    exact settingWrite_device hc _ ds t.bus book page offset hn
  · exact answer_keepsRegister hb

end KeepsRegister

/-- A read, successful or not, never changes the reference device (R63). -/
theorem tRead_dev (o : Byte) (n : Nat) (b : Bus) : (tRead o n b).2.dev = b.dev :=
  tRead_inv (P := fun b' => b'.dev = b.dev) o n b rfl rfl fun _ => rfl

/-- POLL's end touches the bus by a warning at most, so the device is as the read left it. -/
theorem pollReturn_dev (s : State) (p : ReadResult × Bus) : (pollReturn s p).bus.dev = p.2.dev := by
  rcases p with ⟨_ | _, b⟩ <;> rfl

/-- A byte write changes no register but the one at its offset in the active context (R63, R64). -/
theorem Device.writeByte_peek_other (c : Config) (d : Device) (o y book page offset : Byte)
    (hne : (book, page, offset) ≠ (d.book, d.page, o)) :
    (Device.writeByte c d o.toNat y).peek book page offset = d.peek book page offset := by
  rcases Device.writeByte_cases c d o.toNat y with ⟨_, e⟩ | ⟨_, _, _, e⟩ | ⟨_, _, _, e⟩ | ⟨_, e⟩
  · rw [e]; rfl
  · rw [e]; rfl
  · rw [e]
    refine Memory.read_write_other _ _ fun ha => hne ?_
    obtain ⟨rfl, rfl, rfl⟩ := devAddr_inj ha
    simp
  · rw [e]

/-- A transport write of one byte, whatever becomes of it, changes no register but the one at its offset
in the active context (R63). -/
theorem writeOrWarn_one_peek_other (c : Config) (o y : Byte) (b : Bus) (book page offset : Byte)
    (hne : (book, page, offset) ≠ (b.dev.book, b.dev.page, o)) :
    (writeOrWarn c o [y] b).2.dev.peek book page offset = b.dev.peek book page offset := by
  have hbyte := Device.writeByte_peek_other c b.dev o y book page offset hne
  rcases writeOrWarn_device c o [y] b with ⟨_, e⟩ | ⟨_, n, e⟩ <;> rw [e]
  · exact hbyte
  · rcases writeBytes_take_one c b.dev o.toNat y n with e' | e' <;> rw [e']
    exact hbyte

/-- Every operation but SETUP leaves each register that its descriptors do not cover; CLEAR_FAULTS may
also write the clear register in the active context (R63, R191, R247). -/
theorem exec_keepsRegister (i : Instr) (s : State) (hsetup : i ≠ .setup)
    (hc : s.cfg.regPageSelect ≠ s.cfg.regBookSelect) (book page offset : Byte)
    (hn : ∀ d ∈ storedBy i s, ¬ Descriptor.covers d book page offset)
    (hclear : i = .clearFaults →
      (book, page, offset) ≠ (s.bus.dev.book, s.bus.dev.page, s.cfg.regFaultClear)) :
    KeepsRegister s book page offset (exec i s) := by
  cases i with
  | encode923 v => exact answer_keepsRegister rfl
  | encode527 v => exact answer_keepsRegister rfl
  | decode923 w => exact answer_keepsRegister rfl
  | decode527 w => exact answer_keepsRegister rfl
  | designLp fs fc => exact answer_keepsRegister rfl
  | designHp fs fc => exact answer_keepsRegister rfl
  | lookup band g => exact answer_keepsRegister rfl
  | setBookAndPage b p =>
    refine gated_keepsRegister (conclude_keepsRegister ?_)
    obtain ⟨hmem, _⟩ := selectContext_device hc b p s.bus
    exact congrArg (fun m => Memory.read m (devAddr book page offset)) hmem
  | apply count =>
    apply gated_keepsRegister
    split
    · exact conclude_keepsRegister (transaction_device hc s.dbuf s.bus book page offset hn)
    · exact answer_keepsRegister rfl
  | trigger => exact gated_keepsRegister (answer_keepsRegister rfl)
  | tick =>
    apply gated_keepsRegister
    split
    · exact answer_keepsRegister rfl
    · next target ds htick =>
      simp only [storedBy, htick] at hn
      exact conclude_keepsRegister (settingWrite_device hc _ ds s.bus book page offset hn)
  | setGain band g =>
    apply gated_keepsRegister
    split
    · apply settleNow_keepsRegister
      · exact hc
      · rfl
      · exact hn
    · exact answer_keepsRegister rfl
  | setMixerMode mode =>
    apply gated_keepsRegister
    split
    · apply settleNow_keepsRegister
      · exact hc
      · rfl
      · exact hn
    · exact answer_keepsRegister rfl
  | poll =>
    refine gated_keepsRegister (conclude_keepsRegister ?_)
    rw [pollReturn_dev, tRead_dev]
  | readFaults => exact gated_keepsRegister (answer_keepsRegister rfl)
  | clearFaults =>
    exact gated_keepsRegister (conclude_keepsRegister
      (writeOrWarn_one_peek_other _ _ _ _ book page offset (hclear rfl)))
  | setup => exact absurd rfl hsetup

/-- Settles O31: the whole transaction reaches the reference device, the last payload last. -/
theorem applyStoresPayload : Obligations.ApplyStoresPayload := by
  intro s count before d hf hc hm hdbuf hlen hwf hok
  have hne : s.dbuf ≠ [] := by simp [hdbuf]
  rw [← transactionWrites_length (c := s.cfg) hne] at hok
  refine ⟨_, exec_apply_success hf hlen hwf hok, ?_⟩
  rw [hdbuf] at hwf ⊢
  exact Device.afterWrites_transaction_reads hc (List.all_eq_true.1 hwf) hm

/-- Settles O32: every operation, by the rules of how it ends (`answer`, `gated`, `conclude`). -/
theorem deviceRegisterFrame : Obligations.DeviceRegisterFrame := by
  intro i s t he hsetup hc book page offset hn hclear
  exact exec_keepsRegister i s hsetup hc book page offset hn hclear t he

/-- Settles O6, by the two branches of a step that meet no event the spec excludes. -/
theorem stepRunsDecoded : Obligations.StepRunsDecoded :=
  ⟨fun _ _ _ _ _ hstuck hport hdecode => step_of_command hstuck hport hdecode,
    fun _ hstuck hport => step_of_empty_port hstuck hport⟩

end Sys2Proof.Machine
end

section
/-! SUPPORT. The family of 30_encoding.md: the command word as an encoding without loss (R103 to R107), the
serial form of a descriptor list (R96), and the operations whose operand or result this chapter lays out:
the context switch (R98), the fault fields (R101, R102), the literals (R94, R313) and the stored form of
the ideal design (R95, R170). -/

namespace Sys2Proof.Machine

/-! ## The opcode map (R105, R106) -/

/-- The opcodes of R105, each with the number of low operand bits its format uses (R104). -/
def usedBitsTable : List (Byte × Nat) :=
  [(0x01, 32), (0x02, 32), (0x03, 32), (0x04, 32), (0x08, 64), (0x09, 64), (0x10, 16), (0x18, 16),
    (0x19, 8), (0x20, 0), (0x21, 0), (0x22, 16), (0x23, 8), (0x28, 0), (0x29, 0), (0x2A, 0), (0x30, 0)]

/-- The opcode map holds every row of the table. -/
theorem opcodeMap_of_mem {op : Byte} {used : Nat} (h : (op, used) ∈ usedBitsTable) :
    ∃ format build, opcodeMap op = some (format, build) ∧ format.usedBits = used := by
  have hrows : ∀ row ∈ usedBitsTable,
      (opcodeMap row.1).map (fun entry => entry.1.usedBits) = some row.2 := by decide
  obtain ⟨⟨format, build⟩, hmap, hused⟩ := Option.map_eq_some_iff.1 (hrows _ h)
  exact ⟨format, build, hmap, hused⟩

theorem opcode_mem_table (i : Instr) : opcode i ∈ usedBitsTable.map Prod.fst := by
  cases i <;> simp [opcode, usedBitsTable]

/-! ## An accepted operand field is its fields put together (R104, R107) -/

section Fields

variable {format : OperandFormat} {o : BitVec 64}

theorem append_lowWord (hf : format.usedBits = 32) (ha : format.accepts o = true) :
    0#32 ++ lowWord o = o := by
  apply BitVec.eq_of_toNat_eq
  rw [OperandFormat.accepts_iff, hf] at ha
  simp only [lowWord, toNat_append_add, BitVec.extractLsb'_toNat, Nat.shiftRight_eq_div_pow,
    BitVec.toNat_ofNat]
  omega

theorem append_words (o : BitVec 64) : highWord o ++ lowWord o = o := by
  apply BitVec.eq_of_toNat_eq
  have := o.isLt
  simp only [highWord, lowWord, toNat_append_add, BitVec.extractLsb'_toNat,
    Nat.shiftRight_eq_div_pow]
  omega

theorem append_bytes (hf : format.usedBits = 16) (ha : format.accepts o = true) :
    0#48 ++ highByte o ++ lowByte o = o := by
  apply BitVec.eq_of_toNat_eq
  rw [OperandFormat.accepts_iff, hf] at ha
  simp only [highByte, lowByte, toNat_append_add, BitVec.extractLsb'_toNat,
    Nat.shiftRight_eq_div_pow, BitVec.toNat_ofNat]
  omega

theorem append_lowByte (hf : format.usedBits = 8) (ha : format.accepts o = true) :
    0#56 ++ lowByte o = o := by
  apply BitVec.eq_of_toNat_eq
  rw [OperandFormat.accepts_iff, hf] at ha
  simp only [lowByte, toNat_append_add, BitVec.extractLsb'_toNat, Nat.shiftRight_eq_div_pow,
    BitVec.toNat_ofNat]
  omega

theorem eq_zero_of_accepts (hf : format.usedBits = 0) (ha : format.accepts o = true) : 0 = o := by
  rw [OperandFormat.accepts_iff, hf] at ha
  exact BitVec.eq_of_toNat_eq (Nat.lt_one_iff.1 ha).symm

end Fields

/-- What the opcode map builds from an accepted operand field has that opcode and that operand field. -/
theorem opcodeMap_fields {op : Byte} {format : OperandFormat} {build : BitVec 64 → Instr}
    {o : BitVec 64} (hmap : opcodeMap op = some (format, build)) (ha : format.accepts o = true) :
    opcode (build o) = op ∧ operands (build o) = o := by
  unfold opcodeMap at hmap
  split at hmap
  case h_18 => cases hmap
  all_goals
    obtain ⟨rfl, rfl⟩ := Prod.mk.inj (Option.some.inj hmap)
    refine ⟨BitVec.eq_of_toNat_eq (Eq.symm ‹op.toNat = _›), ?_⟩
  case h_1 | h_2 | h_3 | h_4 => exact append_lowWord rfl ha
  case h_5 | h_6 => exact append_words o
  case h_7 | h_8 | h_12 => exact append_bytes rfl ha
  case h_9 | h_13 => exact append_lowByte rfl ha
  all_goals exact eq_zero_of_accepts rfl ha

/-- A reserved opcode is one outside the table (R106): each entry of the map is some operation's. -/
theorem opcodeMap_of_not_mem {op : Byte} (h : op ∉ usedBitsTable.map Prod.fst) :
    opcodeMap op = none := by
  rcases hmap : opcodeMap op with _ | ⟨format, build⟩
  · rfl
  · have hzero : format.accepts 0 = true := by
      rw [OperandFormat.accepts_iff]
      exact Nat.two_pow_pos _
    obtain ⟨hop, _⟩ := opcodeMap_fields hmap hzero
    exact absurd (hop ▸ opcode_mem_table (build 0)) h

/-! ## The decoder (R262 steps 1 and 2) -/

section Decoder

variable {cmd : CommandWord} {format : OperandFormat} {build : BitVec 64 → Instr}

theorem decode_of_reservedOpcode (hmap : opcodeMap (opcodeOf cmd) = none) :
    decode cmd = .error (.reservedOpcode (opcodeOf cmd)) := by
  simp [decode, hmap]

theorem decode_of_accepts (hmap : opcodeMap (opcodeOf cmd) = some (format, build))
    (ha : format.accepts (operandOf cmd) = true) : decode cmd = .ok (build (operandOf cmd)) := by
  simp [decode, hmap, ha]

theorem decode_of_reservedBits (hmap : opcodeMap (opcodeOf cmd) = some (format, build))
    (ha : format.accepts (operandOf cmd) = false) :
    decode cmd = .error (.reservedBits (opcodeOf cmd)) := by
  simp [decode, hmap, ha]

/-- A word that decodes is accepted by the format of its opcode. -/
theorem decode_ok {i : Instr} (h : decode cmd = .ok i) :
    ∃ format build, opcodeMap (opcodeOf cmd) = some (format, build) ∧
      format.accepts (operandOf cmd) = true ∧ build (operandOf cmd) = i := by
  rcases hmap : opcodeMap (opcodeOf cmd) with _ | ⟨format, build⟩
  · rw [decode_of_reservedOpcode hmap] at h
    cases h
  · cases ha : format.accepts (operandOf cmd) with
    | false =>
      rw [decode_of_reservedBits hmap ha] at h
      cases h
    | true =>
      rw [decode_of_accepts hmap ha] at h
      exact ⟨format, build, rfl, ha, Except.ok.inj h⟩

end Decoder

/-- Every operation's word is of the encoded form: one case per row of R105. -/
theorem encodedForm (i : Instr) : Laws.EncodedForm.Statement i := by
  cases i with
  | encode923 value => exact Laws.EncodedForm.encode923 value
  | encode527 value => exact Laws.EncodedForm.encode527 value
  | decode923 word => exact Laws.EncodedForm.decode923 word
  | decode527 word => exact Laws.EncodedForm.decode527 word
  | designLp fs fc => exact Laws.EncodedForm.designLp fs fc
  | designHp fs fc => exact Laws.EncodedForm.designHp fs fc
  | lookup band gain => exact Laws.EncodedForm.lookup band gain
  | setBookAndPage book page => exact Laws.EncodedForm.setBookAndPage book page
  | apply count => exact Laws.EncodedForm.apply count
  | trigger => exact Laws.EncodedForm.trigger
  | tick => exact Laws.EncodedForm.tick
  | setGain band gain => exact Laws.EncodedForm.setGain band gain
  | setMixerMode mode => exact Laws.EncodedForm.setMixerMode mode
  | poll => exact Laws.EncodedForm.poll
  | readFaults => exact Laws.EncodedForm.readFaults
  | clearFaults => exact Laws.EncodedForm.clearFaults
  | setup => exact Laws.EncodedForm.setup

theorem decode_encode (i : Instr) : decode (encode i) = .ok i := by
  obtain ⟨format, build, hmap, ha, hbuild⟩ := encodedForm i
  have hop : opcodeOf (encode i) = opcode i := opcodeOf_append _ _
  have ho : operandOf (encode i) = operands i := operandOf_append _ _
  rw [decode_of_accepts (hop ▸ hmap) (ho ▸ ha), ho, hbuild]

theorem encode_of_decode {cmd : CommandWord} {i : Instr} (h : decode cmd = .ok i) :
    encode i = cmd := by
  obtain ⟨format, build, hmap, ha, rfl⟩ := decode_ok h
  obtain ⟨hop, ho⟩ := opcodeMap_fields hmap ha
  rw [encode, hop, ho, append_fields]

/-- Settles O1, by the encoded form of each operation. -/
theorem decodeOfEncode : Obligations.DecodeOfEncode := decode_encode

/-- Settles O2: the opcode and the operand field of what the decoder builds are the word's own. -/
theorem encodeOfDecode : Obligations.EncodeOfDecode := fun _ _ h => encode_of_decode h

/-! ## An illegal command (R106, R107, R275) -/

/-- A command that does not decode leaves the port, and nothing else of the block changes but `DBUF` (log
entry 8) and the response. -/
theorem step_of_illegal_command {s : State} {cmd : CommandWord} {dbuf : List Byte}
    {rest : List PortEvent} {e : DecodeError} (hstuck : s.bus.stuck = false)
    (hport : s.port = .command cmd dbuf :: rest) (hdecode : decode cmd = .error e) :
    step s = .next ((s.takeCommand dbuf rest).deliver .illegalCommand) := by
  simp [step, hstuck, hport, hdecode, rejectCommand, answer]

/-- Settles O4, by the table of the defined opcodes. -/
theorem reservedOpcodeIsIllegal : Obligations.ReservedOpcodeIsIllegal := by
  intro s cmd dbuf rest hstuck hport hop
  exact step_of_illegal_command hstuck hport (decode_of_reservedOpcode (opcodeMap_of_not_mem hop))

/-- Settles O5: a format accepts an operand field exactly where its value is below `2 ^ used`. -/
theorem reservedBitsAreIllegal : Obligations.ReservedBitsAreIllegal := by
  intro cmd used hmem
  obtain ⟨format, build, hmap, rfl⟩ := opcodeMap_of_mem hmem
  refine ⟨fun hlt => ?_, fun hle s dbuf rest hstuck hport => ?_⟩
  · exact ⟨_, decode_of_accepts hmap (format.accepts_iff _ |>.2 hlt)⟩
  · have ha : format.accepts (operandOf cmd) = false := by
      rw [← Bool.not_eq_true, OperandFormat.accepts_iff]
      exact not_lt.2 hle
    exact step_of_illegal_command hstuck hport (decode_of_reservedBits hmap ha)

/-! ## The serial form of a descriptor list (R96) -/

/-- Reading a serial form with fuel enough, one descriptor at a time. -/
theorem parseWithFuel_serialise {ds : List Descriptor}
    (h : ∀ d ∈ ds, d.payload.length = d.len.toNat) {fuel : Nat}
    (hfuel : (serialise ds).length ≤ fuel) : parseWithFuel fuel (serialise ds) = ds := by
  induction ds generalizing fuel with
  | nil => cases fuel <;> rfl
  | cons d ds ih =>
    have hserial : serialise (d :: ds) =
        d.book :: d.page :: d.offset :: d.len :: (d.payload ++ serialise ds) := rfl
    have hlen := h d (by simp)
    rw [hserial] at hfuel ⊢
    simp only [List.length_cons, List.length_append] at hfuel
    obtain ⟨n, rfl⟩ : ∃ n, fuel = n + 1 := ⟨fuel - 1, by omega⟩
    rw [parseWithFuel, List.take_left' hlen, List.drop_left' hlen,
      ih (fun e he => h e (by simp [he])) (by omega)]

theorem parseDescriptors_serialise {ds : List Descriptor}
    (h : ∀ d ∈ ds, d.payload.length = d.len.toNat) : parseDescriptors (serialise ds) = ds :=
  parseWithFuel_serialise h le_rfl

/-- The command that `withFetchWord` puts first for an encoded operation carries that operation's word. -/
theorem withFetchWord_port (s : State) (i : Instr) :
    (s.withFetchWord 72 (encode i).toNat).port =
      .command (encode i) (serialise s.dbuf) :: s.port := by
  have hword : BitVec.ofNat 72 ((encode i).toNat % 2 ^ 72) = encode i := by
    rw [Nat.mod_eq_of_lt (encode i).isLt, BitVec.ofNat_toNat, BitVec.setWidth_eq]
  rw [State.withFetchWord, tableCommand, hword]

/-- Taking that command gives the state back: `DBUF` is what its serial form reads as. -/
theorem withFetchWord_takeCommand {s : State} (h : ∀ d ∈ s.dbuf, d.payload.length = d.len.toNat)
    (nbits w : Nat) : (s.withFetchWord nbits w).takeCommand (serialise s.dbuf) s.port = s := by
  rw [State.takeCommand, parseDescriptors_serialise h]
  rfl

/-- Settles O7, by induction on the list, and by the command that `withFetchWord` puts on the port. -/
theorem serialFormAndFetchWord : Obligations.SerialFormAndFetchWord := by
  refine ⟨fun ds h => parseDescriptors_serialise h, fun s i hstuck h => ?_⟩
  have hstep := step_of_command (s := s.withFetchWord 72 (encode i).toNat) hstuck
    (withFetchWord_port s i) (decode_encode i)
  rw [hstep, withFetchWord_takeCommand h]

/-! ## The context switch (R98, R190) -/

/-- SET_BOOK_AND_PAGE of a running device ends with what its run of writes answers, unless a call never
returns. -/
theorem exec_setBookAndPage_of_writeAll {s : State} {book page : Byte} {r : Result} {b : Bus}
    (hf : s.failed = false) (hrun : writeAll s.cfg (preambleWrites s.cfg book page) s.bus = (r, b))
    (hstuck : b.stuck = false) :
    exec (.setBookAndPage book page) s = .next ({ s with bus := b }.deliver r) := by
  show gated s _ = _
  rw [gated_running hf, selectContext, hrun]
  exact conclude_running hstuck

/-- Settles O27, by the two ways a run of writes can end. -/
theorem setBookAndPageRule : Obligations.SetBookAndPageRule := by
  intro s book page hf ws
  refine ⟨fun hok => ⟨?success, fun hc => Device.afterWrites_preamble hc _ _ _⟩,
    fun k w code landed hk hfail => ?failure⟩
  case success =>
    have ⟨hrunning, _⟩ := hok
    exact exec_setBookAndPage_of_writeAll hf (writeAll_success ws hok) hrunning
  case failure =>
    have ⟨⟨hrunning, _⟩, _⟩ := hfail
    exact exec_setBookAndPage_of_writeAll hf (writeAll_failure hk hfail) hrunning

/-! ## The fault fields (R101, R102, R240 to R246) -/

/-- A group's diff is non-zero exactly where the group has changed (R242). -/
theorem diff_ne_zero_iff {old new : Byte} : diff old new ≠ 0 ↔ old ≠ new :=
  not_congr BitVec.xor_eq_zero_iff

/-- Each changed flag says that its group differs (R243). -/
theorem changedFlags_eq (old new : Snapshot) :
    changedFlags old new = ⟨decide (old.ch ≠ new.ch), decide (old.glob ≠ new.glob),
      decide (old.clock ≠ new.clock), decide (old.otf ≠ new.otf), decide (old.otw ≠ new.otw)⟩ := by
  have hclock : (old.clock ^^ new.clock) = decide (old.clock ≠ new.clock) := by
    cases old.clock <;> cases new.clock <;> rfl
  simp only [changedFlags, diff_ne_zero_iff, hclock]

/-- A read whose draw is in store and holds exactly the bytes asked for (R61). -/
theorem tRead_of_draw {b : Bus} {drawn : List Byte} {ds : List Draw} (o : Byte)
    (hstuck : b.stuck = false) (hdraws : b.draws = .returns (.ok drawn) :: ds) :
    tRead o drawn.length b = (.ok drawn, b.advance.log (.r o drawn.length (.ok drawn))) := by
  have hdraw : b.nextDraw = .returns (.ok drawn) := by simp [Bus.nextDraw, hdraws]
  simp [tRead, hstuck, hdraw, readBytes_exact]

/-- Settles O45, by its one read and the changed flags as comparisons. -/
theorem pollRule : Obligations.PollRule := by
  intro s y0 y1 y2 y3 ds hf hstuck hdraws mask snap chg
  have hread : tRead s.cfg.regFaultBase 4 s.bus = (.ok [y0, y1, y2, y3], _) :=
    tRead_of_draw s.cfg.regFaultBase hstuck hdraws
  have hchg : changedFlags s.snap snap = chg := changedFlags_eq _ _
  have hreturn : pollReturn s (tRead s.cfg.regFaultBase 4 s.bus) = { s with
      snap := snap, chg := chg,
      bus := { s.bus with
        hist := s.bus.hist ++ [.r s.cfg.regFaultBase 4 (.ok [y0, y1, y2, y3])],
        draws := ds, drawNo := s.bus.drawNo + 1 },
      resp := some ⟨.ok, 0, .faults (packFaults s.cfg.excludeClockFault snap chg)⟩ } := by
    rw [hread, ← hchg, ← show s.bus.draws.tail = ds by rw [hdraws, List.tail_cons]]
    rfl
  show gated s _ = _
  rw [gated_running hf, hreturn]
  exact conclude_running hstuck

/-- The four bytes of the packed snapshot (R101). -/
theorem packFaults_bytes (exclude : Bool) (snap : Snapshot) (chg : ChangedFlags) :
    let p := packFaults exclude snap chg
    p.extractLsb' 0 8 = snap.ch ∧ p.extractLsb' 8 8 = snap.glob ∧
      p.extractLsb' 16 8 = snap.otf ∧ p.extractLsb' 24 8 = snap.otw := by
  refine ⟨BitVec.extractLsb'_append_eq_right, ?_, ?_, ?_⟩
  all_goals refine (BitVec.extractLsb'_append_eq_of_le (by decide)).trans ?_
  · exact BitVec.extractLsb'_append_eq_right
  all_goals refine (BitVec.extractLsb'_append_eq_of_le (by decide)).trans ?_
  · exact BitVec.extractLsb'_append_eq_right
  · exact (BitVec.extractLsb'_append_eq_of_le (by decide)).trans BitVec.extractLsb'_append_eq_right

/-- The eight bits above them (R101). -/
theorem packFaults_bits (exclude : Bool) (snap : Snapshot) (chg : ChangedFlags) :
    let p := packFaults exclude snap chg
    p.getLsbD 32 = snap.clock ∧ p.getLsbD 33 = chg.ch ∧ p.getLsbD 34 = chg.glob ∧
      p.getLsbD 35 = chg.clock ∧ p.getLsbD 36 = chg.otf ∧ p.getLsbD 37 = chg.otw ∧
      p.getLsbD 38 = anyFault exclude snap ∧ p.getLsbD 39 = publish exclude snap chg := by
  refine ⟨?_, ?_, ?_, ?_, ?_, ?_, ?_, ?_⟩
  all_goals
    refine BitVec.getLsbD_append.trans ?_
    simp only [BitVec.getLsbD_append, BitVec.getLsbD_ofBool]
    rfl

theorem anyFault_iff {exclude : Bool} {snap : Snapshot} :
    anyFault exclude snap = true ↔ snap.ch ≠ 0 ∨ snap.glob ≠ 0 ∨ snap.otf ≠ 0 ∨ snap.otw ≠ 0 ∨
      (snap.clock = true ∧ exclude = false) := by
  simp [anyFault, or_assoc]

theorem publish_iff {exclude : Bool} {snap : Snapshot} {chg : ChangedFlags} :
    publish exclude snap chg = true ↔ chg.ch = true ∨ chg.glob = true ∨ chg.clock = true ∨
      chg.otf = true ∨ chg.otw = true ∨ anyFault exclude snap = true := by
  simp [publish, or_assoc]

/-- Settles O48, by the fields of the packed snapshot. -/
theorem readFaultsRule : Obligations.ReadFaultsRule := by
  intro s hf
  obtain ⟨hch, hglob, hotf, hotw⟩ := packFaults_bytes s.cfg.excludeClockFault s.snap s.chg
  obtain ⟨hclock, hcch, hcglob, hcclock, hcotf, hcotw, hany, hpublish⟩ :=
    packFaults_bits s.cfg.excludeClockFault s.snap s.chg
  refine ⟨s.packedFaults, gated_running hf, hch, hglob, hotf, hotw, hclock, hcch, hcglob, hcclock,
    hcotf, hcotw, ?_, ?_⟩
  · rw [State.packedFaults, hany, anyFault_iff]
  · rw [State.packedFaults, hany, hpublish, publish_iff]

/-! ## Literals (R94, R313) -/

/-- Settles O60: each word is computed from its rational. -/
theorem decimalLiterals : Obligations.DecimalLiterals := by
  refine ⟨?_, ?_, ?_, ?_, ?_⟩ <;> decide +kernel

/-! ## The ideal design at DC and at Nyquist (R95, R170) -/

/-- Under the precondition of R160 the angle lies strictly between 0 and pi. -/
theorem idealW0_mem {fs fc : ℚ} (hpos : 0 < fc) (hlt : fc < fs / 2) :
    0 < idealW0 fs fc ∧ idealW0 fs fc < Real.pi := by
  have hfc : (0 : ℝ) < fc := by exact_mod_cast hpos
  have hfs : 2 * (fc : ℝ) < fs := by
    have : 2 * fc < fs := by linarith
    exact_mod_cast this
  have hfs0 : (0 : ℝ) < fs := by linarith
  unfold idealW0
  refine ⟨by positivity, ?_⟩
  rw [div_lt_iff₀ hfs0]
  nlinarith [Real.pi_pos]

theorem idealA0_pos {fs fc : ℚ} (hpos : 0 < fc) (hlt : fc < fs / 2) : 0 < idealA0 fs fc := by
  obtain ⟨h0, hpi⟩ := idealW0_mem hpos hlt
  have := Real.sin_pos_of_pos_of_lt_pi h0 hpi
  unfold idealA0 idealAlpha
  positivity

theorem cos_idealW0_mem {fs fc : ℚ} (hpos : 0 < fc) (hlt : fc < fs / 2) :
    -1 < Real.cos (idealW0 fs fc) ∧ Real.cos (idealW0 fs fc) < 1 := by
  obtain ⟨h0, hpi⟩ := idealW0_mem hpos hlt
  have hsin := Real.sin_pos_of_pos_of_lt_pi h0 hpi
  have hsq := Real.sin_sq_add_cos_sq (idealW0 fs fc)
  constructor <;> nlinarith

/-- The denominator at DC, in the sign-inverted form of R95. -/
theorem ideal_dc_denominator (kind : FilterKind) {fs fc : ℚ} (ha : idealA0 fs fc ≠ 0) :
    1 - idealValue kind fs fc 3 - idealValue kind fs fc 4 =
      2 * (1 - Real.cos (idealW0 fs fc)) / idealA0 fs fc := by
  have hsum : idealA0 fs fc + idealA1 fs fc + idealA2 fs fc = 2 * (1 - Real.cos (idealW0 fs fc)) := by
    unfold idealA0 idealA1 idealA2; ring
  rw [← hsum]
  simp only [idealValue]
  field_simp
  ring

/-- The denominator at Nyquist. -/
theorem ideal_nyquist_denominator (kind : FilterKind) {fs fc : ℚ} (ha : idealA0 fs fc ≠ 0) :
    1 + idealValue kind fs fc 3 - idealValue kind fs fc 4 =
      2 * (1 + Real.cos (idealW0 fs fc)) / idealA0 fs fc := by
  have hsum : idealA0 fs fc - idealA1 fs fc + idealA2 fs fc = 2 * (1 + Real.cos (idealW0 fs fc)) := by
    unfold idealA0 idealA1 idealA2; ring
  rw [← hsum]
  simp only [idealValue]
  field_simp
  ring

/-- The numerators at DC and at Nyquist: each kind's zeros cancel one of them. -/
theorem ideal_lowpass_numerators (fs fc : ℚ) :
    let l := idealValue .lowpass fs fc
    l 0 + l 1 + l 2 = 2 * (1 - Real.cos (idealW0 fs fc)) / idealA0 fs fc ∧ l 0 - l 1 + l 2 = 0 := by
  simp only [idealValue, idealB0, idealB1]
  constructor <;> ring

theorem ideal_highpass_numerators (fs fc : ℚ) :
    let h := idealValue .highpass fs fc
    h 0 + h 1 + h 2 = 0 ∧ h 0 - h 1 + h 2 = 2 * (1 + Real.cos (idealW0 fs fc)) / idealA0 fs fc := by
  simp only [idealValue, idealB0, idealB1]
  constructor <;> ring

/-- Settles O23: each numerator is its denominator or zero. -/
theorem idealDesignGains : Obligations.IdealDesignGains := by
  intro fs fc hpos hlt l h
  have ha := idealA0_pos hpos hlt
  obtain ⟨hneg, hone⟩ := cos_idealW0_mem hpos hlt
  have hdc (kind : FilterKind) :
      1 - idealValue kind fs fc 3 - idealValue kind fs fc 4 ≠ 0 := by
    rw [ideal_dc_denominator kind ha.ne']
    exact (div_pos (by linarith) ha).ne'
  have hnyquist (kind : FilterKind) :
      1 + idealValue kind fs fc 3 - idealValue kind fs fc 4 ≠ 0 := by
    rw [ideal_nyquist_denominator kind ha.ne']
    exact (div_pos (by linarith) ha).ne'
  obtain ⟨hl1, hl0⟩ := ideal_lowpass_numerators fs fc
  obtain ⟨hh0, hh1⟩ := ideal_highpass_numerators fs fc
  rw [← ideal_dc_denominator .lowpass ha.ne'] at hl1
  rw [← ideal_nyquist_denominator .highpass ha.ne'] at hh1
  refine ⟨(div_eq_one_iff_eq (hdc _)).2 hl1, hnyquist _, ?_, hdc _, ?_,
    (div_eq_one_iff_eq (hnyquist _)).2 hh1⟩
  · exact div_eq_zero_iff.2 (.inl hl0)
  · exact div_eq_zero_iff.2 (.inl hh0)

end Sys2Proof.Machine
end

section
/-! SUPPORT. The family of 40_codec.md: the word of an input beyond the extremes, at them and between them
(R130 to R133), the laws R140 to R146 that follow, the wire form (R134), and the closeness of a design's
words to the ideal values (R142, R166). -/

namespace Sys2Proof.Machine

/-! ## Rounding near 0 and at the ties (R132) -/

theorem rha_eq_zero {s : ℚ} (h : |s| < 1 / 2) : rha s = 0 := by
  have hround := abs_rha_sub_le s
  rw [abs_le] at hround
  rw [abs_lt] at h
  have hlow : (-1 : ℚ) < rha s := by linarith
  have hhigh : (rha s : ℚ) < 1 := by linarith
  have hlow' : -1 < rha s := by exact_mod_cast hlow
  have hhigh' : rha s < 1 := by exact_mod_cast hhigh
  omega

theorem rha_half : rha (1 / 2) = 1 := by norm_num [rha]

/-- Rounding moves a value by exactly half a unit at the ties and nowhere else (R142). -/
theorem abs_rha_sub_eq_half_iff {s : ℚ} :
    |(rha s : ℚ) - s| = 1 / 2 ↔ ∃ k : ℤ, s = (k : ℚ) + 1 / 2 := by
  constructor
  · intro h
    rcases (abs_eq (by norm_num)).1 h with h | h
    · exact ⟨rha s - 1, by push_cast; linarith⟩
    · exact ⟨rha s, by linarith⟩
  · rintro ⟨k, rfl⟩
    have hround := abs_rha_sub_le ((k : ℚ) + 1 / 2)
    rw [abs_le] at hround
    obtain ⟨hlow, hhigh⟩ := hround
    have hlow' : k ≤ rha ((k : ℚ) + 1 / 2) := by
      have : (k : ℚ) ≤ rha ((k : ℚ) + 1 / 2) := by linarith
      exact_mod_cast this
    have hhigh' : rha ((k : ℚ) + 1 / 2) ≤ k + 1 := by
      have : (rha ((k : ℚ) + 1 / 2) : ℚ) ≤ k + 1 := by linarith
      exact_mod_cast this
    obtain hk | hk : rha ((k : ℚ) + 1 / 2) = k ∨ rha ((k : ℚ) + 1 / 2) = k + 1 := by omega
    all_goals rw [hk]; norm_num

/-! ## The range of a format (R131) -/

theorem fits_of_format {f : FixFormat} (h : f = fmt923 ∨ f = fmt527) : FixFormat.Fits f := by
  rcases h with rfl | rfl
  · exact fmt923_fits
  · exact fmt527_fits

/-- The upper extreme is one unit below the bound 2^(m-1). -/
theorem fmtMax_lt_bound (f : FixFormat) : fmtMax f < 2 ^ (f.m - 1) := by
  have := one_div_pos.2 (scale_pos f)
  simp only [fmtMax, Nat.cast_pow, Nat.cast_ofNat] at this ⊢
  linarith

theorem fmtMin_eq (f : FixFormat) : fmtMin f = -2 ^ (f.m - 1) := by simp [fmtMin]

/-- The range is symmetric but for its lowest value (R145). -/
theorem fmtMin_lt_neg_fmtMax (f : FixFormat) : fmtMin f < -fmtMax f := by
  rw [fmtMin_eq]
  exact neg_lt_neg (fmtMax_lt_bound f)

/-- Step 1 of R130 leaves a value in range. -/
theorem clamp_of_mem {f : FixFormat} {x : ℚ} (h1 : fmtMin f ≤ x) (h2 : x ≤ fmtMax f) :
    min (max x (fmtMin f)) (fmtMax f) = x := by
  rw [max_eq_left h1, min_eq_left h2]

/-- Half a unit of the last place is half a unit after rounding, scaled back. -/
theorem halfUnit_eq (f : FixFormat) : (1 : ℚ) / 2 ^ (f.n + 1) = 1 / 2 / ((2 ^ f.n : ℕ) : ℚ) := by
  push_cast
  rw [pow_succ', div_div]

theorem abs_mul_scale (f : FixFormat) (x : ℚ) :
    |x * ((2 ^ f.n : ℕ) : ℚ)| = |x| * ((2 ^ f.n : ℕ) : ℚ) := by
  rw [abs_mul, abs_of_pos (scale_pos f)]

/-- Clamping to an interval after clamping to a wider one (R141). -/
theorem clamp_clamp {lo hi a b : ℚ} (hlo : lo ≤ a) (hab : a ≤ b) (hhi : b ≤ hi) (x : ℚ) :
    min (max (min (max x lo) hi) a) b = min (max x a) b := by
  rw [max_min_distrib_right, max_assoc, max_eq_right hlo, max_eq_left (hab.trans hhi), min_assoc,
    min_eq_right hhi]

/-- Clamping brings a value no farther from any value of the interval. -/
theorem abs_clamp_sub_le {a b y : ℝ} (ha : a ≤ y) (hb : y ≤ b) (x : ℝ) :
    |min (max x a) b - y| ≤ |x - y| := by
  have hmax := abs_max_sub_max_le_abs x y a
  have hmin := abs_min_sub_min_le_max (max x a) b y b
  rw [max_eq_left ha] at hmax
  rw [min_eq_left hb, sub_self, abs_zero] at hmin
  exact (hmin.trans_eq (max_eq_left (abs_nonneg _))).trans hmax

/-- A word's value is its signed number of units of the last place (R137, R138). -/
theorem decCore_mul_scale (n : ℕ) (w : Word) : decCore n w * ((2 ^ n : ℕ) : ℚ) = w.toInt :=
  div_mul_cancel₀ _ (by positivity)

/-- A finite input is clamped, then scaled (R130). -/
theorem encCore_fin (nanWord : Word) (f : FixFormat) (x : ℚ) :
    encCore nanWord f (.fin x) = scaleToWord f (min (max x (fmtMin f)) (fmtMax f)) := rfl

section Fits

variable {f : FixFormat} (h : FixFormat.Fits f) (nanWord : Word)
include h

theorem fmtMin_le_iff {x : ℚ} : fmtMin f ≤ x ↔ -2 ^ 31 ≤ x * ((2 ^ f.n : ℕ) : ℚ) := by
  rw [← mul_le_mul_iff_left₀ (scale_pos f), fmtMin_scaled h]
  norm_num

theorem le_fmtMax_iff {x : ℚ} : x ≤ fmtMax f ↔ x * ((2 ^ f.n : ℕ) : ℚ) ≤ 2 ^ 31 - 1 := by
  rw [← mul_le_mul_iff_left₀ (scale_pos f), fmtMax_scaled h]
  norm_num

/-! ## The extremes (R133, R140) -/

theorem scaleToWord_fmtMax : scaleToWord f (fmtMax f) = 0x7FFFFFFF := by
  apply BitVec.eq_of_toInt_eq
  rw [scaleToWord_toInt h (fmtMin_le_fmtMax h) le_rfl, fmtMax_scaled h, rha_int]
  decide

theorem scaleToWord_fmtMin : scaleToWord f (fmtMin f) = 0x80000000 := by
  apply BitVec.eq_of_toInt_eq
  rw [scaleToWord_toInt h le_rfl (fmtMin_le_fmtMax h), fmtMin_scaled h, rha_int]
  decide

theorem encCore_posInf : encCore nanWord f .posInf = 0x7FFFFFFF := scaleToWord_fmtMax h

theorem encCore_negInf : encCore nanWord f .negInf = 0x80000000 := scaleToWord_fmtMin h

theorem encCore_of_fmtMax_le {x : ℚ} (hx : fmtMax f ≤ x) :
    encCore nanWord f (.fin x) = 0x7FFFFFFF := by
  have hclamp : min (max x (fmtMin f)) (fmtMax f) = fmtMax f :=
    min_eq_right (hx.trans (le_max_left _ _))
  rw [encCore_fin, hclamp, scaleToWord_fmtMax h]

theorem encCore_of_le_fmtMin {x : ℚ} (hx : x ≤ fmtMin f) :
    encCore nanWord f (.fin x) = 0x80000000 := by
  have hclamp : min (max x (fmtMin f)) (fmtMax f) = fmtMin f := by
    rw [max_eq_right hx, min_eq_left (fmtMin_le_fmtMax h)]
  rw [encCore_fin, hclamp, scaleToWord_fmtMin h]

/-- Clamping the input first changes nothing (R140). -/
theorem encCore_clamp (x : ℚ) :
    encCore nanWord f (.fin (min (max x (fmtMin f)) (fmtMax f))) = encCore nanWord f (.fin x) := by
  obtain ⟨h1, h2⟩ := clamp_mem h x
  rw [encCore_fin, encCore_fin, clamp_of_mem h1 h2]

/-! ## Inputs in range (R130, R141, R142) -/

/-- In range the rounded scaled value has 32 bits (R141). -/
theorem rha_scaled_mem {x : ℚ} (h1 : fmtMin f ≤ x) (h2 : x ≤ fmtMax f) :
    -2 ^ 31 ≤ rha (x * ((2 ^ f.n : ℕ) : ℚ)) ∧ rha (x * ((2 ^ f.n : ℕ) : ℚ)) ≤ 2 ^ 31 - 1 := by
  have hlow := (fmtMin_le_iff h).1 h1
  have hhigh := (le_fmtMax_iff h).1 h2
  exact rha_mem (a := -2 ^ 31) (b := 2 ^ 31 - 1) (by exact_mod_cast hlow) (by exact_mod_cast hhigh)

theorem encCore_inRange {x : ℚ} (h1 : fmtMin f ≤ x) (h2 : x ≤ fmtMax f) :
    encCore nanWord f (.fin x) = BitVec.ofInt 32 (rha (x * ((2 ^ f.n : ℕ) : ℚ))) := by
  rw [← encCore_inRange_toInt h nanWord h1 h2, BitVec.ofInt_toInt]

theorem decCore_encCore_inRange {x : ℚ} (h1 : fmtMin f ≤ x) (h2 : x ≤ fmtMax f) :
    decCore f.n (encCore nanWord f (.fin x)) =
      rha (x * ((2 ^ f.n : ℕ) : ℚ)) / ((2 ^ f.n : ℕ) : ℚ) := by
  rw [decCore, encCore_inRange_toInt h nanWord h1 h2]

/-- The round trip's error is the rounding's, in units of the last place (R142). -/
theorem abs_decCore_encCore_sub {x : ℚ} (h1 : fmtMin f ≤ x) (h2 : x ≤ fmtMax f) :
    |decCore f.n (encCore nanWord f (.fin x)) - x| =
      |rha (x * ((2 ^ f.n : ℕ) : ℚ)) - x * ((2 ^ f.n : ℕ) : ℚ)| / ((2 ^ f.n : ℕ) : ℚ) := by
  have hpos := scale_pos f
  rw [decCore_encCore_inRange h nanWord h1 h2, ← abs_of_pos hpos, ← abs_div, abs_of_pos hpos, sub_div,
    mul_div_cancel_right₀ _ hpos.ne']

theorem abs_decCore_encCore_sub_le {x : ℚ} (h1 : fmtMin f ≤ x) (h2 : x ≤ fmtMax f) :
    |decCore f.n (encCore nanWord f (.fin x)) - x| ≤ 1 / 2 ^ (f.n + 1) := by
  rw [abs_decCore_encCore_sub h nanWord h1 h2, halfUnit_eq f]
  exact div_le_div_of_nonneg_right (abs_rha_sub_le _) (scale_pos f).le

/-! ## Near 0 (R135, R136) -/

/-- A value of at most half a unit is in range. -/
theorem mem_range_of_abs_le {x : ℚ} (hx : |x| ≤ 1 / 2 ^ (f.n + 1)) :
    fmtMin f ≤ x ∧ x ≤ fmtMax f := by
  rw [halfUnit_eq f, le_div_iff₀ (scale_pos f), ← abs_mul_scale, abs_le] at hx
  obtain ⟨hlow, hhigh⟩ := hx
  rw [fmtMin_le_iff h, le_fmtMax_iff h]
  exact ⟨by linarith, by linarith⟩

theorem encCore_of_abs_lt {x : ℚ} (hx : |x| < 1 / 2 ^ (f.n + 1)) :
    encCore nanWord f (.fin x) = 0 := by
  obtain ⟨h1, h2⟩ := mem_range_of_abs_le h hx.le
  rw [halfUnit_eq f, lt_div_iff₀ (scale_pos f), ← abs_mul_scale] at hx
  rw [encCore_inRange h nanWord h1 h2, rha_eq_zero hx]
  rfl

theorem encCore_zero : encCore nanWord f (.fin 0) = 0 :=
  encCore_of_abs_lt h nanWord (by rw [abs_zero]; positivity)

theorem encCore_halfUnit : encCore nanWord f (.fin (1 / 2 ^ (f.n + 1))) = 1 := by
  obtain ⟨h1, h2⟩ := mem_range_of_abs_le h (abs_of_nonneg (by positivity)).le
  rw [encCore_inRange h nanWord h1 h2, halfUnit_eq f, div_mul_cancel₀ _ (scale_pos f).ne', rha_half]
  rfl

theorem encCore_neg_halfUnit : encCore nanWord f (.fin (-(1 / 2 ^ (f.n + 1)))) = 0xFFFFFFFF := by
  obtain ⟨h1, h2⟩ := mem_range_of_abs_le h ((abs_neg _).trans (abs_of_nonneg (by positivity))).le
  rw [encCore_inRange h nanWord h1 h2, halfUnit_eq f, neg_mul, div_mul_cancel₀ _ (scale_pos f).ne',
    rha_neg, rha_half]
  rfl

/-! ## The laws of the codec (R141, R143 to R145) -/

/-- Saturating the rounded scaled value is clamping before scaling: scaling and rounding are monotone and
take the extremes to those of 32 bits (R141). -/
theorem saturate_rha_scaled (c : ℚ) :
    min (max (rha (c * ((2 ^ f.n : ℕ) : ℚ))) (-2 ^ 31)) (2 ^ 31 - 1) =
      rha (min (max c (fmtMin f)) (fmtMax f) * ((2 ^ f.n : ℕ) : ℚ)) := by
  have hmono : Monotone fun c => rha (c * ((2 ^ f.n : ℕ) : ℚ)) :=
    fun _ _ hle => rha_mono (mul_le_mul_of_nonneg_right hle (scale_pos f).le)
  have hmin : rha (fmtMin f * ((2 ^ f.n : ℕ) : ℚ)) = -2 ^ 31 := by rw [fmtMin_scaled h, rha_int]
  have hmax : rha (fmtMax f * ((2 ^ f.n : ℕ) : ℚ)) = 2 ^ 31 - 1 := by rw [fmtMax_scaled h, rha_int]
  rw [← hmin, ← hmax]
  exact ((hmono.map_min).trans (congrArg (min · _) hmono.map_max)).symm

/-- Extremes outside the format's give the same word (R141). -/
theorem encCore_of_wider_clamp {lo hi : ℚ} (hlo : lo ≤ fmtMin f) (hhi : fmtMax f ≤ hi) (x : ℚ) :
    scaleToWord f (min (max x lo) hi) = encCore nanWord f (.fin x) := by
  have hword : scaleToWord f (min (max x lo) hi) = BitVec.ofInt 32 _ :=
    congrArg (BitVec.ofInt 32) (saturate_rha_scaled h (min (max x lo) hi))
  rw [hword, clamp_clamp hlo (fmtMin_le_fmtMax h) hhi, ← encCore_fin_toInt h nanWord,
    BitVec.ofInt_toInt]

theorem encCore_decCore (w : Word) : encCore nanWord f (.fin (decCore f.n w)) = w := by
  have hscaled := decCore_mul_scale f.n w
  have hlow : (-2 ^ 31 : ℤ) ≤ w.toInt := BitVec.le_toInt w
  have hhigh : w.toInt ≤ (2 ^ 31 - 1 : ℤ) := by have := BitVec.toInt_lt (x := w); omega
  have h1 : fmtMin f ≤ decCore f.n w := by
    rw [fmtMin_le_iff h, hscaled]; exact_mod_cast hlow
  have h2 : decCore f.n w ≤ fmtMax f := by
    rw [le_fmtMax_iff h, hscaled]; exact_mod_cast hhigh
  rw [encCore_inRange h nanWord h1 h2, hscaled, rha_int, BitVec.ofInt_toInt]

theorem encCore_mono {x y : ℚ} (hxy : x ≤ y) :
    (encCore nanWord f (.fin x)).toInt ≤ (encCore nanWord f (.fin y)).toInt := by
  rw [encCore_fin_toInt h, encCore_fin_toInt h]
  exact rha_mono (mul_le_mul_of_nonneg_right (min_le_min_right _ (max_le_max_right _ hxy))
    (scale_pos f).le)

theorem encCore_neg_toInt {x : ℚ} (hx : |x| ≤ fmtMax f) :
    (encCore nanWord f (.fin (-x))).toInt = -(encCore nanWord f (.fin x)).toInt := by
  obtain ⟨h1, h2⟩ := abs_le.1 hx
  have hmin := fmtMin_lt_neg_fmtMax f
  rw [encCore_inRange_toInt h nanWord (x := -x) (by linarith) (by linarith),
    encCore_inRange_toInt h nanWord (by linarith) h2, neg_mul, rha_neg]

/-- The word over 2^n, for an input of any size, against a value in range: half a unit is all that
encoding adds to the input's distance (R140, R142). -/
theorem abs_encCore_toInt_div_sub_le (x : ℚ) {y : ℝ} (h1 : (fmtMin f : ℝ) ≤ y)
    (h2 : y ≤ fmtMax f) :
    |((encCore nanWord f (.fin x)).toInt : ℝ) / 2 ^ f.n - y| ≤ |(x : ℝ) - y| + 1 / 2 ^ (f.n + 1) := by
  obtain ⟨hc1, hc2⟩ := clamp_mem h x
  have hround := abs_decCore_encCore_sub_le h nanWord hc1 hc2
  rw [encCore_clamp h, decCore] at hround
  have hround' := (Rat.cast_le (K := ℝ)).2 hround
  have hclamp := abs_clamp_sub_le h1 h2 (x : ℝ)
  push_cast at hround'
  linarith [abs_sub_le (((encCore nanWord f (.fin x)).toInt : ℝ) / 2 ^ f.n)
    (min (max (x : ℝ) (fmtMin f)) (fmtMax f)) y]

end Fits

/-! ## The binary32 patterns (R94, R133) -/

theorem f32Value_of_nan {v : Word} (he : v.extractLsb' 23 8 = 255) (hf : v.extractLsb' 0 23 ≠ 0) :
    f32Value v = .nan := by
  have he' : (v.extractLsb' 23 8).toNat = 255 := by rw [he]; rfl
  have hf' : (v.extractLsb' 0 23).toNat ≠ 0 := fun h0 => hf (BitVec.eq_of_toNat_eq h0)
  simp only [f32Value]
  rw [if_pos he', if_pos hf']

/-- A finite binary32 is an integer, or 24 bits over a power of two (R94). -/
theorem abs_of_f32Value_fin {v : Word} {x : ℚ} (hv : f32Value v = .fin x) :
    ∃ a k : ℕ, (k = 0 ∨ a < 2 ^ 24) ∧ |x| = (a : ℚ) / 2 ^ k := by
  have habs (b : Bool) (q : ℚ) (hq : 0 ≤ q) : |if b then -q else q| = q := by
    cases b <;> simp [abs_of_nonneg hq]
  have hf := (v.extractLsb' 0 23).isLt
  simp only [f32Value] at hv
  generalize (v.extractLsb' 0 23).toNat = a at hv hf
  generalize (v.extractLsb' 23 8).toNat = e at hv
  split at hv
  · split at hv
    · cases hv
    · split at hv <;> cases hv
  · split at hv
    · -- subnormal
      cases hv
      exact ⟨a, 149, .inr (by omega), by rw [habs _ _ (by positivity)]; push_cast; rfl⟩
    · split at hv <;> cases hv
      · -- an integer
        exact ⟨(2 ^ 23 + a) * 2 ^ (e - 150), 0, .inl rfl,
          by rw [habs _ _ (by positivity), pow_zero, div_one]⟩
      · exact ⟨2 ^ 23 + a, 150 - e, .inr (by omega),
          by rw [habs _ _ (by positivity)]; push_cast; rfl⟩

/-- From 2^(23-n) on, a binary32 has no bit below the last place (R146). -/
theorem f32Value_scaled_integer {v : Word} {x : ℚ} {n : ℕ} (hv : f32Value v = .fin x)
    (hx : 2 ^ 23 / 2 ^ n ≤ |x|) : ∃ z : ℤ, x * 2 ^ n = (z : ℚ) := by
  obtain ⟨a, k, hak, habs⟩ := abs_of_f32Value_fin hv
  have hkn : k ≤ n := by
    rcases hak with rfl | ha
    · exact Nat.zero_le n
    · rw [habs, div_le_div_iff₀ (by positivity) (by positivity)] at hx
      have hx' : 2 ^ 23 * 2 ^ k ≤ a * 2 ^ n := by exact_mod_cast hx
      have hlt : 2 ^ (23 + k) < 2 ^ (24 + n) := by
        calc 2 ^ (23 + k) ≤ a * 2 ^ n := by rwa [pow_add]
          _ < 2 ^ (24 + n) := by rw [pow_add]; exact Nat.mul_lt_mul_of_pos_right ha (by positivity)
      have := (Nat.pow_lt_pow_iff_right (by norm_num)).1 hlt
      omega
  have hscaled : |x| * 2 ^ n = ((a * 2 ^ (n - k) : ℕ) : ℚ) := by
    obtain ⟨d, rfl⟩ := Nat.exists_eq_add_of_le hkn
    rw [habs, Nat.add_sub_cancel_left, pow_add]
    push_cast
    field_simp
  rcases abs_choice x with hsign | hsign
  · exact ⟨(a * 2 ^ (n - k) : ℕ), by rw [← hsign, hscaled]; simp⟩
  · exact ⟨-(a * 2 ^ (n - k) : ℕ), by rw [← neg_neg x, ← hsign, neg_mul, hscaled]; simp⟩

/-! ## The wire form (R93, R134) -/

theorem wire_unwire (y0 y1 y2 y3 : Byte) : wire (unwire y0 y1 y2 y3) = [y0, y1, y2, y3] := by
  have h0 := y0.isLt; have h1 := y1.isLt; have h2 := y2.isLt; have h3 := y3.isLt
  simp only [wire, List.cons.injEq, and_true, ← BitVec.toNat_inj, unwire, BitVec.extractLsb'_toNat,
    toNat_append_add, Nat.shiftRight_eq_div_pow]
  omega

theorem unwire_wire (w : Word) :
    unwire (w.extractLsb' 24 8) (w.extractLsb' 16 8) (w.extractLsb' 8 8) (w.extractLsb' 0 8) = w := by
  apply BitVec.eq_of_toNat_eq
  have := w.isLt
  simp only [unwire, BitVec.extractLsb'_toNat, toNat_append_add, Nat.shiftRight_eq_div_pow]
  omega

theorem wire_swapped (w : Word) : wire (swapped w) = (wire w).reverse := wire_unwire _ _ _ _

theorem swapped_swapped (w : Word) : swapped (swapped w) = w := by
  have hbytes := wire_swapped w
  simp only [wire, List.reverse_cons, List.reverse_nil, List.nil_append, List.cons_append,
    List.cons.injEq, and_true] at hbytes
  obtain ⟨h0, h1, h2, h3⟩ := hbytes
  show unwire _ _ _ _ = w
  rw [h0, h1, h2, h3, unwire_wire]

/-! ## The ideal values lie in the 5.27 range (R167) -/

theorem idealAlpha_pos {fs fc : ℚ} (hpos : 0 < fc) (hlt : fc < fs / 2) : 0 < idealAlpha fs fc := by
  obtain ⟨h0, hpi⟩ := idealW0_mem hpos hlt
  have := Real.sin_pos_of_pos_of_lt_pi h0 hpi
  unfold idealAlpha
  positivity

theorem abs_idealB0_le_two (kind : FilterKind) (fs fc : ℚ) : |idealB0 kind fs fc| ≤ 2 := by
  have hcos := Real.abs_cos_le_one (idealW0 fs fc)
  rw [abs_le] at hcos ⊢
  unfold idealB0
  cases kind <;> constructor <;> linarith

theorem abs_idealB1_le_two (kind : FilterKind) (fs fc : ℚ) : |idealB1 kind fs fc| ≤ 2 := by
  have hcos := Real.abs_cos_le_one (idealW0 fs fc)
  rw [abs_le] at hcos ⊢
  unfold idealB1
  cases kind <;> constructor <;> linarith

/-- Each numerator is at most twice the denominator `a0`, which is above 1. -/
theorem abs_idealValue_le_two (kind : FilterKind) {fs fc : ℚ} (hpos : 0 < fc) (hlt : fc < fs / 2)
    (k : Fin 5) : |idealValue kind fs fc k| ≤ 2 := by
  have halpha := idealAlpha_pos hpos hlt
  have ha : idealA0 fs fc = 1 + idealAlpha fs fc := rfl
  have hquot {b : ℝ} (hb : |b| ≤ 2 * idealA0 fs fc) : |b / idealA0 fs fc| ≤ 2 := by
    rwa [abs_div, abs_of_pos (idealA0_pos hpos hlt), div_le_iff₀ (idealA0_pos hpos hlt)]
  have hquot_of_two {b : ℝ} (hb : |b| ≤ 2) : |b / idealA0 fs fc| ≤ 2 := hquot (by linarith)
  have ha1 : |idealA1 fs fc| ≤ 2 := by
    rw [idealA1, abs_mul]
    have := Real.abs_cos_le_one (idealW0 fs fc)
    norm_num
    linarith
  have ha2 : |idealA2 fs fc| ≤ 2 * idealA0 fs fc := by
    rw [ha, idealA2, abs_le]
    constructor <;> linarith
  match k with
  | 0 => exact hquot_of_two (abs_idealB0_le_two kind fs fc)
  | 1 => exact hquot_of_two (abs_idealB1_le_two kind fs fc)
  | 2 => exact hquot_of_two (abs_idealB0_le_two kind fs fc)
  | 3 => exact (abs_neg _).trans_le (hquot_of_two ha1)
  | 4 => exact (abs_neg _).trans_le (hquot ha2)

/-! ## The statements -/

/-- Settles O8: ENCODE answers at once, in every state. -/
theorem encodeCompletes : Obligations.EncodeCompletes := fun _ _ => ⟨rfl, rfl⟩

/-- Settles O9: an infinity is clamped to its extreme, a zero is below half a unit, a NaN is not
clamped. -/
theorem nonFiniteAndZeroEncode : Obligations.NonFiniteAndZeroEncode := by
  intro nanWord f hf
  have h := fits_of_format hf
  have hpos : f32Value 0x7F800000 = .posInf := by decide
  have hneg : f32Value 0xFF800000 = .negInf := by decide
  have hzero : f32Value 0x00000000 = .fin 0 := by decide +kernel
  have hnegZero : f32Value 0x80000000 = .fin 0 := by decide +kernel
  rw [hpos, hneg, hzero, hnegZero]
  refine ⟨encCore_posInf h nanWord, encCore_negInf h nanWord, encCore_zero h nanWord,
    encCore_zero h nanWord, fun v he hpayload => ?_⟩
  rw [f32Value_of_nan he hpayload]
  rfl

/-- Settles O10: beyond an extreme the word is the extreme's, and next to 0 it is the rounding of at most
half a unit. -/
theorem encodeExtremesAndTies : Obligations.EncodeExtremesAndTies := by
  intro nanWord f hf x
  have h := fits_of_format hf
  refine ⟨fun hx => encCore_of_fmtMax_le h nanWord ((fmtMax_lt_bound f).le.trans hx),
    fun hx => encCore_of_le_fmtMin h nanWord (hx.trans_eq (fmtMin_eq f).symm),
    encCore_of_abs_lt h nanWord, ?_, ?_⟩
  · rintro rfl
    exact encCore_halfUnit h nanWord
  · rintro rfl
    exact encCore_neg_halfUnit h nanWord

/-- Settles O11. -/
theorem saturationLaw : Obligations.SaturationLaw := by
  intro nanWord f hf x
  have h := fits_of_format hf
  exact ⟨fun hx => ⟨encCore_of_fmtMax_le h nanWord hx.le, encCore_of_fmtMax_le h nanWord le_rfl⟩,
    fun hx => ⟨encCore_of_le_fmtMin h nanWord hx.le, encCore_of_le_fmtMin h nanWord le_rfl⟩,
    encCore_clamp h nanWord x⟩

/-- Settles O12: the source's literal extremes lie outside the format's. -/
theorem secondSaturationIsNoOp : Obligations.SecondSaturationIsNoOp := by
  intro nanWord f hf x
  have h := fits_of_format hf
  obtain ⟨h1, h2⟩ := clamp_mem h x
  have hpow : (2 : ℚ) ^ (f.m - 1) ≤ 2 ^ f.m := pow_le_pow_right₀ (by norm_num) (Nat.sub_le _ _)
  have hlo : -2 ^ f.m ≤ fmtMin f := by
    rw [fmtMin_eq]
    exact neg_le_neg hpow
  have hhi : fmtMax f ≤ 2 ^ f.m - 1 / 2 ^ f.n := by
    simp only [fmtMax, Nat.cast_pow, Nat.cast_ofNat]
    linarith
  have hmem := rha_scaled_mem h h1 h2
  have hwide := encCore_of_wider_clamp h nanWord hlo hhi x
  simp only [scaleToWord, Nat.cast_pow, Nat.cast_ofNat] at hmem hwide
  exact ⟨hmem, hwide⟩

/-- Settles O13: the round trip's error is the rounding's. -/
theorem roundTripHalfUnit : Obligations.RoundTripHalfUnit := by
  intro nanWord f hf x h1 h2
  have h := fits_of_format hf
  refine ⟨abs_decCore_encCore_sub_le h nanWord h1 h2, ?_⟩
  rw [abs_decCore_encCore_sub h nanWord h1 h2, halfUnit_eq f, div_left_inj' (scale_pos f).ne',
    abs_rha_sub_eq_half_iff]
  simp

/-- Settles O14. -/
theorem encodeOfDecodedWord : Obligations.EncodeOfDecodedWord :=
  fun nanWord _ hf => encCore_decCore (fits_of_format hf) nanWord

/-- Settles O15: clamping, scaling and rounding are monotone, and the infinities give the least and the
greatest word. -/
theorem encodeIsMonotone : Obligations.EncodeIsMonotone := by
  intro nanWord f hf
  have h := fits_of_format hf
  refine ⟨fun x y => encCore_mono h nanWord, fun x _ => ?_⟩
  rw [encCore_posInf h, encCore_negInf h]
  exact ⟨BitVec.le_toInt _, Int.le_sub_one_of_lt BitVec.toInt_lt⟩

/-- Settles O16. -/
theorem encodeIsOdd : Obligations.EncodeIsOdd := by
  intro nanWord f hf x
  have h := fits_of_format hf
  refine ⟨encCore_neg_toInt h nanWord, fun hx => ?_⟩
  have hneg : -x ≤ fmtMin f := by
    rw [fmtMin_eq]
    exact neg_le_neg hx
  rw [encCore_of_fmtMax_le h nanWord ((fmtMax_lt_bound f).le.trans hx),
    encCore_of_le_fmtMin h nanWord hneg]
  decide

/-- Settles O17: an integer is its own rounding. -/
theorem encodeIsExact : Obligations.EncodeIsExact := by
  intro nanWord f hf
  have h := fits_of_format hf
  refine ⟨?_, fun v x hv hx => f32Value_scaled_integer hv hx⟩
  rintro x ⟨z, hz⟩ h1 h2
  have hscaled : x * ((2 ^ f.n : ℕ) : ℚ) = z := by rw [← hz]; push_cast; rfl
  rw [decCore_encCore_inRange h nanWord h1 h2, hscaled, rha_int, ← hscaled,
    mul_div_cancel_right₀ _ (scale_pos f).ne']

/-- Settles O18: the corner words' values are their signed words' over 2^n. -/
theorem decodeCompletes : Obligations.DecodeCompletes := by
  refine ⟨fun _ _ => ⟨rfl, rfl⟩, fun w => ?_, ?_⟩
  · exact ⟨by exact_mod_cast decCore_mul_scale 23 w, by exact_mod_cast decCore_mul_scale 27 w⟩
  · decide +kernel

/-- Settles O19: the swapped word is the unwire of the reversed bytes. -/
theorem wireForm : Obligations.WireForm :=
  fun w => ⟨rfl, unwire_wire w, swapped_swapped w, wire_swapped w⟩

/-- Settles O25: the ideal value is in the 5.27 range, so a computed value beyond it only gets closer. -/
theorem designWordsAreClose : Obligations.DesignWordsAreClose := by
  rintro c kind fs fc k hpos hlt ⟨u, hu, hclose⟩
  obtain ⟨hlow, hhigh⟩ := abs_le.1 (abs_idealValue_le_two kind hpos hlt k)
  have hmin : (fmtMin fmt527 : ℝ) = -16 := by norm_num [fmtMin, fmt527]
  have hmax : (2 : ℝ) ≤ fmtMax fmt527 := by norm_num [fmtMax, fmt527]
  rw [hu]
  calc _ ≤ |(u : ℝ) - idealValue kind fs fc k| + 1 / 2 ^ 28 :=
        abs_encCore_toInt_div_sub_le fmt527_fits c.nanWord u (by linarith) (by linarith)
    _ ≤ _ := by linarith

end Sys2Proof.Machine
end

section
/-! SUPPORT. The family of 41_biquad.md: DESIGN under its precondition and outside it (R160, R165, R169),
and the ranges and symmetries of the ideal values (R161 to R164, R167, R171). -/

namespace Sys2Proof.Machine

/-! ## DESIGN ends with its result (R160, R165, R169) -/

/-- The precondition of R160, with the values it hands on. -/
theorem designInputs_eq_some_iff {p q : Word} {fs fc : ℚ} :
    designInputs p q = some (fs, fc) ↔
      f32Value p = .fin fs ∧ f32Value q = .fin fc ∧ 0 < fc ∧ fc < fs / 2 := by
  unfold designInputs
  split
  next fs' fc' hp hq =>
    simp only [hp, hq, Option.ite_none_right_eq_some, Option.some.injEq, Prod.mk.injEq,
      ExtRat.fin.injEq]
    constructor
    · rintro ⟨hpre, rfl, rfl⟩
      exact ⟨rfl, rfl, hpre⟩
    · rintro ⟨rfl, rfl, hpre⟩
      exact ⟨hpre, rfl, rfl⟩
  next hfinite =>
    refine iff_of_false (by simp) ?_
    rintro ⟨hp, hq, -⟩
    exact hfinite fs fc hp hq

theorem designInputs_eq_none {p q : Word}
    (h : ¬ ∃ fs fc : ℚ, f32Value p = .fin fs ∧ f32Value q = .fin fc ∧ 0 < fc ∧ fc < fs / 2) :
    designInputs p q = none :=
  Option.eq_none_iff_forall_ne_some.2 fun (fs, fc) hsome =>
    h ⟨fs, fc, designInputs_eq_some_iff.1 hsome⟩

theorem designResult_of_inputs (c : Config) (kind : FilterKind) {p q : Word} {fs fc : ℚ}
    (h : designInputs p q = some (fs, fc)) :
    designResult c kind p q = .okWith (.coefficients
      (packCoefficients (coefficientBytes (designWords c (designNumerics c kind fs fc))))) := by
  rw [designResult, h]

theorem designResult_of_no_inputs (c : Config) (kind : FilterKind) {p q : Word}
    (h : designInputs p q = none) : designResult c kind p q = .designPrecondition := by
  rw [designResult, h]

theorem exec_designLp (p q : Word) (s : State) :
    exec (.designLp p q) s = answer s (designResult s.cfg .lowpass p q) := rfl

theorem exec_designHp (p q : Word) (s : State) :
    exec (.designHp p q) s = answer s (designResult s.cfg .highpass p q) := rfl

/-- Settles O20: the packed bytes are the five words put together. -/
theorem designCompletes : Obligations.DesignCompletes := by
  intro s p q fs fc hp hq hpos hlt kind v word data
  have hresult : designResult s.cfg kind p q = ⟨.ok, 0, .coefficients data⟩ := by
    rw [designResult_of_inputs s.cfg kind (designInputs_eq_some_iff.2 ⟨hp, hq, hpos, hlt⟩)]
    exact congrArg (fun d => Result.okWith (.coefficients d))
      (packCoefficients_words (word v.u0) (word v.u1) (word v.u2) (word v.u3) (word v.u4))
  cases kind with
  | lowpass => exact (exec_designLp p q s).trans (congrArg (answer s) hresult)
  | highpass => exact (exec_designHp p q s).trans (congrArg (answer s) hresult)

/-- Settles O21: without inputs there is no design. -/
theorem designPreconditionIsReported : Obligations.DesignPreconditionIsReported := by
  intro s p q h
  have hresult (kind : FilterKind) : designResult s.cfg kind p q = .designPrecondition :=
    designResult_of_no_inputs s.cfg kind (designInputs_eq_none h)
  rw [exec_designLp, exec_designHp, hresult, hresult]
  exact ⟨rfl, rfl⟩

/-! ## The ranges of the ideal values (R167) -/

/-- `b1` is `b0 + b2` up to the kind's sign (R162, R163). -/
theorem idealB1_lowpass (fs fc : ℚ) : idealB1 .lowpass fs fc = 2 * idealB0 .lowpass fs fc := by
  simp only [idealB1, idealB0]; ring

theorem idealB1_highpass (fs fc : ℚ) : idealB1 .highpass fs fc = -(2 * idealB0 .highpass fs fc) := by
  simp only [idealB1, idealB0]; ring

/-- With `Q = 1/sqrt(2)`, `alpha` is at most `sqrt(2)/2` (R161). -/
theorem idealAlpha_le (fs fc : ℚ) : idealAlpha fs fc ≤ Real.sqrt 2 / 2 := by
  have halpha : idealAlpha fs fc = Real.sin (idealW0 fs fc) * (Real.sqrt 2 / 2) := by
    unfold idealAlpha; field_simp
  rw [halpha]
  exact mul_le_of_le_one_left (by positivity) (Real.sin_le_one _)

section Range

variable {fs fc : ℚ} (hpos : 0 < fc) (hlt : fc < fs / 2)

include hpos hlt

theorem one_lt_idealA0 : 1 < idealA0 fs fc :=
  lt_add_of_pos_right 1 (idealAlpha_pos hpos hlt)

theorem idealB0_mem (kind : FilterKind) : 0 < idealB0 kind fs fc ∧ idealB0 kind fs fc < 1 := by
  obtain ⟨hneg, hone⟩ := cos_idealW0_mem hpos hlt
  cases kind <;> simp only [idealB0] <;> constructor <;> linarith

theorem idealB0_div_mem (kind : FilterKind) :
    0 < idealB0 kind fs fc / idealA0 fs fc ∧ idealB0 kind fs fc / idealA0 fs fc < 1 := by
  have ha := one_lt_idealA0 hpos hlt
  obtain ⟨h0, h1⟩ := idealB0_mem hpos hlt kind
  exact ⟨div_pos h0 (by linarith), (div_lt_one (by linarith)).2 (by linarith)⟩

theorem abs_idealA1_div_lt_two : |idealA1 fs fc / idealA0 fs fc| < 2 := by
  have ha := one_lt_idealA0 hpos hlt
  obtain ⟨hneg, hone⟩ := cos_idealW0_mem hpos hlt
  rw [abs_div, abs_of_pos (idealA0_pos hpos hlt), div_lt_iff₀ (idealA0_pos hpos hlt), idealA1, abs_lt]
  constructor <;> linarith

/-- `a2/a0` falls as `alpha` grows, from 1 at 0 to `3 - 2*sqrt(2)` at `sqrt(2)/2`. -/
theorem idealA2_div_mem :
    3 - 2 * Real.sqrt 2 ≤ idealA2 fs fc / idealA0 fs fc ∧ idealA2 fs fc / idealA0 fs fc < 1 := by
  have halpha := idealAlpha_pos hpos hlt
  have ha := idealA0_pos hpos hlt
  have hsq : Real.sqrt 2 * Real.sqrt 2 = 2 := Real.mul_self_sqrt (by norm_num)
  have hsqrt : Real.sqrt 2 ≤ 2 := (Real.sqrt_le_left (by norm_num)).2 (by norm_num)
  constructor
  · rw [le_div_iff₀ ha, idealA2, idealA0]
    have hslope : idealAlpha fs fc * (4 - 2 * Real.sqrt 2) ≤
        Real.sqrt 2 / 2 * (4 - 2 * Real.sqrt 2) :=
      mul_le_mul_of_nonneg_right (idealAlpha_le fs fc) (by linarith)
    linarith
  · rw [div_lt_one ha, idealA2, idealA0]
    linarith

end Range

/-- Settles O22: each value is bounded over the denominator `a0`, which is above 1. -/
theorem idealDesignRange : Obligations.IdealDesignRange := by
  intro kind fs fc hpos hlt v
  obtain ⟨h0, h1⟩ := idealB0_div_mem hpos hlt kind
  obtain ⟨hlow, hhigh⟩ := idealA2_div_mem hpos hlt
  refine ⟨rfl, h0, h1, ?_, ?_, (abs_neg _).trans_lt (abs_idealA1_div_lt_two hpos hlt),
    neg_lt_neg hhigh, neg_le_neg hlow⟩
  · rintro rfl
    have hv : v 1 = 2 * (idealB0 .lowpass fs fc / idealA0 fs fc) := by
      rw [← mul_div_assoc, ← idealB1_lowpass]; rfl
    constructor <;> linarith
  · rintro rfl
    have hv : v 1 = -(2 * (idealB0 .highpass fs fc / idealA0 fs fc)) := by
      rw [← mul_div_assoc, ← neg_div, ← idealB1_highpass]; rfl
    constructor <;> linarith

/-! ## The symmetries of the ideal values (R171) -/

theorem idealW0_scale {r : ℚ} (hr : r ≠ 0) (fs fc : ℚ) :
    idealW0 (r * fs) (r * fc) = idealW0 fs fc := by
  have hr' : (r : ℝ) ≠ 0 := by exact_mod_cast hr
  unfold idealW0
  push_cast
  rw [mul_left_comm, mul_div_mul_left _ _ hr']

/-- A cutoff mirrored in half the Nyquist frequency has the supplementary angle. -/
theorem idealW0_mirror {fs : ℚ} (hfs : fs ≠ 0) (fc : ℚ) :
    idealW0 fs (fs / 2 - fc) = Real.pi - idealW0 fs fc := by
  have hfs' : (fs : ℝ) ≠ 0 := by exact_mod_cast hfs
  unfold idealW0
  push_cast
  field_simp

/-- The sampling and cutoff frequencies enter the ideal values through the angle alone. -/
theorem idealValue_congr (kind : FilterKind) {fs fc fs' fc' : ℚ}
    (h : idealW0 fs fc = idealW0 fs' fc') : idealValue kind fs fc = idealValue kind fs' fc' := by
  funext k
  simp only [idealValue, idealB0, idealB1, idealA0, idealA1, idealA2, idealAlpha, h]

section Mirror

variable {fs : ℚ} (hfs : fs ≠ 0) (fc : ℚ)

include hfs

theorem idealAlpha_mirror : idealAlpha fs (fs / 2 - fc) = idealAlpha fs fc := by
  rw [idealAlpha, idealW0_mirror hfs, Real.sin_pi_sub, ← idealAlpha]

theorem idealA0_mirror : idealA0 fs (fs / 2 - fc) = idealA0 fs fc := by
  rw [idealA0, idealAlpha_mirror hfs, ← idealA0]

theorem idealA1_mirror : idealA1 fs (fs / 2 - fc) = -idealA1 fs fc := by
  rw [idealA1, idealA1, idealW0_mirror hfs, Real.cos_pi_sub]; ring

theorem idealA2_mirror : idealA2 fs (fs / 2 - fc) = idealA2 fs fc := by
  rw [idealA2, idealAlpha_mirror hfs, ← idealA2]

theorem idealB0_mirror : idealB0 .lowpass fs (fs / 2 - fc) = idealB0 .highpass fs fc := by
  simp only [idealB0, idealW0_mirror hfs, Real.cos_pi_sub, sub_neg_eq_add]

theorem idealB1_mirror : idealB1 .lowpass fs (fs / 2 - fc) = -idealB1 .highpass fs fc := by
  rw [idealB1_lowpass, idealB1_highpass, neg_neg, idealB0_mirror hfs]

end Mirror

/-- Settles O24: the mirrored cutoff keeps `sin w0` and negates `cos w0`; a common factor keeps `w0`. -/
theorem idealDesignSymmetries : Obligations.IdealDesignSymmetries := by
  intro fs fc hpos hlt
  have hfs : fs ≠ 0 := by linarith
  refine ⟨fun _ => rfl, ?_, fun kind _ k hr =>
    congrFun (idealValue_congr kind (idealW0_scale hr fs fc)) k⟩
  simp only [idealValue, idealA0_mirror hfs, idealA1_mirror hfs, idealA2_mirror hfs,
    idealB0_mirror hfs, idealB1_mirror hfs, neg_div, neg_neg, and_self]

end Sys2Proof.Machine
end

section
/-! SUPPORT. The family of 42_lookup.md: LOOKUP inside and outside its domain (R182), and the tick that
programs a band from the table (R180, R181, R216). -/

namespace Sys2Proof.Machine

/-! ## LOOKUP (R182) -/

theorem bandGainValid_iff {c : Config} {band g : Byte} :
    bandGainValid c band g = true ↔ band.toNat < c.bandCount ∧
      -(c.eqMaxGainDb : ℤ) ≤ g.toInt ∧ g.toInt ≤ (c.eqMaxGainDb : ℤ) := by
  rw [bandGainValid, Bool.and_eq_true, decide_eq_true_iff, gainInRange_iff]

theorem exec_lookup_of_valid {s : State} {band g : Byte} (h : bandGainValid s.cfg band g = true) :
    exec (.lookup band g) s = answer s (.okWith (.descriptors
      (serialise (lutCell s.cfg band.toNat (rowOf s.cfg g))))) := by
  show answer s _ = _
  rw [if_pos h]

theorem exec_lookup_of_invalid {s : State} {band g : Byte}
    (h : ¬ bandGainValid s.cfg band g = true) :
    exec (.lookup band g) s = answer s .validationError := by
  show answer s _ = _
  rw [if_neg h]

/-- Settles O26: the operand check is the domain, and in the domain a well-formed table has its cell. -/
theorem lookupRule : Obligations.LookupRule := by
  intro s band g hwf
  constructor
  · intro hband hlow hhigh
    obtain ⟨column, cell, hcolumn, hcell, hlut, _⟩ :=
      lutCell_exists hwf hband (gainInRange_iff.2 ⟨hlow, hhigh⟩)
    refine ⟨column, cell, hcolumn, hcell, ?_⟩
    rw [exec_lookup_of_valid (bandGainValid_iff.2 ⟨hband, hlow, hhigh⟩), hlut]
    rfl
  · intro houtside
    have hinvalid : ¬ bandGainValid s.cfg band g = true := by
      rw [bandGainValid_iff]
      omega
    exact exec_lookup_of_invalid hinvalid

/-! ## The tick of one band (R216) -/

/-- A band in the range of the phase has its gain in the register file, in range (R21, R23). -/
theorem State.Inv.gain_of_bandPending {s : State} {i : Nat} (hinv : s.Inv)
    (hphase : s.phase = .bandPending i) :
    i < s.cfg.bandCount ∧ ∃ g, s.gain[i]? = some g ∧ gainInRange s.cfg g = true := by
  have hrange := hinv.phase
  rw [hphase] at hrange
  have hi : i < s.cfg.bandCount := of_decide_eq_true hrange
  have hlen : i < s.gain.length := hinv.gainCount ▸ hi
  exact ⟨hi, _, List.getElem?_eq_getElem hlen, hinv.gainRange _ (List.getElem_mem hlen)⟩

theorem tickTransaction_bandPending {s : State} {i : Nat} {g : Byte}
    (hphase : s.phase = .bandPending i) (hg : s.gain[i]? = some g) :
    tickTransaction s = some (.band i, lutCell s.cfg i (rowOf s.cfg g)) := by
  simp [tickTransaction, hphase, State.gainAt, hg]

/-- A TICK with a transaction to perform takes the bus from the setting's write and drops its result,
unless a call never returns (R211, R218). -/
theorem exec_tick_of_settingWrite {s : State} {target : Target} {ds : List Descriptor} {r : Result}
    {b : Bus} (hf : s.failed = false) (ht : tickTransaction s = some (target, ds))
    (hrun : settingWrite s.cfg (.refreshWriteFailed target) ds s.bus = (r, b))
    (hstuck : b.stuck = false) :
    exec .tick s =
      .next { s with phase := tickPhase s.cfg s.phase, resp := some .ok, bus := b } := by
  show gated s _ = _
  simp only [gated_running hf, ht, hrun]
  exact conclude_running hstuck

/-- Settles O37: the phase's range gives the band its gain, and the gain's range gives it a cell. -/
theorem tickProgramsBand : Obligations.TickProgramsBand := by
  intro s i hinv hf hphase
  obtain ⟨hi, g, hg, hrange⟩ := hinv.gain_of_bandPending hphase
  obtain ⟨column, cell, hcolumn, hcell, hlut, hcellwf⟩ := lutCell_exists hinv.config hi hrange
  obtain ⟨_, hwf⟩ := cellWellFormed_all hcellwf
  have ht := tickTransaction_bandPending hphase hg
  rw [hlut] at ht
  refine ⟨g, column, cell, hg, hcolumn, hcell, fun hok => ?_⟩
  have ⟨hrunning, _⟩ := hok
  rw [exec_tick_of_settingWrite hf ht (settingWrite_success _ hwf hok) hrunning, hphase]
  rfl

end Sys2Proof.Machine
end

section
/-! SUPPORT. The family of 43_sequencer.md: APPLY refused before any I/O, successful and failing (R191 to
R195), and the transactions that a TICK and the two immediate setters hand to the sequencer (R218 to
R220). -/

namespace Sys2Proof.Machine

/-! ## APPLY (R191 to R195) -/

/-- APPLY of a running device, its count right, ends with what the transaction of `DBUF` answers, unless a
call never returns. -/
theorem exec_apply_of_transaction {s : State} {count : Byte} {r : Result} {b : Bus}
    (hf : s.failed = false) (hlen : s.dbuf.length = count.toNat)
    (hrun : transaction s.cfg s.dbuf s.bus = (r, b)) (hstuck : b.stuck = false) :
    exec (.apply count) s = .next ({ s with bus := b }.deliver r) := by
  show gated s _ = _
  rw [gated_running hf, if_pos hlen, hrun]
  exact conclude_running hstuck

theorem exec_apply_of_wrong_count {s : State} {count : Byte} (hf : s.failed = false)
    (hlen : s.dbuf.length ≠ count.toNat) :
    exec (.apply count) s = .next (s.deliver .validationError) := by
  show gated s _ = _
  rw [gated_running hf, if_neg hlen]
  rfl

/-- APPLY of a valid list whose transaction fails, in any of the three ways: the code of the first
failure (R192, R193). -/
theorem exec_apply_of_failedTransaction {s : State} {count : Byte} {code : BusCode} {b : Bus}
    (hf : s.failed = false) (hlen : s.dbuf.length = count.toNat)
    (hwf : s.dbuf.all (Descriptor.wellFormed s.cfg) = true)
    (h : FailedTransaction s.cfg s.dbuf s.bus code b) :
    exec (.apply count) s = .next ({ s with bus := b }.deliver (.transportError code.toByte)) :=
  exec_apply_of_transaction hf hlen (h.transaction_eq hwf) h.running

/-- Each way a descriptor can be ill-formed fails its check (R96, R194). -/
theorem Descriptor.not_wellFormed {c : Config} {d : Descriptor}
    (h : d.len.toNat = 0 ∨ d.payload.length ≠ d.len.toNat ∨
      c.pageLastOffset.toNat < d.offset.toNat + d.len.toNat - 1 ∨
      ∃ j < d.len.toNat, d.offset.toNat + j = c.regPageSelect.toNat ∨
        d.offset.toNat + j = c.regBookSelect.toNat) :
    ¬ Descriptor.wellFormed c d = true := by
  rw [Descriptor.wellFormed_iff]
  rintro ⟨hpos, hpayload, hlast, hselect⟩
  rcases h with hzero | hlen | hpast | ⟨j, hj, hpage | hbook⟩
  · omega
  · exact hlen hpayload
  · omega
  · exact (hselect j hj).1 hpage
  · exact (hselect j hj).2 hbook

/-- Settles O28: the count and every descriptor are tested before the first call. -/
theorem applyValidates : Obligations.ApplyValidates := by
  intro s count hf hstuck hbad
  by_cases hlen : s.dbuf.length = count.toNat
  · obtain ⟨d, hd, hshape⟩ := hbad.resolve_left (not_not_intro hlen)
    have hinvalid : s.dbuf.all (Descriptor.wellFormed s.cfg) = false :=
      List.all_eq_false.2 ⟨d, hd, Descriptor.not_wellFormed hshape⟩
    exact exec_apply_of_transaction hf hlen (transaction_invalid s.bus hinvalid) hstuck
  · exact exec_apply_of_wrong_count hf hlen

/-- The bus after a successful transaction of a non-empty list: the run's entries, then the three of the
restore (R193, R195). -/
theorem Bus.afterWrites_transaction_hist (c : Config) (b : Bus) {ds : List Descriptor} (hne : ds ≠ []) :
    (b.afterWrites c (transactionWrites c ds)).hist =
      b.hist ++ okEntries (runWrites c none ds) ++ okEntries (restoreWrites c) := by
  simp [transactionWrites, hne, okEntries]

/-- A transaction whose writes all land ends in the control context, whatever the device held before
(R193). -/
theorem Device.afterWrites_transaction_context {c : Config} (hc : c.regPageSelect ≠ c.regBookSelect)
    (v : Device) {ds : List Descriptor} (hne : ds ≠ []) :
    (Device.afterWrites c v (transactionWrites c ds)).book = c.ctrlBook ∧
      (Device.afterWrites c v (transactionWrites c ds)).page = zeroPage := by
  have hsplit : transactionWrites c ds = runWrites c none ds ++ restoreWrites c := by
    simp [transactionWrites, hne]
  rw [hsplit, Device.afterWrites_append, restoreWrites, Device.afterWrites_preamble hc]
  exact ⟨rfl, rfl⟩

/-- Settles O29: a transaction is its run of writes followed by the restore, and all of it lands. -/
theorem applyTrace : Obligations.ApplyTrace := by
  intro s count hf hstuck hlen hwf
  refine ⟨fun hempty => ?empty, fun hne hok => ?nonempty⟩
  case empty =>
    have hrun : transaction s.cfg s.dbuf s.bus = (.ok, s.bus) := by rw [hempty, transaction_nil]
    exact exec_apply_of_transaction hf hlen hrun hstuck
  case nonempty =>
    have hcalls : s.bus.NextSucceed (transactionWrites s.cfg s.dbuf).length :=
      transactionWrites_length hne ▸ hok
    exact ⟨_, exec_apply_success hf hlen hwf hcalls, rfl, runWrites_length s.cfg s.dbuf none,
      Bus.afterWrites_transaction_hist s.cfg s.bus hne,
      fun hc => Device.afterWrites_transaction_context hc s.bus.dev hne⟩

/-- Settles O30, by the three ways a transaction can fail. -/
theorem applyAbortsAndRestores : Obligations.ApplyAbortsAndRestores := by
  intro s count hf hlen hwf hne ws rs
  refine ⟨fun k w code landed hk hfail =>
    ⟨fun hrestored => ?write, fun j r code' landed' hj hfail' => ?writeAndRestore⟩,
    fun j r code landed hj hfail => ?restore⟩
  case write =>
    exact exec_apply_of_failedTransaction hf hlen hwf (.write k w code landed hk hfail hrestored)
  case writeAndRestore =>
    exact exec_apply_of_failedTransaction hf hlen hwf
      (.writeAndRestore k w code landed hk hfail j r code' landed' hj hfail')
  case restore =>
    exact exec_apply_of_failedTransaction hf hlen hwf (.restore hne j r code landed hj hfail)

/-! ## A refresh transaction that fails (R211, R218) -/

theorem tickTransaction_mixerPending {s : State} (hphase : s.phase = .mixerPending) :
    tickTransaction s = some (.mixer, mixerDescriptors s.cfg s.mixerMode.toNat) := by
  rw [tickTransaction, hphase]

/-- A TICK absorbs the failure of its transaction: it answers `OK` and advances, and the log has one
record more (R218). -/
theorem exec_tick_of_failedTransaction {s : State} {target : Target} {ds : List Descriptor}
    {code : BusCode} {b : Bus} (hf : s.failed = false) (ht : tickTransaction s = some (target, ds))
    (hwf : ds.all (Descriptor.wellFormed s.cfg) = true)
    (h : FailedTransaction s.cfg ds s.bus code b) :
    exec .tick s = .next { s with
      phase := tickPhase s.cfg s.phase, resp := some .ok,
      bus := b.warn (.refreshWriteFailed target (.transportError code.toByte)) } :=
  exec_tick_of_settingWrite hf ht (h.settingWrite_eq _ hwf) h.running

/-- Settles O38: the invariant makes the mixer's and every band's descriptors well-formed, so the
transaction fails in the transport and not in the check. -/
theorem tickAbsorbsFailure : Obligations.TickAbsorbsFailure := by
  intro s target ds hinv hf hsetting code b hfail
  rcases hsetting with ⟨hphase, rfl, rfl⟩ | ⟨i, g, hphase, rfl, hg, rfl⟩
  · obtain ⟨_, _, _, hwf⟩ := mixerDescriptors_exists hinv.config hinv.mode
    exact exec_tick_of_failedTransaction hf (tickTransaction_mixerPending hphase) hwf hfail
  · obtain ⟨hi, _⟩ := hinv.gain_of_bandPending hphase
    have hrange := hinv.gainRange g (List.mem_of_getElem? hg)
    obtain ⟨_, _, _, _, hlut, hcellwf⟩ := lutCell_exists hinv.config hi hrange
    obtain ⟨_, hwf⟩ := cellWellFormed_all hcellwf
    rw [← hlut] at hwf
    exact exec_tick_of_failedTransaction hf (tickTransaction_bandPending hphase hg) hwf hfail

/-! ## The immediate setters (R219, R220) -/

/-- In `Complete` a setter that has stored its value ends with what the setting's write answers, unless a
call never returns. -/
theorem settleNow_of_settingWrite {before s : State} {target : Target} {ds : List Descriptor}
    {r : Result} {b : Bus} (hphase : s.phase = .complete)
    (hrun : settingWrite s.cfg (.immediateWriteFailed target) ds s.bus = (r, b))
    (hstuck : b.stuck = false) :
    settleNow before s target ds = .next ({ s with bus := b }.deliver r) := by
  rw [settleNow, if_pos hphase, hrun]
  exact conclude_running hstuck

/-- The end of an immediate setter whose calls all succeed. -/
theorem settleNow_success {before s : State} (target : Target) {ds : List Descriptor}
    (hphase : s.phase = .complete) (hwf : ds.all (Descriptor.wellFormed s.cfg) = true)
    (hok : s.bus.NextSucceed (transactionWrites s.cfg ds).length) :
    settleNow before s target ds = .next ({ s with
      bus := s.bus.afterWrites s.cfg (transactionWrites s.cfg ds) }.deliver .ok) :=
  have ⟨hrunning, _⟩ := hok
  settleNow_of_settingWrite hphase (settingWrite_success _ hwf hok) hrunning

/-- The end of an immediate setter whose transaction fails: the stored value stays, and one record follows
the sequencer's entries. -/
theorem settleNow_of_failedTransaction {before s : State} (target : Target) {ds : List Descriptor}
    {code : BusCode} {b : Bus} (hphase : s.phase = .complete)
    (hwf : ds.all (Descriptor.wellFormed s.cfg) = true)
    (h : FailedTransaction s.cfg ds s.bus code b) :
    settleNow before s target ds = .next ({ s with
      bus := b.warn (.immediateWriteFailed target (.transportError code.toByte)) }.deliver
        (.transportError code.toByte)) :=
  settleNow_of_settingWrite hphase (h.settingWrite_eq _ hwf) h.running

theorem exec_setGain_of_valid {s : State} {band g : Byte} (hf : s.failed = false)
    (hvalid : bandGainValid s.cfg band g = true) :
    exec (.setGain band g) s =
      settleNow s { s with gain := s.gain.set band.toNat g } (.band band.toNat)
        (lutCell s.cfg band.toNat (rowOf s.cfg g)) := by
  show gated s _ = _
  rw [gated_running hf, if_pos hvalid]

theorem exec_setMixerMode_of_valid {s : State} {mode : Byte} (hf : s.failed = false)
    (hmode : mode.toNat < s.cfg.mixerModeCount) :
    exec (.setMixerMode mode) s =
      settleNow s { s with mixerMode := mode } .mixer (mixerDescriptors s.cfg mode.toNat) := by
  show gated s _ = _
  rw [gated_running hf, if_pos hmode]

/-- Settles O43: a validated gain has its well-formed cell, whose transaction succeeds or fails after the
gain is stored. -/
theorem setGainImmediate : Obligations.SetGainImmediate := by
  intro s band g hinv hf hphase hband hlow hhigh
  obtain ⟨column, cell, hcolumn, hcell, hlut, hcellwf⟩ :=
    lutCell_exists hinv.config hband (gainInRange_iff.2 ⟨hlow, hhigh⟩)
  obtain ⟨_, hwf⟩ := cellWellFormed_all hcellwf
  rw [exec_setGain_of_valid hf (bandGainValid_iff.2 ⟨hband, hlow, hhigh⟩), hlut]
  exact ⟨column, cell, hcolumn, hcell, fun hok => settleNow_success _ hphase hwf hok,
    fun code b hfail => settleNow_of_failedTransaction _ hphase hwf hfail⟩

/-- Settles O44: a validated mode has its four well-formed descriptors, whose ten writes succeed or fail
after the mode is stored. -/
theorem setMixerModeImmediate : Obligations.SetMixerModeImmediate := by
  intro s mode hinv hf hphase hmode ds
  obtain ⟨q, hq, hds, hwf⟩ := mixerDescriptors_exists hinv.config hmode
  have hten : (transactionWrites s.cfg ds).length = 10 :=
    congrArg List.length (transactionWrites_mixer hq)
  rw [exec_setMixerMode_of_valid hf hmode]
  exact ⟨congrArg List.length hds, fun hok => settleNow_success _ hphase hwf (hten ▸ hok),
    fun code b hfail => settleNow_of_failedTransaction _ hphase hwf hfail⟩

end Sys2Proof.Machine
end

section
/-! SUPPORT. The family of 44_refresh.md: TRIGGER and TICK as one rule each (R210 to R218), the setters
outside their domain and before `Complete` (R219, R220), the phase after any number of ticks (R222), and
the state after a refresh whose calls all succeed (R225, R226). -/

namespace Sys2Proof.Machine

/-! ## TRIGGER (R210) -/

theorem triggerPhase_eq (p : Phase) :
    triggerPhase p = if p = .idle ∨ p = .complete then .triggered else p := by
  cases p with
  | idle | complete | triggered | mixerPending => rfl
  | settling k => simp [triggerPhase]
  | bandPending i => simp [triggerPhase]

theorem exec_trigger {s : State} (hf : s.failed = false) :
    exec .trigger s = .next { s with phase := triggerPhase s.phase, resp := some .ok } :=
  gated_running hf

/-- Settles O33, by the gate of the failed latch and the one rule of the phase. -/
theorem triggerRule : Obligations.TriggerRule := by
  intro s
  refine ⟨fun hf => ?_, gated_failed⟩
  rw [exec_trigger hf, triggerPhase_eq]
  rfl

/-! ## The setters outside their domain and before `Complete` (R219, R220, R224, R271) -/

theorem exec_setGain_of_invalid {s : State} {band g : Byte} (hf : s.failed = false)
    (hinvalid : ¬ bandGainValid s.cfg band g = true) :
    exec (.setGain band g) s = .next (s.deliver .validationError) := by
  show gated s _ = _
  rw [gated_running hf, if_neg hinvalid]
  rfl

theorem exec_setMixerMode_of_invalid {s : State} {mode : Byte} (hf : s.failed = false)
    (hmode : ¬ mode.toNat < s.cfg.mixerModeCount) :
    exec (.setMixerMode mode) s = .next (s.deliver .validationError) := by
  show gated s _ = _
  rw [gated_running hf, if_neg hmode]
  rfl

/-- Before `Complete` a setter that has stored its value makes no transport call: the refresh writes it
(R224). -/
theorem settleNow_deferred {before s : State} (target : Target) (ds : List Descriptor)
    (hphase : s.phase ≠ .complete) : settleNow before s target ds = .next (s.deliver .ok) :=
  if_neg hphase

/-- Settles O42, by the operand check of each setter and the phase it then tests. -/
theorem settersRejectOrDefer : Obligations.SettersRejectOrDefer := by
  refine ⟨fun s band g hf =>
      ⟨fun houtside => ?gainRejected, fun hband hlow hhigh hphase => ?gainDeferred⟩,
    fun s mode hf => ⟨fun houtside => ?modeRejected, fun hmode hphase => ?modeDeferred⟩⟩
  case gainRejected =>
    have hinvalid : ¬ bandGainValid s.cfg band g = true := by
      rw [bandGainValid_iff]
      omega
    exact exec_setGain_of_invalid hf hinvalid
  case gainDeferred =>
    rw [exec_setGain_of_valid hf (bandGainValid_iff.2 ⟨hband, hlow, hhigh⟩)]
    exact settleNow_deferred _ _ hphase
  case modeRejected =>
    exact exec_setMixerMode_of_invalid hf houtside.not_gt
  case modeDeferred =>
    rw [exec_setMixerMode_of_valid hf hmode]
    exact settleNow_deferred _ _ hphase

/-! ## One TICK (R211 to R218) -/

/-- Where every call returns, a TICK advances the phase, whatever became of its transaction, and every
call after it returns too (R211, R218, R322). -/
theorem exec_tick_of_returns {s : State} (hf : s.failed = false) (hret : s.TransportReturns) :
    ∃ b, b.returns = true ∧
      exec .tick s = .next { s with phase := tickPhase s.cfg s.phase, resp := some .ok, bus := b } := by
  rcases ht : tickTransaction s with _ | ⟨target, ds⟩
  · exact ⟨s.bus, hret, exec_tick_of_no_transaction hf ht⟩
  · have hb := (returns_invariant s.cfg).settingWrite (.refreshWriteFailed target) ds s.bus hret
    exact ⟨_, hb, exec_tick_of_settingWrite hf ht rfl (Bus.returns_stuck hb)⟩

/-- Settles O34: the next phase is `tickPhase` of the phase, whose equations are the table. -/
theorem tickPhaseTable : Obligations.TickPhaseTable := by
  intro s hf hret
  obtain ⟨b, _, he⟩ := exec_tick_of_returns hf hret
  have row {p : Phase} (hp : s.phase = p) : tickPhase s.cfg s.phase = tickPhase s.cfg p :=
    congrArg (tickPhase s.cfg) hp
  exact ⟨_, he, rfl, row, row, fun _ => row, row, fun _ => row, row⟩

/-- The invariant gives a TICK only non-empty lists of well-formed descriptors: its transaction calls the
transport, and cannot fail in the check of R194. -/
theorem State.Inv.tickTransaction_wellFormed {s : State} (hinv : s.Inv) {target : Target}
    {ds : List Descriptor} (ht : tickTransaction s = some (target, ds)) :
    ds ≠ [] ∧ ds.all (Descriptor.wellFormed s.cfg) = true := by
  cases hphase : s.phase with
  | idle | triggered | settling _ | complete => simp [tickTransaction, hphase] at ht
  | mixerPending =>
    obtain ⟨q, _, hds, hwf⟩ := mixerDescriptors_exists hinv.config hinv.mode
    rw [tickTransaction_mixerPending hphase] at ht
    cases ht
    exact ⟨by simp [hds], hwf⟩
  | bandPending i =>
    obtain ⟨hi, g, hg, hrange⟩ := hinv.gain_of_bandPending hphase
    obtain ⟨_, _, _, _, hlut, hcellwf⟩ := lutCell_exists hinv.config hi hrange
    rw [tickTransaction_bandPending hphase hg, hlut] at ht
    cases ht
    exact cellWellFormed_all hcellwf

/-- The writes of a TICK whose calls all succeed. -/
def tickWrites (s : State) : List (Byte × List Byte) :=
  match tickTransaction s with
  | none => []
  | some (_, ds) => transactionWrites s.cfg ds

theorem tickWrites_of_no_transaction {s : State} (ht : tickTransaction s = none) :
    tickWrites s = [] := by
  rw [tickWrites, ht]

theorem tickWrites_of_transaction {s : State} {target : Target} {ds : List Descriptor}
    (ht : tickTransaction s = some (target, ds)) : tickWrites s = transactionWrites s.cfg ds := by
  rw [tickWrites, ht]

/-- A TICK whose calls all succeed: the next phase, and the writes of its transaction. -/
theorem exec_tick_of_succeed {s : State} (hinv : s.Inv) (hf : s.failed = false)
    (hok : s.bus.NextSucceed (tickWrites s).length) :
    exec .tick s = .next { s with
      phase := tickPhase s.cfg s.phase, resp := some .ok,
      bus := s.bus.afterWrites s.cfg (tickWrites s) } := by
  rcases ht : tickTransaction s with _ | ⟨target, ds⟩
  · rw [exec_tick_of_no_transaction hf ht, tickWrites_of_no_transaction ht, Bus.afterWrites_nil]
  · obtain ⟨_, hwf⟩ := hinv.tickTransaction_wellFormed ht
    rw [tickWrites_of_transaction ht] at hok ⊢
    exact exec_tick_of_settingWrite hf ht (settingWrite_success _ hwf hok) hinv.running

/-- Settles O36: the tick's writes are the mixer's transaction, which has ten. -/
theorem tickProgramsMixer : Obligations.TickProgramsMixer := by
  intro s q hinv hf hphase hq hok cell
  have hwrites := (tickWrites_of_transaction (tickTransaction_mixerPending hphase)).trans
    (transactionWrites_mixer hq)
  have hten : (tickWrites s).length = 10 := congrArg List.length hwrites
  rw [exec_tick_of_succeed hinv hf (hten ▸ hok), hwrites, hphase]
  rfl

/-! ## The phase after k ticks (R222) -/

theorem State.Inv.one_le_settleThreshold {s : State} (hinv : s.Inv) : 1 ≤ s.cfg.settleThreshold :=
  have ⟨_, _, _, _, hN, _⟩ := Config.wf_parts hinv.config
  hN

section RefreshPhase

variable {c : Config} {k : Nat}

theorem refreshPhase_zero : refreshPhase c 0 = .triggered := rfl

theorem refreshPhase_settling (hpos : 0 < k) (hk : k < c.settleThreshold) :
    refreshPhase c k = .settling k := by
  rw [refreshPhase, if_neg hpos.ne', if_pos hk]

theorem refreshPhase_mixerPending (hN : 1 ≤ c.settleThreshold) :
    refreshPhase c c.settleThreshold = .mixerPending := by
  rw [refreshPhase, if_neg (by omega), if_neg (lt_irrefl _), if_pos rfl]

theorem refreshPhase_bandPending {i : Nat} (hi : i < c.bandCount) :
    refreshPhase c (c.settleThreshold + 1 + i) = .bandPending i := by
  rw [refreshPhase, if_neg (by omega), if_neg (by omega), if_neg (by omega), if_pos (by omega)]
  congr 1
  omega

theorem refreshPhase_eq_complete_iff :
    refreshPhase c k = .complete ↔ c.settleThreshold + c.bandCount < k := by
  unfold refreshPhase
  split_ifs <;> simp <;> omega

theorem refreshPhase_ne_idle : refreshPhase c k ≠ .idle := by
  unfold refreshPhase
  split_ifs <;> simp

/-- Until the refresh is complete a further TRIGGER changes no phase of it (R210). -/
theorem triggerPhase_refreshPhase (hk : k ≤ c.settleThreshold + c.bandCount) :
    triggerPhase (refreshPhase c k) = refreshPhase c k := by
  have hcomplete : refreshPhase c k ≠ .complete := by
    rw [Ne, refreshPhase_eq_complete_iff]
    omega
  rw [triggerPhase_eq, if_neg (not_or_intro (refreshPhase_ne_idle) hcomplete)]

/-- One TICK takes the phase of the law for k to the one for k + 1. -/
theorem tickPhase_refreshPhase (hN : 1 ≤ c.settleThreshold) (k : Nat) :
    tickPhase c (refreshPhase c k) = refreshPhase c (k + 1) := by
  have hsettled {j : Nat} (hj : j = c.settleThreshold) : refreshPhase c j = .mixerPending :=
    hj ▸ refreshPhase_mixerPending hN
  obtain hk | hk | hk : k < c.settleThreshold ∨ k = c.settleThreshold ∨ c.settleThreshold < k := by
    omega
  · obtain rfl | hpos := k.eq_zero_or_pos
    · rw [refreshPhase_zero, tickPhase]
      split_ifs with h
      · exact (hsettled (by omega)).symm
      · exact (refreshPhase_settling one_pos (by omega)).symm
    · rw [refreshPhase_settling hpos hk, tickPhase]
      split_ifs with h
      · exact (hsettled (by omega)).symm
      · exact (refreshPhase_settling k.succ_pos (by omega)).symm
  · rw [hsettled hk, hk, tickPhase]
    split_ifs with h
    · exact (refreshPhase_eq_complete_iff.2 (by omega)).symm
    · exact (refreshPhase_bandPending (by omega)).symm
  · obtain ⟨i, rfl⟩ := Nat.exists_eq_add_of_le (Nat.succ_le_of_lt hk)
    by_cases hi : i < c.bandCount
    · rw [refreshPhase_bandPending hi, tickPhase]
      split_ifs with h
      · exact (refreshPhase_eq_complete_iff.2 (by omega)).symm
      · exact (refreshPhase_bandPending (by omega)).symm
    · rw [refreshPhase_eq_complete_iff.2 (by omega), refreshPhase_eq_complete_iff.2 (by omega)]
      rfl

end RefreshPhase

/-! ## Runs of commands -/

theorem execAll_cons {i : Instr} {s t : State} (he : exec i s = .next t) (rest : List Instr) :
    execAll (i :: rest) s = execAll rest t := by
  rw [execAll, he]

theorem execAll_append {xs : List Instr} {s t : State} (he : execAll xs s = .next t)
    (ys : List Instr) : execAll (xs ++ ys) s = execAll ys t := by
  induction xs generalizing s with
  | nil => cases he; rfl
  | cons i rest ih =>
    rw [execAll] at he
    split at he
    · next u hu => rw [List.cons_append, execAll_cons hu, ih he]
    · cases he
    · cases he

/-- The state after k ticks from the trigger, as far as the tick count needs it: no failure latched,
every call returning, the phase of the law. -/
structure AfterTicks (c : Config) (k : Nat) (s : State) : Prop where
  config  : s.cfg = c
  running : s.failed = false
  returns : s.TransportReturns
  phase   : s.phase = refreshPhase c k

section AfterTicks

variable {c : Config} {k : Nat} {s : State}

theorem AfterTicks.tick (h : AfterTicks c k s) (hN : 1 ≤ c.settleThreshold) :
    ∃ t, exec .tick s = .next t ∧ AfterTicks c (k + 1) t := by
  obtain ⟨rfl, hf, hret, hphase⟩ := h
  obtain ⟨b, hb, he⟩ := exec_tick_of_returns hf hret
  exact ⟨_, he, rfl, hf, hb, by rw [← tickPhase_refreshPhase hN, ← hphase]⟩

theorem AfterTicks.trigger (h : AfterTicks c k s) (hk : k ≤ c.settleThreshold + c.bandCount) :
    ∃ t, exec .trigger s = .next t ∧ AfterTicks c k t := by
  obtain ⟨rfl, hf, hret, hphase⟩ := h
  exact ⟨_, exec_trigger hf, rfl, hf, hret, by rw [hphase, triggerPhase_refreshPhase hk]⟩

/-- A run of TICKs and TRIGGERs counts its ticks, if no TRIGGER stands beyond the end of the refresh. -/
theorem AfterTicks.run {cmds : List Instr} (h : AfterTicks c k s) (hN : 1 ≤ c.settleThreshold)
    (hcmds : ∀ i ∈ cmds, i = .tick ∨ i = .trigger)
    (hbound : .trigger ∈ cmds → k + cmds.count .tick ≤ c.settleThreshold + c.bandCount) :
    ∃ t, execAll cmds s = .next t ∧ AfterTicks c (k + cmds.count .tick) t := by
  induction cmds generalizing k s with
  | nil => exact ⟨s, rfl, h⟩
  | cons i rest ih =>
    obtain ⟨hi, hrest⟩ := List.forall_mem_cons.1 hcmds
    rcases hi with rfl | rfl
    · obtain ⟨u, hu, hafter⟩ := h.tick hN
      have hcount : k + (Instr.tick :: rest).count .tick = k + 1 + rest.count .tick := by
        rw [List.count_cons_self]
        omega
      rw [hcount] at hbound ⊢
      rw [execAll_cons hu]
      exact ih hafter hrest fun hmem => hbound (.tail _ hmem)
    · have hcount : (Instr.trigger :: rest).count .tick = rest.count .tick :=
        List.count_cons_of_ne (by decide)
      rw [hcount] at hbound ⊢
      have hk := hbound (.head _)
      obtain ⟨u, hu, hafter⟩ := h.trigger (by omega)
      rw [execAll_cons hu]
      exact ih hafter hrest fun _ => hk

end AfterTicks

/-- Settles O39, by the run of the ticks counted from the first TRIGGER. -/
theorem tickCountToComplete : Obligations.TickCountToComplete := by
  intro s hinv hf hret hphase
  have hN := hinv.one_le_settleThreshold
  have htrigger := exec_trigger hf
  have hstart : AfterTicks s.cfg 0
      { s with phase := triggerPhase s.phase, resp := some .ok } :=
    ⟨rfl, hf, hret, congrArg triggerPhase hphase⟩
  refine ⟨fun cmds hcmds hcount => ?law, fun cmds hcmds hcount => ?last, fun k hk => ?beyond⟩
  case law =>
    obtain ⟨t, ht, hafter⟩ := hstart.run hN hcmds fun _ => by omega
    rw [Nat.zero_add] at hafter
    refine ⟨t, (execAll_cons htrigger _).trans ht, hafter.phase, fun hcomplete => ?_⟩
    have := refreshPhase_eq_complete_iff.1 (hafter.phase.symm.trans hcomplete)
    omega
  case last =>
    obtain ⟨t, ht, hafter⟩ := hstart.run hN hcmds fun _ => by omega
    obtain ⟨u, hu, hlast⟩ := hafter.tick hN
    have hrun := execAll_append ((execAll_cons htrigger _).trans ht) [.tick]
    exact ⟨u, hrun.trans (execAll_cons hu []),
      hlast.phase.trans (refreshPhase_eq_complete_iff.2 (by omega))⟩
  case beyond =>
    have hcount : (List.replicate k Instr.tick).count .tick = k := List.count_replicate_self
    obtain ⟨t, ht, hafter⟩ := hstart.run (cmds := List.replicate k .tick) hN
      (fun i hi => .inl (List.eq_of_mem_replicate hi))
      (fun hmem => nomatch List.eq_of_mem_replicate hmem)
    exact ⟨t, (execAll_cons htrigger _).trans ht,
      hafter.phase.trans (refreshPhase_eq_complete_iff.2 (by omega))⟩

/-! ## A refresh whose calls all succeed (R225, R226) -/

/-- k commands of one kind are a list of k copies of it. -/
theorem execAll_replicate (i : Instr) (n : Nat) (s : State) :
    execAll (List.replicate n i) s = execTimes i n s := by
  induction n generalizing s with
  | zero => rfl
  | succ n ih => simp only [List.replicate_succ, execAll, execTimes, ih]

theorem execTimes_succ {i : Instr} {n : Nat} {s t u : State} (hrun : execTimes i n s = .next t)
    (he : exec i t = .next u) : execTimes i (n + 1) s = .next u := by
  rw [← execAll_replicate] at hrun ⊢
  rw [List.replicate_succ', execAll_append hrun]
  exact execAll_cons he []

/-- The writes of the first n ticks after the trigger, with the settings the state holds. -/
def refreshWrites (s : State) (n : Nat) : List (Byte × List Byte) :=
  (List.range n).flatMap fun k => tickWrites { s with phase := refreshPhase s.cfg k }

/-- The state n ticks after the trigger, every call having succeeded. -/
def State.refreshed (s : State) (n : Nat) : State :=
  { s with
    phase := refreshPhase s.cfg n
    bus := s.bus.afterWrites s.cfg (refreshWrites s n)
    resp := if n = 0 then s.resp else some .ok }

theorem State.refreshed_zero {s : State} (hphase : s.phase = .triggered) : s.refreshed 0 = s := by
  simp [State.refreshed, refreshWrites, refreshPhase_zero, ← hphase]

theorem refreshWrites_succ (s : State) (n : Nat) :
    refreshWrites s (n + 1) = refreshWrites s n ++ tickWrites (s.refreshed n) := by
  rw [refreshWrites, List.range_succ, List.flatMap_append, List.flatMap_singleton]
  rfl

/-- n ticks from `Triggered`, every call succeeding, keep the invariant and end in `refreshed n`. -/
theorem execTimes_tick_refreshed {s : State} (hinv : s.Inv) (hf : s.failed = false)
    (hphase : s.phase = .triggered) {n : Nat} (hok : s.bus.NextSucceed (refreshWrites s n).length) :
    execTimes .tick n s = .next (s.refreshed n) ∧ (s.refreshed n).Inv := by
  have hN := hinv.one_le_settleThreshold
  induction n with
  | zero =>
    rw [State.refreshed_zero hphase]
    exact ⟨rfl, hinv⟩
  | succ n ih =>
    rw [refreshWrites_succ, List.length_append] at hok
    obtain ⟨hrun, hinv'⟩ := ih (hok.mono (Nat.le_add_right _ _))
    have htick : exec .tick (s.refreshed n) = .next (s.refreshed (n + 1)) := by
      rw [exec_tick_of_succeed hinv' hf (hok.drop rfl)]
      simp only [State.refreshed, tickPhase_refreshPhase hN, Bus.afterWrites_append,
        refreshWrites_succ, n.succ_ne_zero, if_false]
    exact ⟨execTimes_succ hrun htick, exec_inv hinv' htick⟩

/-- A TICK before the settle threshold writes nothing (R213, R214). -/
theorem tickWrites_settling (s : State) {k : Nat} (hk : k < s.cfg.settleThreshold) :
    tickWrites { s with phase := refreshPhase s.cfg k } = [] := by
  apply tickWrites_of_no_transaction
  obtain rfl | hpos := k.eq_zero_or_pos
  · rfl
  · rw [refreshPhase_settling hpos hk]
    rfl

theorem refreshWrites_settling (s : State) {n : Nat} (hn : n ≤ s.cfg.settleThreshold) :
    refreshWrites s n = [] :=
  List.flatMap_eq_nil_iff.2 fun _ hk =>
    tickWrites_settling s ((List.mem_range.1 hk).trans_le hn)

/-- The writes of a whole refresh: the mixer's transaction, then each band's (R215, R216). -/
theorem refreshWrites_whole (s : State) (hN : 1 ≤ s.cfg.settleThreshold) :
    refreshWrites s (s.cfg.settleThreshold + 1 + s.cfg.bandCount) =
      transactionWrites s.cfg (mixerDescriptors s.cfg s.mixerMode.toNat) ++
        (List.range s.cfg.bandCount).flatMap fun i =>
          transactionWrites s.cfg (lutCell s.cfg i (rowOf s.cfg (s.gainAt i))) := by
  have hmixer : tickWrites (s.refreshed s.cfg.settleThreshold) =
      transactionWrites s.cfg (mixerDescriptors s.cfg s.mixerMode.toNat) :=
    tickWrites_of_transaction (tickTransaction_mixerPending (refreshPhase_mixerPending hN))
  have hband : ∀ i ∈ List.range s.cfg.bandCount,
      tickWrites { s with phase := refreshPhase s.cfg (s.cfg.settleThreshold + 1 + i) } =
        transactionWrites s.cfg (lutCell s.cfg i (rowOf s.cfg (s.gainAt i))) := by
    intro i hi
    rw [refreshPhase_bandPending (List.mem_range.1 hi)]
    rfl
  have hsplit : refreshWrites s (s.cfg.settleThreshold + 1 + s.cfg.bandCount) =
      refreshWrites s (s.cfg.settleThreshold + 1) ++ (List.range s.cfg.bandCount).flatMap fun i =>
        tickWrites { s with phase := refreshPhase s.cfg (s.cfg.settleThreshold + 1 + i) } := by
    rw [refreshWrites, List.range_add, List.flatMap_append, List.flatMap_map]
    rfl
  rw [hsplit, refreshWrites_succ, refreshWrites_settling s le_rfl, hmixer, List.nil_append,
    List.flatMap_congr hband]

/-- Settles O40: the whole refresh is N + 1 + B ticks, whose writes are the mixer's and the bands'. -/
theorem refreshWritesEverything : Obligations.RefreshWritesEverything := by
  intro s hinv hf hphase ws hok
  have hN := hinv.one_le_settleThreshold
  have hws : refreshWrites s (s.cfg.settleThreshold + 1 + s.cfg.bandCount) = ws := by
    rw [refreshWrites_whole s hN]
    simp only [ws, State.gainAt, List.getD_eq_getElem?_getD]
  obtain ⟨hrun, _⟩ := execTimes_tick_refreshed hinv hf hphase (hws ▸ hok)
  have hcomplete := (refreshPhase_eq_complete_iff (c := s.cfg)
    (k := s.cfg.settleThreshold + 1 + s.cfg.bandCount)).2 (by omega)
  refine ⟨_, hrun, ?_, ?_⟩
  · rw [State.refreshed, hcomplete, if_neg (by omega)]
    rfl
  · rw [State.hist, State.refreshed, Bus.afterWrites_hist, hws]
    rfl

/-! ## The first hardware access (R225) -/

/-- A call that returns has its entry in the history (R33). -/
theorem hist_lt_writeOrWarn (c : Config) (o : Byte) (ys : List Byte) {b : Bus}
    (hret : b.returns = true) :
    b.hist.length < (writeOrWarn c o ys b).2.hist.length := by
  unfold writeOrWarn
  rcases tWrite_cases c o ys b with ⟨hstuck, _⟩ | ⟨_, hhangs, _⟩ | ⟨_, _, _, e⟩ | ⟨_, _, _, _, e⟩
  · simp [Bus.returns_stuck hret] at hstuck
  · exact absurd hhangs (Bus.nextDraw_ne_hangs hret)
  · simp [e]
  · simp [e]

/-- A history longer than n stays so (R33, R77). -/
theorem lt_hist_invariant (c : Config) (n : Nat) : BusInvariant c fun b => n < b.hist.length where
  write o ys b hb := hb.trans_le ((hist_invariant c b.hist).write o ys b List.prefix_rfl).length_le
  warn w b hb := hb.trans_le ((hist_invariant c b.hist).warn w b List.prefix_rfl).length_le

/-- A transaction of a valid, non-empty list makes at least one call, its preamble's first write
(R191). -/
theorem hist_lt_settingWrite {c : Config} (record : Result → Warning) {ds : List Descriptor} {b : Bus}
    (hne : ds ≠ []) (hwf : ds.all (Descriptor.wellFormed c) = true) (hret : b.returns = true) :
    b.hist.length < (settingWrite c record ds b).2.hist.length := by
  have hinv := lt_hist_invariant c b.hist.length
  have htransaction : b.hist.length < (transaction c ds b).2.hist.length := by
    obtain ⟨d, rest, rfl⟩ := List.exists_cons_of_ne_nil hne
    rw [transaction_eq b hwf hne]
    refine hinv.selectContext _ _ _ (BusInvariant.andThen ?_ (hinv.writeAll _))
    exact hist_lt_writeOrWarn c _ _ hret
  unfold settingWrite
  dsimp only
  split
  · exact htransaction
  · exact hinv.warn _ _ htransaction

/-- The tick that has a transaction to perform appends to the history. -/
theorem exec_tick_hist_lt {s : State} (hinv : s.Inv) (hf : s.failed = false) (hret : s.TransportReturns)
    {target : Target} {ds : List Descriptor} (ht : tickTransaction s = some (target, ds)) :
    ∃ t, exec .tick s = .next t ∧ s.hist.length < t.hist.length := by
  obtain ⟨hne, hwf⟩ := hinv.tickTransaction_wellFormed ht
  have hb := (returns_invariant s.cfg).settingWrite (.refreshWriteFailed target) ds s.bus hret
  exact ⟨_, exec_tick_of_settingWrite hf ht rfl (Bus.returns_stuck hb),
    hist_lt_settingWrite _ hne hwf hret⟩

/-- Up to the settle threshold the ticks after the trigger leave the bus as it was, whatever the
environment holds (R213, R214). -/
theorem execTimes_tick_settling {s : State} (hinv : s.Inv) (hf : s.failed = false)
    (hphase : s.phase = .triggered) {k : Nat} (hk : k ≤ s.cfg.settleThreshold) :
    execTimes .tick k s = .next (s.refreshed k) ∧ (s.refreshed k).Inv ∧
      (s.refreshed k).bus = s.bus := by
  have hnone := refreshWrites_settling s hk
  have hok : s.bus.NextSucceed (refreshWrites s k).length := by
    rw [hnone]
    exact ⟨hinv.running, Nat.zero_le _, rfl⟩
  obtain ⟨hrun, hinv'⟩ := execTimes_tick_refreshed hinv hf hphase hok
  exact ⟨hrun, hinv', by rw [State.refreshed, hnone, Bus.afterWrites_nil]⟩

/-- Settles O41: the first N ticks write nothing, and the tick in `MixerPending` makes its call. -/
theorem firstHardwareAccess : Obligations.FirstHardwareAccess := by
  intro s hinv hf hphase
  have hN := hinv.one_le_settleThreshold
  have htrigger := exec_trigger hf
  have hrun (k : Nat) (hk : k ≤ s.cfg.settleThreshold) :=
    execTimes_tick_settling (exec_inv hinv htrigger) hf (congrArg triggerPhase hphase) hk
  refine ⟨fun k hk => ?quiet, fun hret => ?first⟩
  case quiet =>
    obtain ⟨hticks, _, hbus⟩ := hrun k hk
    exact ⟨_, (execAll_cons htrigger _).trans ((execAll_replicate _ _ _).trans hticks), hbus⟩
  case first =>
    obtain ⟨hticks, hinv', hbus⟩ := hrun _ le_rfl
    have hret' : (State.refreshed _ _).TransportReturns := (congrArg Bus.returns hbus).trans hret
    obtain ⟨t, ht, hgrown⟩ := exec_tick_hist_lt hinv' hf hret'
      (tickTransaction_mixerPending (refreshPhase_mixerPending hN))
    rw [State.hist, hbus] at hgrown
    exact ⟨t, (execAll_cons htrigger _).trans
      ((execAll_replicate _ _ _).trans (execTimes_succ hticks ht)), hgrown⟩

end Sys2Proof.Machine
end

section
/-! SUPPORT. The family of 45_faults.md: a POLL whose read fails (R249), two successful polls in succession
(R250) and CLEAR_FAULTS (R247). -/

namespace Sys2Proof.Machine

/-! ## CLEAR_FAULTS (R247) -/

/-- CLEAR_FAULTS of a running device ends with what its one write answers, unless the call never
returns. -/
theorem exec_clearFaults_of_writeOrWarn {s : State} {r : Result} {b : Bus} (hf : s.failed = false)
    (hrun : writeOrWarn s.cfg s.cfg.regFaultClear [s.cfg.faultClearValue] s.bus = (r, b))
    (hstuck : b.stuck = false) :
    exec .clearFaults s = .next ({ s with bus := b }.deliver r) := by
  show gated s _ = _
  rw [gated_running hf, hrun]
  exact conclude_running hstuck

/-- Settles O49, by the two ways one write can end. -/
theorem clearFaultsRule : Obligations.ClearFaultsRule := by
  intro s hf w
  refine ⟨fun hok => ?success, fun code landed hfail => ?failure⟩
  case success =>
    have ⟨hrunning, _⟩ := hok
    exact exec_clearFaults_of_writeOrWarn hf (writeOrWarn_success _ hok) hrunning
  case failure =>
    have ⟨⟨hrunning, _⟩, _⟩ := hfail
    exact exec_clearFaults_of_writeOrWarn hf (writeOrWarn_failure hfail) hrunning

/-! ## A failed POLL (R249) -/

/-- A read whose draw is in store and is a failure (R61). -/
theorem tRead_of_failing_draw {b : Bus} {code : BusCode} {landed : Nat} {ds : List Draw} (o : Byte)
    (n : Nat) (hstuck : b.stuck = false) (hdraws : b.draws = .returns (.err code landed) :: ds) :
    tRead o n b = (.err code.toByte, b.advance.log (.r o n (.err code.toByte))) := by
  have hdraw : b.nextDraw = .returns (.err code landed) := by simp [Bus.nextDraw, hdraws]
  simp [tRead, hstuck, hdraw]

/-- Without a changed flag, `publish` is `any_fault` (R245, R249). -/
theorem publish_noChange (exclude : Bool) (snap : Snapshot) :
    publish exclude snap noChange = anyFault exclude snap := rfl

/-- Settles O46, by its one read, which fails. -/
theorem pollFailureRule : Obligations.PollFailureRule := by
  intro s code landed ds hf hstuck hdraws
  refine ⟨?_, publish_noChange _ _⟩
  show gated s _ = _
  rw [gated_running hf, tRead_of_failing_draw _ 4 hstuck hdraws, conclude_running]
  · simp [pollReturn, State.deliver, Bus.warn, Bus.log, Bus.advance, hdraws, noChange,
      Result.transportError]
  · exact hstuck

/-! ## The clock bit of the global byte (R241) -/

section ClockBit
variable {m : Byte}

/-- A byte with exactly one bit set is a power of two. -/
theorem eq_twoPow_of_oneBitSet (h : oneBitSet m = true) : ∃ k < 8, m = BitVec.twoPow 8 k := by
  obtain ⟨k, hk⟩ := List.length_eq_one_iff.1 (beq_iff_eq.1 h)
  have hbit (j : Nat) : j < 8 ∧ m.getLsbD j = true ↔ j = k := by
    rw [← List.mem_singleton (a := j), ← hk, List.mem_filter, List.mem_range]
  refine ⟨k, ((hbit k).2 rfl).1, ?_⟩
  ext j hj
  rw [BitVec.getElem_twoPow, ← BitVec.getLsbD_eq_getElem, Bool.eq_iff_iff, decide_eq_true_iff]
  exact (and_iff_right hj).symm.trans (hbit j)

/-- Toggling the clock bit of a byte toggles whether it is set. -/
theorem xor_and_oneBit_eq_zero_iff (h : oneBitSet m = true) (y : Byte) :
    (y ^^^ m) &&& m = 0 ↔ y &&& m ≠ 0 := by
  obtain ⟨k, hk, rfl⟩ := eq_twoPow_of_oneBitSet h
  have hne : BitVec.twoPow 8 k ≠ 0 := fun h => by
    simpa [hk] using congrArg (BitVec.getLsbD · k) h
  have hzero (x : Byte) : x &&& BitVec.twoPow 8 k = 0 ↔ x.getLsbD k = false := by
    rw [BitVec.and_twoPow]
    cases x.getLsbD k with
    | false => simp
    | true => simpa using hne
  rw [ne_eq, hzero, hzero, BitVec.getLsbD_xor]
  simp [hk]

/-- Toggling the masked bits leaves the others. -/
theorem xor_and_not (m y : Byte) : (y ^^^ m) &&& ~~~m = y &&& ~~~m := by
  ext j hj
  cases hm : m[j] <;> simp [hm]

/-- Two bytes that agree on the masked bits and on the others are equal. -/
theorem eq_of_and_eq_of_and_not_eq {y z : Byte} (hin : z &&& m = y &&& m)
    (hout : z &&& ~~~m = y &&& ~~~m) : z = y := by
  have hsplit (x : Byte) : x = x &&& m ||| x &&& ~~~m := by
    rw [← BitVec.and_or_distrib_left, BitVec.or_not_self, BitVec.and_allOnes]
  rw [hsplit z, hin, hout, ← hsplit]

/-! ## Two polls in succession (R250) -/

/-- Where the global byte alone is read anew, its two groups alone can change (R242, R243). -/
theorem changedFlags_of_globalByte (m y0 y1 z1 y2 y3 : Byte) :
    changedFlags (snapshotOf m y0 y1 y2 y3) (snapshotOf m y0 z1 y2 y3) =
      ⟨false, decide (y1 &&& ~~~m ≠ z1 &&& ~~~m),
        decide (decide (y1 &&& m ≠ 0) ≠ decide (z1 &&& m ≠ 0)), false, false⟩ := by
  simp [changedFlags_eq, snapshotOf]

theorem changedFlags_self (snap : Snapshot) : changedFlags snap snap = noChange := by
  simp [changedFlags_eq, noChange]

theorem changedFlags_of_clockBit (h : oneBitSet m = true) (y0 y1 y2 y3 : Byte) :
    changedFlags (snapshotOf m y0 y1 y2 y3) (snapshotOf m y0 (y1 ^^^ m) y2 y3) =
      ⟨false, false, true, false, false⟩ := by
  simp only [changedFlags_of_globalByte, xor_and_not, ne_eq, xor_and_oneBit_eq_zero_iff h]
  simp

theorem changedFlags_of_globalBits {y1 z1 : Byte} (hne : z1 ≠ y1) (hclock : z1 &&& m = y1 &&& m)
    (y0 y2 y3 : Byte) :
    changedFlags (snapshotOf m y0 y1 y2 y3) (snapshotOf m y0 z1 y2 y3) =
      ⟨false, true, false, false, false⟩ := by
  have hglob : y1 &&& ~~~m ≠ z1 &&& ~~~m := fun h =>
    hne (eq_of_and_eq_of_and_not_eq hclock h.symm)
  simp [changedFlags_of_globalByte, hclock, hglob]

end ClockBit

/-- What a successful POLL leaves for the next one: the snapshot of its four bytes, and the flags that
compare it with the snapshot before (R240 to R243). -/
theorem exec_poll_faults {s t : State} {y0 y1 y2 y3 : Byte} {ds : List Draw}
    (hf : s.failed = false) (hstuck : s.bus.stuck = false)
    (hdraws : s.bus.draws = .returns (.ok [y0, y1, y2, y3]) :: ds) (ht : exec .poll s = .next t) :
    t.cfg = s.cfg ∧ t.failed = false ∧ t.bus.stuck = false ∧ t.bus.draws = ds ∧
      t.snap = snapshotOf s.cfg.clockFaultMask y0 y1 y2 y3 ∧ t.chg = changedFlags s.snap t.snap := by
  cases ht.symm.trans (pollRule s y0 y1 y2 y3 ds hf hstuck hdraws)
  have hchg := changedFlags_eq s.snap (snapshotOf s.cfg.clockFaultMask y0 y1 y2 y3)
  exact ⟨rfl, hf, hstuck, rfl, rfl, hchg.symm⟩

/-- Settles O47: the flags of the second poll compare its four bytes with the first's. -/
theorem trackerLaws : Obligations.TrackerLaws := by
  intro s t u y0 y1 y2 y3 z1 ds hwf hf hstuck hdraws ht hu
  obtain ⟨_, _, _, _, _, hmask, _⟩ := Config.wf_parts hwf
  obtain ⟨htcfg, htf, htstuck, htdraws, htsnap, _⟩ := exec_poll_faults hf hstuck hdraws ht
  obtain ⟨hucfg, _, _, _, husnap, huchg⟩ := exec_poll_faults htf htstuck htdraws hu
  rw [huchg, husnap, htsnap, hucfg, htcfg]
  refine ⟨fun hsame => ?same, fun hclock => ?clock, fun hne hclock => ?global,
    snapshotOf_glob_and_mask _ _ _ _ _⟩
  case same => rw [hsame]; exact changedFlags_self _
  case clock => rw [hclock]; exact changedFlags_of_clockBit hmask _ _ _ _
  case global => exact changedFlags_of_globalBits hne hclock _ _ _

end Sys2Proof.Machine
end

section
/-! SUPPORT. The family of 46_system.md: SETUP (R260) and the failed latch (R261). -/

namespace Sys2Proof.Machine

/-! ## SETUP (R260) -/

/-- SETUP of a running device ends with what its run of writes answers, and latches a failure, unless a
call never returns. -/
theorem exec_setup_of_writeAll {s : State} {r : Result} {b : Bus} (hf : s.failed = false)
    (hrun : writeAll s.cfg s.cfg.initSeq s.bus = (r, b)) (hstuck : b.stuck = false) :
    exec .setup s = .next ({ s with bus := b, failed := decide (r.status ≠ Status.ok) }.deliver r) := by
  show gated s _ = _
  rw [gated_running hf, hrun]
  exact conclude_running hstuck

/-- Settles O50, by the two ways a run of writes can end. -/
theorem setupRule : Obligations.SetupRule := by
  intro s hf
  refine ⟨fun hok => ?success, fun k w code landed hk hfail => ?failure⟩
  case success =>
    have ⟨hrunning, _⟩ := hok
    simpa [State.deliver, Result.ok, hf] using
      exec_setup_of_writeAll hf (writeAll_success _ hok) hrunning
  case failure =>
    have ⟨⟨hrunning, _⟩, _⟩ := hfail
    exact exec_setup_of_writeAll hf (writeAll_failure hk hfail) hrunning

/-! ## The failed latch (R261) -/

/-- Every operation that is not pure stands behind the gate of the failed latch. -/
theorem exec_eq_gated {i : Instr} (hi : isPure i = false) (s : State) :
    ∃ run, exec i s = gated s run := by
  cases i with
  | encode923 | encode527 | decode923 | decode527 | designLp | designHp | lookup => cases hi
  | setBookAndPage | apply | trigger | tick | setGain | setMixerMode | poll | readFaults
  | clearFaults | setup => exact ⟨_, rfl⟩

/-- A pure operation completes in every state, with a result that the configuration alone determines
(R31, R261). -/
theorem exec_eq_answer_of_isPure {i : Instr} (hi : isPure i = true) :
    ∃ result : Config → Result, ∀ s, exec i s = answer s (result s.cfg) := by
  cases i with
  | encode923 v =>
    exact ⟨fun c => .okWith (.word (encCore c.nanWord fmt923 (f32Value v))), fun _ => rfl⟩
  | encode527 v =>
    exact ⟨fun c => .okWith (.word (encCore c.nanWord fmt527 (f32Value v))), fun _ => rfl⟩
  | decode923 w | decode527 w => exact ⟨fun _ => .okWith (.word w), fun _ => rfl⟩
  | designLp fs fc => exact ⟨fun c => designResult c .lowpass fs fc, fun _ => rfl⟩
  | designHp fs fc => exact ⟨fun c => designResult c .highpass fs fc, fun _ => rfl⟩
  | lookup band g =>
    exact ⟨fun c => if bandGainValid c band g then
      .okWith (.descriptors (serialise (lutCell c band.toNat (rowOf c g)))) else .validationError,
      fun _ => rfl⟩
  | setBookAndPage | apply | trigger | tick | setGain | setMixerMode | poll | readFaults
  | clearFaults | setup => cases hi

/-- No operation clears the failed latch, not even SETUP, which is gated. -/
theorem exec_keeps_latched {s t : State} {i : Instr} (he : exec i s = .next t)
    (hf : s.failed = true) : t.failed = true := by
  obtain ⟨_, _, _, _, _, _, _, hkept | ⟨_, hrunning⟩⟩ := exec_regs he
  · exact hkept.trans hf
  · exact absurd (hf.symm.trans hrunning) (by decide)

/-- A step that leaves a failed device running has taken the reset event. -/
theorem step_unlatched {s t : State} (h : step s = .next t) (hf : s.failed = true)
    (ht : t.failed = false) : ∃ rest, s.port = .reset :: rest := by
  have hne (hkept : t.failed = true) : False := Bool.noConfusion (hkept.symm.trans ht)
  obtain ⟨_, ⟨_, rfl⟩ | ⟨_, _, _, _, _, _, he⟩ | ⟨_, _, _, _, _, _, rfl⟩ | ⟨rest, hport, _⟩⟩ :=
    step_cases h
  · exact (hne hf).elim
  · exact (hne (exec_keeps_latched he hf)).elim
  · exact (hne hf).elim
  · exact ⟨rest, hport⟩

/-- Settles O51: the gate, the pure operations, the operations other than SETUP, and the step. -/
theorem failedLatch : Obligations.FailedLatch := by
  refine ⟨fun i s hf hi => ?gate, fun i s hi => ?pure, fun _ _ _ => exec_keeps_failed,
    fun _ _ => step_unlatched⟩
  case gate =>
    obtain ⟨run, hrun⟩ := exec_eq_gated hi s
    exact hrun.trans (gated_failed hf)
  case pure =>
    obtain ⟨result, hresult⟩ := exec_eq_answer_of_isPure hi
    exact ⟨result s.cfg, fun f => hresult { s with failed := f }⟩

end Sys2Proof.Machine
end

section
/-! SUPPORT. The family of 70_reset_and_hazards.md: where every transport call returns every operation
completes, and a call that never returns is all that can stop one (R320 to R322); the reset event and the
excluded interleavings (R300, R307). With it, the command words written out in 95_test_vectors.md. -/

namespace Sys2Proof.Machine

/-! ## The only way an operation can stop (R321, R322) -/

/-- An outcome, from `s`, that is a next state, or else the fault of a transport that does not keep its
duty. -/
def StopsOnlyByHanging (s : State) (o : Host.Outcome State Fault Refusal) : Prop :=
  (∃ t, o = .next t) ∨ (o = .fault .transportNeverReturned ∧ ¬ s.TransportReturns)

theorem answer_stopsOnlyByHanging (s t : State) (r : Result) : StopsOnlyByHanging s (answer t r) :=
  .inl ⟨_, rfl⟩

theorem conclude_stopsOnlyByHanging (s t : State) : StopsOnlyByHanging s (conclude s t) := by
  cases h : conclude s t with
  | next u => exact .inl ⟨u, rfl⟩
  | fault f =>
    obtain ⟨hret, rfl⟩ := conclude_fault h
    exact .inr ⟨rfl, Bool.eq_false_iff.1 hret⟩
  | refused r => exact absurd h conclude_not_refused

theorem gated_stopsOnlyByHanging {s : State} {run : Host.Outcome State Fault Refusal}
    (h : StopsOnlyByHanging s run) : StopsOnlyByHanging s (gated s run) := by
  unfold gated
  split
  · exact answer_stopsOnlyByHanging s s _
  · exact h

/-- The end of both setters, in `Complete` and elsewhere (R219, R220). -/
theorem settleNow_stopsOnlyByHanging (before s : State) (target : Target) (ds : List Descriptor) :
    StopsOnlyByHanging before (settleNow before s target ds) := by
  unfold settleNow
  split
  · exact conclude_stopsOnlyByHanging before _
  · exact answer_stopsOnlyByHanging before s _

/-- Every operation ends in one of the shared ways: by an answer, or by `conclude` (R278, R321). -/
theorem exec_stopsOnlyByHanging (i : Instr) (s : State) : StopsOnlyByHanging s (exec i s) := by
  cases i with
  | encode923 | encode527 | decode923 | decode527 | designLp | designHp | lookup =>
    exact answer_stopsOnlyByHanging s s _
  | trigger | readFaults => exact gated_stopsOnlyByHanging (answer_stopsOnlyByHanging s _ _)
  | setBookAndPage | poll | clearFaults | setup =>
    exact gated_stopsOnlyByHanging (conclude_stopsOnlyByHanging s _)
  | apply count =>
    apply gated_stopsOnlyByHanging
    split
    · exact conclude_stopsOnlyByHanging s _
    · exact answer_stopsOnlyByHanging s s _
  | tick =>
    apply gated_stopsOnlyByHanging
    split
    · exact answer_stopsOnlyByHanging s _ _
    · exact conclude_stopsOnlyByHanging s _
  | setGain | setMixerMode =>
    apply gated_stopsOnlyByHanging
    split
    · exact settleNow_stopsOnlyByHanging s _ _ _
    · exact answer_stopsOnlyByHanging s s _

/-- Where every call returns an operation completes, and every later call returns too (R322). -/
theorem exec_completes (i : Instr) {s : State} (hret : s.TransportReturns) :
    ∃ t, exec i s = .next t ∧ t.TransportReturns := by
  rcases exec_stopsOnlyByHanging i s with ⟨t, ht⟩ | ⟨_, hnot⟩
  · exact ⟨t, ht, exec_bus (returns_invariant s.cfg) (fun _ _ _ => tRead_returns) hret ht⟩
  · exact absurd hret hnot

/-- The one fault of an operation is a call that never returns (R321). -/
theorem exec_fault {i : Instr} {s : State} {f : Fault} (h : exec i s = .fault f) :
    f = .transportNeverReturned ∧ ¬ s.TransportReturns := by
  rcases exec_stopsOnlyByHanging i s with ⟨t, ht⟩ | ⟨hfault, hnot⟩
  · cases h.symm.trans ht
  · cases h.symm.trans hfault
    exact ⟨rfl, hnot⟩

theorem exec_ne_refused (i : Instr) (s : State) (r : Refusal) : exec i s ≠ .refused r := by
  intro h
  rcases exec_stopsOnlyByHanging i s with ⟨t, ht⟩ | ⟨hfault, _⟩
  · cases h.symm.trans ht
  · cases h.symm.trans hfault

/-! ## A first call that never returns (R321) -/

section FirstCallHangs
variable {b : Bus} {ds : List Draw}

theorem Bus.nextDraw_of_hanging_draw (h : b.draws = .hangs :: ds) : b.nextDraw = .hangs := by
  simp [Bus.nextDraw, h]

theorem tRead_stuck_of_hanging_draw (h : b.draws = .hangs :: ds) (o : Byte) (n : Nat) :
    (tRead o n b).2.stuck = true := by
  cases hs : b.stuck with
  | true => simp [tRead, hs]
  | false => simp [tRead, hs, Bus.nextDraw_of_hanging_draw h]

theorem writeOrWarn_stuck_of_hanging_draw (h : b.draws = .hangs :: ds) (c : Config) (o : Byte)
    (ys : List Byte) : (writeOrWarn c o ys b).2.stuck = true := by
  cases hs : b.stuck with
  | true => exact (stuck_invariant c).writeOrWarn o ys b hs
  | false => simp [writeOrWarn, tWrite, hs, Bus.nextDraw_of_hanging_draw h]

/-- The preamble gets stuck at the first of its three writes (R190). -/
theorem selectContext_stuck_of_hanging_draw (h : b.draws = .hangs :: ds) (c : Config)
    (book page : Byte) : (selectContext c book page b).2.stuck = true :=
  BusInvariant.andThen (writeOrWarn_stuck_of_hanging_draw h c _ _) ((stuck_invariant c).writeAll _)

end FirstCallHangs

/-- An operation of a running device whose calls get stuck at a draw that hangs ends in the fault. -/
theorem gated_conclude_of_hanging_draw {s t : State} {ds : List Draw} (hf : s.failed = false)
    (hdraws : s.bus.draws = .hangs :: ds) (hstuck : t.bus.stuck = true) :
    gated s (conclude s t) = .fault .transportNeverReturned := by
  have hret : s.bus.returns = false := by simp [Bus.returns, hdraws]
  simp [gated_running hf, conclude, hret, hstuck]

/-- A block stuck in a transport call accepts nothing more (R321). -/
theorem step_of_stuck {s : State} (h : s.bus.stuck = true) :
    step s = .fault .transportNeverReturned := by
  simp [step, h]

/-- Settles O54: the ways an operation can end, the stuck first call, and the step of a stuck block. -/
theorem everyOperationCompletes : Obligations.EveryOperationCompletes := by
  refine ⟨fun i _ => exec_completes i, fun _ _ _ => exec_fault, exec_ne_refused,
    fun s ds hf hdraws => ⟨?poll, ?clearFaults, fun book page => ?setBookAndPage⟩,
    fun _ => step_of_stuck⟩
  case poll =>
    refine gated_conclude_of_hanging_draw hf hdraws ?_
    rw [pollReturn_stuck]
    exact tRead_stuck_of_hanging_draw hdraws _ _
  case clearFaults =>
    exact gated_conclude_of_hanging_draw hf hdraws (writeOrWarn_stuck_of_hanging_draw hdraws _ _ _)
  case setBookAndPage =>
    exact gated_conclude_of_hanging_draw hf hdraws
      (selectContext_stuck_of_hanging_draw hdraws _ book page)

/-! ## The reset event and the excluded interleavings (R300, R307) -/

theorem step_of_reset {s : State} {rest : List PortEvent} (hstuck : s.bus.stuck = false)
    (hport : s.port = .reset :: rest) :
    step s = .next ({ s with port := rest } : State).resetEvent := by
  simp [step, hstuck, hport]

theorem step_of_intrusion {s : State} {kind : Intrusion} {rest : List PortEvent}
    (hstuck : s.bus.stuck = false) (hport : s.port = .intrusion kind :: rest) :
    step s = .refused (.excludedInterleaving kind) := by
  simp [step, hstuck, hport]

/-- Settles O58, by the step on each of the two events. -/
theorem resetEventAndIntrusions : Obligations.ResetEventAndIntrusions :=
  ⟨fun _ _ hstuck hport => step_of_reset hstuck hport,
    fun _ _ _ hstuck hport => step_of_intrusion hstuck hport⟩

/-! ## Written command words (95_test_vectors.md section 8) -/

/-- A word that an operation encodes to decodes to that operation. -/
theorem decode_of_encode_eq {i : Instr} {cmd : CommandWord} (h : encode i = cmd) :
    decode cmd = .ok i := by
  rw [← h, decode_encode]

/-- Settles O3: each word is the encoding of its operation. -/
theorem writtenWordsDecode : Obligations.WrittenWordsDecode := by
  refine ⟨?_, ?_, ?_, ?_, ?_, ?_, ?_, ?_, ?_, ?_, ?_, ?_⟩ <;> exact decode_of_encode_eq (by decide)

end Sys2Proof.Machine
end
